-- ==== Sys2Proof/Word.lean ====
section
/-! DEFINITION. The words of the GF2PM core: the host's 32-bit words, the contents of the polynomial,
element, modulus and table registers, and the unbounded bit vectors of the arithmetic (spec rules R9, R10, R13). -/

namespace Sys2Proof

/-- A 32-bit word of the host port: a command word, a register read or written (R65, R90). -/
abbrev Word := BitVec 32

/-- The contents of a polynomial register, W = 256 bits (R9, R21). -/
abbrev PolyWord := BitVec 256

/-- The bit pattern of an element, VW = 127 bits (R9, R22). -/
abbrev ElemWord := BitVec 127

/-- A stored modulus, MW = 128 bits (R9, R24). -/
abbrev ModWord := BitVec 128

/-- One log or antilog table entry, TW = 16 bits (R9, R25). -/
abbrev Entry := BitVec 16

/-- An offset in the block's register map, AW = 12 bits (R9, R60). -/
abbrev Offset := BitVec 12

/-- A polynomial over GF(2) as an UNBOUNDED bit vector: bit i is the coefficient of x^i, and the vector is read as
the non-negative integer Σ bit_i·2^i wherever the spec compares, indexes or prints it (R10, R13). -/
abbrev Poly := Nat

end Sys2Proof
end

