-- ==== Sys2Proof/Config.lean ====
section
/-! DEFINITION. What is fixed for this hardware (R8, R9, R32), the platform's open parameter (R61), and the free
values: bodiless constants for what the spec calls unspecified (R25, R71, R171). -/

namespace Sys2Proof.Config

/-- Least field degree (R8). -/
def mMin : Nat := 2
/-- Greatest field degree (R8). -/
def mMax : Nat := 127
/-- MT: greatest degree the table engine accepts (R8). -/
def MT : Nat := 16
/-- GEN_DEFAULT: the default generator x, bit pattern 0b10 (R8, R163). -/
def genDefault : Poly := 0b10
/-- W: width of a polynomial register (R9). -/
def W : Nat := 256
/-- NP: number of polynomial registers (R9). -/
abbrev NP : Nat := 16
/-- NE: number of element registers (R9). -/
abbrev NE : Nat := 16
/-- NF: number of field slots. Any value 1..16 is legal; this hardware takes 4 (R9, R33). -/
abbrev NF : Nat := 4

/-- The constant of the ID register, "GF2P" (R32). -/
def idValue : Word := 0x47463250

/-- The 4 KiB frame the platform gives the block: OPEN in the spec, so nothing constrains it (R61). -/
opaque baseFrame : Nat

/-- GF2PM_BASE: the block's base address in the host's physical space, 4 KiB aligned (R61). -/
def GF2PM_BASE : Nat := 4096 * baseFrame

/-- The physical address of an offset of the register map (R61: every address of the spec is an offset from the base). -/
def physicalAddress (off : Offset) : Nat := GF2PM_BASE + off.toNat

/-! Free values: the argument is the value of State's counter of draws (and, for a table entry, which table and index). -/

/-- FREE VALUE: what a read of RESULT, ERRCMD, FINFO or the P window returns while BUSY = 1 (R71, I1). -/
opaque freeWord : Nat → Word
/-- FREE VALUE: FS[k].M after FREL (R171). -/
opaque freeM : Nat → BitVec 7
/-- FREE VALUE: FS[k].MOD after FREL (R171). -/
opaque freeMod : Nat → ModWord
/-- FREE VALUE: FS[k].ENG after FREL, as its bit (R171). -/
opaque freeEng : Nat → Bool
/-- FREE VALUE: FS[k].GENX after FREL (R171). -/
opaque freeGenx : Nat → Bool
/-- FREE VALUE: FS[k].GEN after FREL (R171). -/
opaque freeGen : Nat → BitVec 16
/-- FREE VALUE: an ALOG entry that no construction has defined: the slot, the draw, the index (R25). -/
opaque freeAlogEntry : Nat → Nat → Nat → Entry
/-- FREE VALUE: a LOG entry that no construction has defined: the slot, the draw, the index (R25). -/
opaque freeLogEntry : Nat → Nat → Nat → Entry
/-- FREE VALUE: the quotient and remainder of a division by the zero polynomial, which no rule defines (R121). -/
opaque freeDivision : Poly → Poly × Poly

end Sys2Proof.Config
end

