-- ==== Sys2Proof/Syntax.lean ====
section
/-! DEFINITION. The commands of the GF2PM command set, version 1: one constructor per row of the opcode table
(R106; FCFG has three rows), with the operands of its format (R92 to R105). -/

namespace Sys2Proof

/-- The index of a polynomial register p0..p15 (R21, R105). -/
abbrev PReg := Fin 16
/-- The index of an element register e0..e15 (R22, R105). -/
abbrev EReg := Fin 16
/-- A slot index as a 4-bit field holds it, 0..15; only an index below NF names a slot (R105, R107 item 5). -/
abbrev SlotIx := Fin 16

/-- A command. Destinations come first, as in the assembly syntax (R111). -/
inductive Instr where
  /-- NOP (R140). -/
  | nop
  /-- PXOR pd, pa, pb (R141). -/
  | pxor (d a b : PReg)
  /-- CLMUL pd, pa, pb (R142). -/
  | clmul (d a b : PReg)
  /-- PDEG pa (R143). -/
  | pdeg (a : PReg)
  /-- PDIVMOD pq, pr, pa, pb (R144): quotient, remainder, dividend, divisor. -/
  | pdivmod (q r a b : PReg)
  /-- PMOD pd, pa, pb (R145). -/
  | pmod (d a b : PReg)
  /-- PSHL pd, pa, n (R146). -/
  | pshl (d a : PReg) (n : BitVec 8)
  /-- PSHR pd, pa, n (R147). -/
  | pshr (d a : PReg) (n : BitVec 8)
  /-- PBTST pa, n (R148). -/
  | pbtst (a : PReg) (n : BitVec 8)
  /-- PEXT pd, pa, lo, len (R149). -/
  | pext (d a : PReg) (lo len : BitVec 8)
  /-- PLDI pd, imm16 (R150). -/
  | pldi (d : PReg) (imm : BitVec 16)
  /-- FCFG fk, m, pm, EUCLID (R170, row E = 0). -/
  | fcfgEuclid (k : SlotIx) (m : BitVec 7) (pm : PReg)
  /-- FCFG fk, m, pm, TABLE (R170, row E = 1, GX = 0). -/
  | fcfgTable (k : SlotIx) (m : BitVec 7) (pm : PReg)
  /-- FCFG fk, m, pm, TABLE, pg (R170, row E = 1, GX = 1). -/
  | fcfgTableGen (k : SlotIx) (m : BitVec 7) (pm pg : PReg)
  /-- FREL fk (R171). -/
  | frel (k : SlotIx)
  /-- TLOG fk, v (R210). -/
  | tlog (k : SlotIx) (v : BitVec 16)
  /-- TALOG fk, i (R211). -/
  | talog (k : SlotIx) (i : BitVec 16)
  /-- ELEM ed, pa, fk (R260). -/
  | elem (d : EReg) (a : PReg) (k : SlotIx)
  /-- EVAL pd, ea (R261). -/
  | eval (d : PReg) (a : EReg)
  /-- EADD ed, ea, eb (R262). -/
  | eadd (d a b : EReg)
  /-- ESUB ed, ea, eb (R263). -/
  | esub (d a b : EReg)
  /-- ENEG ed, ea (R264). -/
  | eneg (d a : EReg)
  /-- EMUL ed, ea, eb (R265). -/
  | emul (d a b : EReg)
  /-- EDIV ed, ea, eb (R266). -/
  | ediv (d a b : EReg)
  /-- EINV ed, ea (R267). -/
  | einv (d a : EReg)
  /-- EEQ ea, eb (R268). -/
  | eeq (a b : EReg)
  deriving DecidableEq, Repr

end Sys2Proof
end

