-- ==== Sys2Proof/WellFormed.lean ====
section
/-! DEFINITION. When a command is well formed: the one check the types of its operands do not already make is that
a slot index names a slot of this hardware (R105, R107 item 5). -/

namespace Sys2Proof

/-- The slot index a command names, if it names one (R105). -/
def Instr.slotOperand : Instr → Option SlotIx
  | .nop => none
  | .pxor _ _ _ => none
  | .clmul _ _ _ => none
  | .pdeg _ => none
  | .pdivmod _ _ _ _ => none
  | .pmod _ _ _ => none
  | .pshl _ _ _ => none
  | .pshr _ _ _ => none
  | .pbtst _ _ => none
  | .pext _ _ _ _ => none
  | .pldi _ _ => none
  | .fcfgEuclid k _ _ => some k
  | .fcfgTable k _ _ => some k
  | .fcfgTableGen k _ _ _ => some k
  | .frel k => some k
  | .tlog k _ => some k
  | .talog k _ => some k
  | .elem _ _ k => some k
  | .eval _ _ => none
  | .eadd _ _ _ => none
  | .esub _ _ _ => none
  | .eneg _ _ => none
  | .emul _ _ _ => none
  | .ediv _ _ _ => none
  | .einv _ _ => none
  | .eeq _ _ => none

/-- A command is well formed when the slot it names, if any, is one of the NF slots (R107 item 5). -/
def Instr.wf (i : Instr) : Bool :=
  match i.slotOperand with
  | none => true
  | some k => decide (k.val < Config.NF)

end Sys2Proof
end

