-- ==== Sys2Proof/Decode.lean ====
section
/-! DEFINITION. Decoding a command word (R90 to R108), total and rejecting by name, and the encoder written from
the same formats (R92 to R103). -/

namespace Sys2Proof

/-- Why a command word is illegal: the five items of R107. -/
inductive DecodeError where
  /-- OP is not in the opcode map (R107 item 1). -/
  | reservedOpcode
  /-- A reserved bit of the format is not zero (R107 item 2). -/
  | reservedBits
  /-- FCFG with GX = 1 and E = 0 (R107 item 3). -/
  | generatorForEuclid
  /-- FCFG with GX = 0 and PG ≠ 0 (R107 item 4). -/
  | generatorRegisterUnused
  /-- A slot index K ≥ NF (R107 item 5). -/
  | slotOutOfRange
  deriving DecidableEq, Repr

/-! ### Fields of a command word (R91, R100) -/

/-- The 6-bit opcode, bits 31:26 (R90). -/
def opOf (w : Word) : BitVec 6 := w.extractLsb' 26 6
/-- A 4-bit register or slot index whose lowest bit is bit lo (R91). -/
def indexAt (lo : Nat) (w : Word) : Fin 16 := (w.extractLsb' lo 4).toFin
/-- Field D, bits 25:22, which also holds the slot index K of FCFG, FREL, TLOG and TALOG (R91). -/
def fieldD (w : Word) : Fin 16 := indexAt 22 w
/-- Field A, bits 21:18 (R91). -/
def fieldA (w : Word) : Fin 16 := indexAt 18 w
/-- Field B, bits 17:14, which also holds the slot index K of ELEM (R91). -/
def fieldB (w : Word) : Fin 16 := indexAt 14 w
/-- Field R, bits 13:10 (R91). -/
def fieldR (w : Word) : Fin 16 := indexAt 10 w
/-- Field N, bits 7:0 (R91). -/
def fieldN (w : Word) : BitVec 8 := w.extractLsb' 0 8
/-- Field L, bits 15:8 (R91). -/
def fieldL (w : Word) : BitVec 8 := w.extractLsb' 8 8
/-- Field IMM16, bits 15:0 (R91). -/
def fieldImm (w : Word) : BitVec 16 := w.extractLsb' 0 16
/-- Field MF of FCFG, bits 21:15 (R100). -/
def fieldMF (w : Word) : BitVec 7 := w.extractLsb' 15 7
/-- Field PM of FCFG, bits 11:8 (R100). -/
def fieldPM (w : Word) : Fin 16 := indexAt 8 w
/-- Field PG of FCFG, bits 7:4 (R100). -/
def fieldPG (w : Word) : Fin 16 := indexAt 4 w

/-! ### The decoder (R108) -/

/-- The last check of R108: a row that uses K needs K < NF. -/
def checkSlot (i : Instr) : Except DecodeError Instr :=
  if i.wf then .ok i else .error .slotOutOfRange

/-- One row of the opcode map: the word is that command when w & mask = match (R106). -/
def fitRow (w mask pat : Word) (i : Instr) : Except DecodeError Instr :=
  if w &&& mask = pat then checkSlot i else .error .reservedBits

/-- The three FCFG rows (R106), told apart by E (bit 14) and GX (bit 13); the word with E = 0 and GX = 1 fits none. -/
def decodeFcfg (w : Word) : Except DecodeError Instr :=
  match w.getLsbD 14, w.getLsbD 13 with
  | false, true => .error .generatorForEuclid
  | false, false =>
    if fieldPG w = 0 then fitRow w 0xFC0070FF 0x40000000 (.fcfgEuclid (fieldD w) (fieldMF w) (fieldPM w))
    else .error .generatorRegisterUnused
  | true, false =>
    if fieldPG w = 0 then fitRow w 0xFC0070FF 0x40004000 (.fcfgTable (fieldD w) (fieldMF w) (fieldPM w))
    else .error .generatorRegisterUnused
  | true, true =>
    fitRow w 0xFC00700F 0x40006000 (.fcfgTableGen (fieldD w) (fieldMF w) (fieldPM w) (fieldPG w))

/-- Decode a command word (R108): the row of its opcode, the reserved bits, the slot index. -/
def decode (w : Word) : Except DecodeError Instr :=
  match (opOf w).toNat with
  | 0x00 => fitRow w 0xFFFFFFFF 0x00000000 .nop
  | 0x01 => fitRow w 0xFC003FFF 0x04000000 (.pxor (fieldD w) (fieldA w) (fieldB w))
  | 0x02 => fitRow w 0xFC003FFF 0x08000000 (.clmul (fieldD w) (fieldA w) (fieldB w))
  | 0x03 => fitRow w 0xFFC3FFFF 0x0C000000 (.pdeg (fieldA w))
  | 0x04 => fitRow w 0xFC0003FF 0x10000000 (.pdivmod (fieldD w) (fieldR w) (fieldA w) (fieldB w))
  | 0x05 => fitRow w 0xFC003FFF 0x14000000 (.pmod (fieldD w) (fieldA w) (fieldB w))
  | 0x06 => fitRow w 0xFC03FF00 0x18000000 (.pshl (fieldD w) (fieldA w) (fieldN w))
  | 0x07 => fitRow w 0xFC03FF00 0x1C000000 (.pshr (fieldD w) (fieldA w) (fieldN w))
  | 0x08 => fitRow w 0xFFC3FF00 0x20000000 (.pbtst (fieldA w) (fieldN w))
  | 0x09 => fitRow w 0xFC030000 0x24000000 (.pext (fieldD w) (fieldA w) (fieldN w) (fieldL w))
  | 0x0A => fitRow w 0xFC3F0000 0x28000000 (.pldi (fieldD w) (fieldImm w))
  | 0x10 => decodeFcfg w
  | 0x11 => fitRow w 0xFC3FFFFF 0x44000000 (.frel (fieldD w))
  | 0x12 => fitRow w 0xFC3F0000 0x48000000 (.tlog (fieldD w) (fieldImm w))
  | 0x13 => fitRow w 0xFC3F0000 0x4C000000 (.talog (fieldD w) (fieldImm w))
  | 0x18 => fitRow w 0xFC003FFF 0x60000000 (.elem (fieldD w) (fieldA w) (fieldB w))
  | 0x19 => fitRow w 0xFC03FFFF 0x64000000 (.eval (fieldD w) (fieldA w))
  | 0x20 => fitRow w 0xFC003FFF 0x80000000 (.eadd (fieldD w) (fieldA w) (fieldB w))
  | 0x21 => fitRow w 0xFC003FFF 0x84000000 (.esub (fieldD w) (fieldA w) (fieldB w))
  | 0x22 => fitRow w 0xFC03FFFF 0x88000000 (.eneg (fieldD w) (fieldA w))
  | 0x23 => fitRow w 0xFC003FFF 0x8C000000 (.emul (fieldD w) (fieldA w) (fieldB w))
  | 0x24 => fitRow w 0xFC003FFF 0x90000000 (.ediv (fieldD w) (fieldA w) (fieldB w))
  | 0x25 => fitRow w 0xFC03FFFF 0x94000000 (.einv (fieldD w) (fieldA w))
  | 0x26 => fitRow w 0xFFC03FFF 0x98000000 (.eeq (fieldA w) (fieldB w))
  | _ => .error .reservedOpcode

/-- The command the decoder reads from a word given as a number, none where it refuses. -/
def decodeTableWord (nbits w : Nat) : Option Instr :=
  (decode (BitVec.ofNat 32 (w % 2 ^ nbits))).toOption

/-! ### The encoder: the formats of R92 to R103, written high field first as the rules write them -/

/-- The 4 bits of a register or slot index. -/
def indexBits (i : Fin 16) : BitVec 4 := BitVec.ofFin i

/-- Format N (R92). -/
def formatN (op : BitVec 6) : Word := op ++ 0#26
/-- Formats R3 and EL (R93, R103): three indices at 25:22, 21:18 and 17:14. -/
def formatR3 (op : BitVec 6) (d a b : Fin 16) : Word := op ++ indexBits d ++ indexBits a ++ indexBits b ++ 0#14
/-- Format R2 (R94). -/
def formatR2 (op : BitVec 6) (d a : Fin 16) : Word := op ++ indexBits d ++ indexBits a ++ 0#18
/-- Format S of PDEG (R95). -/
def formatS1 (op : BitVec 6) (a : Fin 16) : Word := op ++ 0#4 ++ indexBits a ++ 0#18
/-- Format S of EEQ (R95). -/
def formatS2 (op : BitVec 6) (a b : Fin 16) : Word := op ++ 0#4 ++ indexBits a ++ indexBits b ++ 0#14
/-- Format R4 (R96). -/
def formatR4 (op : BitVec 6) (d a b r : Fin 16) : Word :=
  op ++ indexBits d ++ indexBits a ++ indexBits b ++ indexBits r ++ 0#10
/-- Format RI8 of PSHL and PSHR (R97). -/
def formatRI8 (op : BitVec 6) (d a : Fin 16) (n : BitVec 8) : Word := op ++ indexBits d ++ indexBits a ++ 0#10 ++ n
/-- Format RI8 of PBTST, without D (R97). -/
def formatSI8 (op : BitVec 6) (a : Fin 16) (n : BitVec 8) : Word := op ++ 0#4 ++ indexBits a ++ 0#10 ++ n
/-- Format RX (R98). -/
def formatRX (op : BitVec 6) (d a : Fin 16) (l n : BitVec 8) : Word :=
  op ++ indexBits d ++ indexBits a ++ 0#2 ++ l ++ n
/-- Formats I16 and FI16 (R99, R102). -/
def formatI16 (op : BitVec 6) (d : Fin 16) (imm : BitVec 16) : Word := op ++ indexBits d ++ 0#6 ++ imm
/-- Format FC (R100): OP, K, MF, E, GX, 0, PM, PG, 0. -/
def formatFC (op : BitVec 6) (k : Fin 16) (m : BitVec 7) (e gx : BitVec 1) (pm pg : Fin 16) : Word :=
  op ++ indexBits k ++ m ++ e ++ gx ++ 0#1 ++ indexBits pm ++ indexBits pg ++ 0#4
/-- Format F1 (R101). -/
def formatF1 (op : BitVec 6) (k : Fin 16) : Word := op ++ indexBits k ++ 0#22

/-- The command word of a command (R92 to R103, R106). -/
def encode : Instr → Word
  | .nop => formatN 0x00
  | .pxor d a b => formatR3 0x01 d a b
  | .clmul d a b => formatR3 0x02 d a b
  | .pdeg a => formatS1 0x03 a
  | .pdivmod q r a b => formatR4 0x04 q a b r
  | .pmod d a b => formatR3 0x05 d a b
  | .pshl d a n => formatRI8 0x06 d a n
  | .pshr d a n => formatRI8 0x07 d a n
  | .pbtst a n => formatSI8 0x08 a n
  | .pext d a lo len => formatRX 0x09 d a len lo
  | .pldi d imm => formatI16 0x0A d imm
  | .fcfgEuclid k m pm => formatFC 0x10 k m 0 0 pm 0
  | .fcfgTable k m pm => formatFC 0x10 k m 1 0 pm 0
  | .fcfgTableGen k m pm pg => formatFC 0x10 k m 1 1 pm pg
  | .frel k => formatF1 0x11 k
  | .tlog k v => formatI16 0x12 k v
  | .talog k i => formatI16 0x13 k i
  | .elem d a k => formatR3 0x18 d a k
  | .eval d a => formatR2 0x19 d a
  | .eadd d a b => formatR3 0x20 d a b
  | .esub d a b => formatR3 0x21 d a b
  | .eneg d a => formatR2 0x22 d a
  | .emul d a b => formatR3 0x23 d a b
  | .ediv d a b => formatR3 0x24 d a b
  | .einv d a => formatR2 0x25 d a
  | .eeq a b => formatS2 0x26 a b

/-- The opcode map's rows (R106): mnemonic, match, mask. -/
def opcodeMap : List (String × Word × Word) :=
  [("NOP", 0x00000000, 0xFFFFFFFF), ("PXOR", 0x04000000, 0xFC003FFF), ("CLMUL", 0x08000000, 0xFC003FFF),
   ("PDEG", 0x0C000000, 0xFFC3FFFF), ("PDIVMOD", 0x10000000, 0xFC0003FF), ("PMOD", 0x14000000, 0xFC003FFF),
   ("PSHL", 0x18000000, 0xFC03FF00), ("PSHR", 0x1C000000, 0xFC03FF00), ("PBTST", 0x20000000, 0xFFC3FF00),
   ("PEXT", 0x24000000, 0xFC030000), ("PLDI", 0x28000000, 0xFC3F0000), ("FCFG", 0x40000000, 0xFC0070FF),
   ("FCFG", 0x40004000, 0xFC0070FF), ("FCFG", 0x40006000, 0xFC00700F), ("FREL", 0x44000000, 0xFC3FFFFF),
   ("TLOG", 0x48000000, 0xFC3F0000), ("TALOG", 0x4C000000, 0xFC3F0000), ("ELEM", 0x60000000, 0xFC003FFF),
   ("EVAL", 0x64000000, 0xFC03FFFF), ("EADD", 0x80000000, 0xFC003FFF), ("ESUB", 0x84000000, 0xFC003FFF),
   ("ENEG", 0x88000000, 0xFC03FFFF), ("EMUL", 0x8C000000, 0xFC003FFF), ("EDIV", 0x90000000, 0xFC003FFF),
   ("EINV", 0x94000000, 0xFC03FFFF), ("EEQ", 0x98000000, 0xFFC03FFF)]

/-- A word matches a row when w & mask = match (R106). -/
def matchesRow (w : Word) (r : String × Word × Word) : Bool := decide (w &&& r.2.2 = r.2.1)

end Sys2Proof
end

