-- ==== Sys2Proof/Machine/BitPoly.lean ====
section
/-! DEFINITION. The pure functions on unbounded bit vectors that the commands call: degree, carry-less product, long
division, and the validation predicates of field construction (R12, R13, R120 to R126, R160 to R162). -/

namespace Sys2Proof.Machine

/-- deg(p): the index of the highest set bit, −1 for the zero polynomial (R12). -/
def deg (p : Poly) : Int := if p = 0 then -1 else (p.log2 : Int)

/-- deg(p) + 1 as a count of bits; 0 for the zero polynomial. It bounds the loops below. -/
def width (p : Poly) : Nat := (deg p + 1).toNat

/-- clmul(a, b): the exact carry-less product, by the rule's shift-and-XOR loop over i = 0..deg(b) (R120). -/
def clmul (a b : Poly) : Poly :=
  (List.range (width b)).foldl (fun acc i => if b.testBit i then acc ^^^ (a <<< i) else acc) 0

/-- The division loop of R121 with the divisor b: while deg(r) ≥ deg(b), cancel r's top bit. The count is the bound
deg(a) + 1 that R346 gives the loop. -/
def divLoop (b : Poly) : Nat → Poly → Poly → Poly × Poly
  | 0, q, r => (q, r)
  | n + 1, q, r =>
    if deg b ≤ deg r then
      let s := (deg r - deg b).toNat
      divLoop b n (q ^^^ (1 <<< s)) (r ^^^ (b <<< s))
    else (q, r)

/-- pdivmod(a, b) for b ≠ 0: quotient and remainder (R121). The rule defines no result for b = 0 and every command
checks for it first; the model leaves that value free (log entry 9). -/
def pdivmod (a b : Poly) : Poly × Poly :=
  if b = 0 then Config.freeDivision a else divLoop b (width a) 0 a

/-- rmod(a, b): the remainder (R122). -/
def rmod (a b : Poly) : Poly := (pdivmod a b).2

/-- N(M) = 2^M − 1: the order of the multiplicative group (R8). -/
def groupOrder (m : Nat) : Nat := 2 ^ m - 1

/-! ### IRRED (R160) -/

/-- IRRED(f, M), the predicate: no polynomial of degree 1..⌊M/2⌋ divides f (R160). -/
def IRRED (f : Poly) (m : Nat) : Prop :=
  ∀ h : Poly, 1 ≤ deg h → deg h ≤ ((m / 2 : Nat) : Int) → rmod f h ≠ 0

/-- Euclid's algorithm; the count bounds the number of divisions. -/
def gcdLoop : Nat → Poly → Poly → Poly
  | 0, a, _ => a
  | n + 1, a, b => if b = 0 then a else gcdLoop n b (rmod a b)

/-- The greatest common divisor of two polynomials. -/
def pgcd (a b : Poly) : Poly := gcdLoop (width b + 1) a b

/-- Rounds of the distinct-degree test: square t modulo f, and require gcd(f, t ⊕ x) = 1. Before round i + 1 the
argument t is x^(2^i) mod f. -/
def irredLoop (f : Poly) : Nat → Poly → Bool
  | 0, _ => true
  | n + 1, t =>
    let t' := rmod (clmul t t) f
    if pgcd f (t' ^^^ 0b10) = 1 then irredLoop f n t' else false

/-- The decision of IRRED(f, M) for deg(f) = M ≥ 2, by the distinct-degree GCD test of ⌊M/2⌋ rounds. R160 fixes the
predicate and leaves the algorithm free ("any algorithm that computes it"; log entry 8). -/
def irreducible (f : Poly) (m : Nat) : Bool := irredLoop f (m / 2) 0b10

/-! ### PRIMITIVE and the powers of a generator (R161, R162) -/

/-- pow(g, i) modulo f (R161). -/
def genPow (g f : Poly) : Nat → Poly
  | 0 => 1
  | i + 1 => rmod (clmul (genPow g f i) g) f

/-- PRIMITIVE(g, f, M), the predicate: g has multiplicative order N modulo f (R161). -/
def PRIMITIVE (g f : Poly) (m : Nat) : Prop :=
  g ≠ 0 ∧ deg g < (m : Int) ∧ ∀ i : Nat, 1 ≤ i → i ≤ groupOrder m - 1 → genPow g f i ≠ 1

/-- The next n successive powers of g modulo f, the first of them t: the recurrence of R162. -/
def powersFrom (g f : Poly) : Nat → Poly → List Poly
  | 0, _ => []
  | n + 1, t => t :: powersFrom g f n (rmod (clmul t g) f)

/-- pow(g, 0), …, pow(g, N − 1) (R162). -/
def powers (g f : Poly) (m : Nat) : List Poly := powersFrom g f (groupOrder m) 1

/-- The decision of PRIMITIVE(g, f, M): g is not 0, has degree below M, and none of pow(g, 1..N−1) is 1 (R161). -/
def primitive (g f : Poly) (m : Nat) : Bool :=
  decide (g ≠ 0) && decide (deg g < (m : Int)) && ((powers g f m).drop 1).all (fun t => decide (t ≠ 1))

end Sys2Proof.Machine
end

