-- ==== Sys2Proof/Machine/State.lean ====
section
/-! DEFINITION. The state of the GF2PM core as plain data (R20 to R39), its reset value (R38), the error codes'
names (R300) and the reasons a step can stop. -/

namespace Sys2Proof.Machine

/-- The active-engine tag of a field: 0 = Euclidean, 1 = Table (R24). -/
inductive Engine where
  | euclidean
  | table
  deriving DecidableEq, Repr

/-- The errors a command can end with (R300); NONE, code 0x00, is the absence of an error. -/
inductive Err where
  | ceDegreeRange
  | ceModulusDegree
  | ceNotIrreducible
  | ceNotPrimitive
  | ceTableDegree
  | invalidElement
  | fieldMismatch
  | divisionByZero
  | internalInvariant
  | illegalCmd
  | uninitElement
  | slotInvalid
  | slotInUse
  | noTable
  | badIndex
  | widthOverflow
  deriving DecidableEq, Repr

/-- An element register E[i] (R22). -/
structure ElemReg where
  /-- WR: the register holds an element. -/
  wr  : Bool
  /-- FS: the slot whose Field owns the element. -/
  fs  : SlotIx
  /-- VAL: the element's bit pattern. -/
  val : ElemWord
  deriving DecidableEq, Repr

/-- A field slot FS[k] (R24). -/
structure FieldSlot where
  /-- VALID: the slot holds a constructed Field. -/
  valid : Bool
  /-- M: the degree. -/
  m     : BitVec 7
  /-- MOD: the modulus polynomial. -/
  mod   : ModWord
  /-- ENG: the active-engine tag. -/
  eng   : Engine
  /-- GENX: an explicit generator was given at construction. -/
  genx  : Bool
  /-- GEN: the table-engine generator. -/
  gen   : BitVec 16
  deriving DecidableEq, Repr

/-- A table memory (R25): the entries a construction has defined, by strictly rising index. An index that is not
listed is unspecified: no value is kept for it. -/
abbrev TableMem := List (Nat × Entry)

/-- The STATUS register by its fields (R28). Its reserved bits read 0 and nothing writes them, so they are not state. -/
structure Status where
  busy    : Bool
  err     : Bool
  fatal   : Bool
  ovr     : Bool
  errcode : BitVec 8
  errop   : BitVec 6
  deriving DecidableEq, Repr

/-- What happens next at the block, in the single order of R72: a host access in its place of arrival, an assertion of
the reset input (R340), or the place where the core agent takes its turn (R20, R345). -/
inductive PortEvent where
  /-- A host read of so many bytes at an offset. -/
  | read (off : Offset) (bytes : Nat)
  /-- A host write of so many bytes at an offset. -/
  | write (off : Offset) (bytes : Nat) (v : Word)
  /-- The reset input is asserted; power-on included. -/
  | resetInput
  /-- The core's turn: it completes the command in flight, if there is one. -/
  | coreTurn
  deriving DecidableEq, Repr

/-- The state of the block: the tuple (P, E, FS, LOG, ALOG, RESULT, STATUS, ERRCMD, CMDLATCH) of R20, and three
fields of the MODEL's own (schedule, readData, draws). -/
structure State where
  /-- P: the polynomial registers (R21). -/
  p        : Vector PolyWord Config.NP
  /-- E: the element registers (R22). -/
  e        : Vector ElemReg Config.NE
  /-- FS: the field slots (R24). -/
  fs       : Vector FieldSlot Config.NF
  /-- ALOG_k: the antilog table memory of each slot (R25). -/
  alog     : Vector TableMem Config.NF
  /-- LOG_k: the log table memory of each slot (R25). -/
  log      : Vector TableMem Config.NF
  /-- RESULT (R29). -/
  result   : Word
  /-- STATUS (R28). -/
  status   : Status
  /-- ERRCMD (R30). -/
  errcmd   : Word
  /-- CMDLATCH: the command word in flight (R37). -/
  cmdLatch : Word
  /-- MODEL'S OWN: what is still to happen at the block, next first (an input of the environment). -/
  schedule : List PortEvent
  /-- MODEL'S OWN: the data the port returned to the host's last read, none before the first. -/
  readData : Option Word
  /-- MODEL'S OWN: the counter of free draws. -/
  draws    : Nat
  deriving DecidableEq, Repr

/-- Why a step stops with a fault. -/
inductive Fault where
  /-- BUS_ERROR: raised by a host access that is not an aligned 32-bit access (R65: "the host step is a fault named
  BUS_ERROR, which is the host's fault and not the core's"). SAFE: the access changes no state, and the model stops where
  the block would only answer the host with an error. -/
  | busError
  deriving DecidableEq, Repr

/-- Why a step is refused. -/
inductive Refusal where
  /-- Raised by an arm of exec whose instruction has no meaning yet; no arm is in that case. SAFE: the model stops. -/
  | notModelled (mnemonic : String)
  deriving DecidableEq, Repr

/-- An element register at reset: unwritten (R38). FS and VAL are unspecified there and unobservable; the model names
zero (DESIGN CHOICE, log entry 4). -/
def ElemReg.reset : ElemReg := ⟨false, 0, 0⟩

/-- A field slot at reset: no Field (R38). The other fields are unspecified there and unobservable; the model names
zero (DESIGN CHOICE, log entry 4). -/
def FieldSlot.reset : FieldSlot := ⟨false, 0, 0, .euclidean, false, 0⟩

/-- STATUS at reset: 0x00000000 (R38). -/
def Status.reset : Status := ⟨false, false, false, false, 0, 0⟩

/-- The machine right after reset (R38, R341): P, RESULT, STATUS and ERRCMD are 0, no element, no field, no defined
table entry. CMDLATCH is unspecified and unobservable; the model names zero (DESIGN CHOICE, log entry 4). Nothing is
scheduled, nothing has been read, and the counter of draws is 0 (DESIGN CHOICE, log entries 1, 2 and 3). -/
def State.reset : State where
  p        := Vector.replicate Config.NP 0
  e        := Vector.replicate Config.NE ElemReg.reset
  fs       := Vector.replicate Config.NF FieldSlot.reset
  alog     := Vector.replicate Config.NF []
  log      := Vector.replicate Config.NF []
  result   := 0
  status   := Status.reset
  errcmd   := 0
  cmdLatch := 0
  schedule := []
  readData := none
  draws    := 0

end Sys2Proof.Machine
end

