-- ==== Sys2Proof/Machine/Flags.lean ====
section
/-! DEFINITION. The core has no condition flags (R35); its flags are the fields of STATUS. Here: the numeric error
codes (R300), STATUS as the host reads it (R28), and what sets and clears the error report (R305, R308, R309). -/

namespace Sys2Proof.Machine

/-- The code of an error in STATUS.ERRCODE (R300). -/
def Err.code : Err → BitVec 8
  | .ceDegreeRange => 0x01
  | .ceModulusDegree => 0x02
  | .ceNotIrreducible => 0x03
  | .ceNotPrimitive => 0x04
  | .ceTableDegree => 0x05
  | .invalidElement => 0x06
  | .fieldMismatch => 0x07
  | .divisionByZero => 0x08
  | .internalInvariant => 0x09
  | .illegalCmd => 0x10
  | .uninitElement => 0x11
  | .slotInvalid => 0x12
  | .slotInUse => 0x13
  | .noTable => 0x14
  | .badIndex => 0x15
  | .widthOverflow => 0x16

/-- STATUS as a 32-bit word: BUSY 0, ERR 1, FATAL 2, OVR 3, ERRCODE 15:8, ERROP 21:16, reserved bits 0 (R28). -/
def Status.word (st : Status) : Word :=
  0#10 ++ st.errop ++ st.errcode ++ 0#4 ++ BitVec.ofBool st.ovr ++ BitVec.ofBool st.fatal ++ BitVec.ofBool st.err
    ++ BitVec.ofBool st.busy

/-- STATUS after error entry with code c of the command word w (R305). -/
def Status.report (st : Status) (c : Err) (w : Word) : Status :=
  { st with
    busy := false
    err := true
    errcode := c.code
    errop := w.extractLsb' 26 6
    fatal := st.fatal || decide (c = .internalInvariant) }

/-- STATUS after ERRCLR: ERR, ERRCODE, ERROP and OVR cleared, FATAL kept (R31, R308). -/
def Status.errclr (st : Status) : Status :=
  { st with err := false, errcode := 0, errop := 0, ovr := false }

/-- The error state: every command written to CMD is dropped (R306). -/
def Status.inErrorState (st : Status) : Bool := st.err || st.fatal

end Sys2Proof.Machine
end

