-- ==== Sys2Proof/Machine/Ops.lean ====
section
/-! DEFINITION. The named operations over registers, slots and table memories; error entry (the core's only exception:
R305) and the return from the error state beside it (R308); and the reset of the block (R340). -/

namespace Sys2Proof.Machine

/-! ### Table memories (R25, R60, R162) -/

/-- The canonical form of a table memory: its indices rise strictly and lie in 0..65535. -/
def Memory.wf (t : TableMem) : Bool :=
  decide (t.Pairwise (fun c d => c.1 < d.1)) && t.all (fun c => decide (c.1 < 65536))

/-- The entry at an index, none where no construction has defined it (R25). -/
def TableMem.lookup (t : TableMem) (i : Nat) : Option Entry := (t.find? (fun c => c.1 == i)).map (·.2)

/-- The powers of the generator as table entries with their exponents, the first exponent being i. -/
def enumFrom (i : Nat) : List Poly → TableMem
  | [] => []
  | t :: ts => (i, BitVec.ofNat 16 t) :: enumFrom (i + 1) ts

/-- Sort entries by the low b bits of their indices, the highest of these bits first. -/
def sortByIndex : Nat → TableMem → TableMem
  | 0, t => t
  | b + 1, t =>
    sortByIndex b (t.filter (fun c => !c.1.testBit b)) ++ sortByIndex b (t.filter (fun c => c.1.testBit b))

/-- The contents of ALOG_k for (f, M, g): ALOG[i] = pow(g, i) for i = 0..N−1 (R162). -/
def buildAlog (g f : Poly) (m : Nat) : TableMem := enumFrom 0 (powers g f m)

/-- The contents of LOG_k for (f, M, g): LOG[pow(g, i)] = i for i = 0..N−1, ordered by index (R162). -/
def buildLog (g f : Poly) (m : Nat) : TableMem :=
  sortByIndex m ((buildAlog g f m).map (fun c => (c.2.toNat, BitVec.ofNat 16 c.1)))

/-! ### Registers -/

/-- Read P[i] (R21). -/
def State.readP (s : State) (i : PReg) : PolyWord := s.p[i]
/-- P[i] <- v (R21). -/
def State.writeP (s : State) (i : PReg) (v : PolyWord) : State := { s with p := s.p.set i v }
/-- Read E[i] (R22). -/
def State.readE (s : State) (i : EReg) : ElemReg := s.e[i]
/-- E[i] <- v (R22). -/
def State.writeE (s : State) (i : EReg) (v : ElemReg) : State := { s with e := s.e.set i v }
/-- RESULT <- v (R29). -/
def State.writeResult (s : State) (v : Word) : State := { s with result := v }

/-! ### Field slots and their tables -/

/-- FS[k]. An index k ≥ NF names no slot and reads as one that holds no field (R36, R105). -/
def State.slot (s : State) (k : SlotIx) : FieldSlot :=
  if h : k.val < Config.NF then s.fs[k.val] else FieldSlot.reset
/-- FS[k] <- v; an index k ≥ NF names no slot. -/
def State.writeSlot (s : State) (k : SlotIx) (v : FieldSlot) : State :=
  if h : k.val < Config.NF then { s with fs := s.fs.set k.val v } else s
/-- The table memory ALOG_k. -/
def State.alogOf (s : State) (k : SlotIx) : TableMem := if h : k.val < Config.NF then s.alog[k.val] else []
/-- The table memory LOG_k. -/
def State.logOf (s : State) (k : SlotIx) : TableMem := if h : k.val < Config.NF then s.log[k.val] else []
/-- Give ALOG_k and LOG_k new contents; an index k ≥ NF names no slot. -/
def State.writeTables (s : State) (k : SlotIx) (alog log : TableMem) : State :=
  if h : k.val < Config.NF then { s with alog := s.alog.set k.val alog, log := s.log.set k.val log } else s

/-- Read ALOG_k[i]. An entry no construction has defined is unspecified: a free value (R25, log entry 6). -/
def State.readAlog (s : State) (k : SlotIx) (i : Nat) : Entry :=
  ((s.alogOf k).lookup i).getD (Config.freeAlogEntry k.val s.draws i)
/-- Read LOG_k[v]. An entry no construction has defined is unspecified: a free value (R25, log entry 6). -/
def State.readLog (s : State) (k : SlotIx) (v : Nat) : Entry :=
  ((s.logOf k).lookup v).getD (Config.freeLogEntry k.val s.draws v)

/-- Take the next free draw: advance the counter the free values are applied to. -/
def State.draw (s : State) : State := { s with draws := s.draws + 1 }

/-- The unspecified contents of a slot that FREL has freed: VALID = 0, every other field a free value (R171, log
entry 5). -/
def freedSlot (n : Nat) : FieldSlot where
  valid := false
  m := Config.freeM n
  mod := Config.freeMod n
  eng := if Config.freeEng n then .table else .euclidean
  genx := Config.freeGenx n
  gen := Config.freeGen n

/-- WR of every element register owned by slot k is cleared (R171). -/
def State.clearOwned (s : State) (k : SlotIx) : State :=
  { s with e := Vector.ofFn (fun i => if s.e[i].wr ∧ s.e[i].fs = k then { s.e[i] with wr := false } else s.e[i]) }

/-! ### Issue, error entry, completion -/

/-- The word the completion step decodes: CMDLATCH (R345). -/
def State.fetchWord (s : State) : Word := s.cmdLatch

/-- Issue of a command word: CMDLATCH <- v, BUSY <- 1 (R66, R345). -/
def State.issue (s : State) (v : Word) : State :=
  { s with cmdLatch := v, status := { s.status with busy := true } }

/-- STATUS.BUSY <- 0 (R345). -/
def State.retire (s : State) : State := { s with status := { s.status with busy := false } }

/-- ERROR ENTRY with error c (R305): ERR, ERRCODE, ERROP and ERRCMD record the error and the command word in flight,
INTERNAL_INVARIANT also sets FATAL, BUSY falls, and nothing else changes. There is no handler address and no saved
mode. -/
def State.errorEntry (s : State) (c : Err) : State :=
  { s with status := s.status.report c s.cmdLatch, errcmd := s.cmdLatch }

/-- LEAVING THE ERROR STATE (R31, R308): ERRCLR with BUSY = 0 clears ERR, ERRCODE, ERROP, OVR and ERRCMD, keeps FATAL
and restores nothing else; while BUSY = 1 it is ignored. -/
def State.errclr (s : State) : State :=
  if s.status.busy then s else { s with status := s.status.errclr, errcmd := 0 }

/-- STATUS.OVR <- 1 (R309). -/
def State.overrun (s : State) : State := { s with status := { s.status with ovr := true } }

/-- The block returns to its reset state (R38, R340): a command in flight is abandoned. What the environment still has
to do, what the host has read and the counter of draws are no state of the block and stay. -/
def State.resetBlock (s : State) : State :=
  { State.reset with schedule := s.schedule, readData := s.readData, draws := s.draws }

/-- The end of the completion step (R345): on success the command's writes and BUSY <- 0; on an error, error entry
from the state before the command, so every write is discarded (R305). -/
def complete (s : State) (r : Except Err State) : Host.Outcome State Fault Refusal :=
  match r with
  | .ok t => .next t.retire
  | .error c => .next (s.errorEntry c)

end Sys2Proof.Machine
end

