-- ==== Sys2Proof/Machine/Operands.lean ====
section
/-! DEFINITION. The operand checks the commands share: a slot index that names a slot (R107), a slot that holds a
field, an element register that is written (R253, R302), and the field-mismatch check (R251). -/

namespace Sys2Proof.Machine

/-- The contents of P[a] as an unbounded bit vector (R10, R13). -/
def State.poly (s : State) (a : PReg) : Poly := (s.readP a).toNat

/-- A slot index below NF, else ILLEGAL_CMD: the check of R107 item 5 made again by the meanings, for a command that
was not decoded. -/
def legalSlot (k : SlotIx) : Except Err Unit :=
  if k.val < Config.NF then .ok () else .error .illegalCmd

/-- FS[k] when it holds a field, else SLOT_INVALID (R260, R171, R210, R211). -/
def State.validSlot (s : State) (k : SlotIx) : Except Err FieldSlot := do
  legalSlot k
  if (s.slot k).valid then .ok (s.slot k) else .error .slotInvalid

/-- E[a] when it holds an element, else UNINIT_ELEMENT (R22, R253 step 1). -/
def State.element (s : State) (a : EReg) : Except Err ElemReg :=
  if (s.readE a).wr then .ok (s.readE a) else .error .uninitElement

/-- Two slots hold the same field: equal M and equal MOD, whatever their engine and generator (R27). -/
def State.sameField (s : State) (j k : SlotIx) : Bool :=
  decide ((s.slot j).m = (s.slot k).m ∧ (s.slot j).mod = (s.slot k).mod)

/-- The operands of a two-operand element command: UNINIT_ELEMENT of a, then of b, then FIELD_MISMATCH (R251, R253). -/
def State.elementPair (s : State) (a b : EReg) : Except Err (ElemReg × ElemReg) := do
  let x ← s.element a
  let y ← s.element b
  if s.sameField x.fs y.fs then .ok (x, y) else .error .fieldMismatch

/-- The element of slot k with value v; a result is owned by the slot of the first operand (R252, R260). -/
def mkElem (k : SlotIx) (v : Poly) : ElemReg := ⟨true, k, BitVec.ofNat 127 v⟩

end Sys2Proof.Machine
end

