-- ==== Sys2Proof/Machine/BitPolyCmd.lean ====
section
/-! DEFINITION. The meanings of the bit-polynomial commands NOP, PXOR, CLMUL, PDEG, PDIVMOD, PMOD, PSHL, PSHR, PBTST,
PEXT and PLDI (R140 to R150). Every source is read before a destination is written (R14). -/

namespace Sys2Proof.Machine

/-- A polynomial as the contents of a P register: its low 256 bits (R9, R21). -/
def toP (v : Poly) : PolyWord := BitVec.ofNat 256 v

/-- The host-visible degree: deg(p) as a 32-bit two's-complement value (R126). -/
def degWord (p : Poly) : Word := BitVec.ofInt 32 (deg p)

/-- NOP: no operation (R140). -/
def execNop (s : State) : Host.Outcome State Fault Refusal := complete s (.ok s)

/-- PXOR: P[d] <- P[a] ⊕ P[b] (R141). -/
def execPxor (d a b : PReg) (s : State) : Host.Outcome State Fault Refusal :=
  complete s (.ok (s.writeP d (s.readP a ^^^ s.readP b)))

/-- CLMUL: P[d] <- clmul(P[a], P[b]), WIDTH_OVERFLOW when the exact product does not fit (R142). -/
def execClmul (d a b : PReg) (s : State) : Host.Outcome State Fault Refusal :=
  complete s <|
    if s.poly a ≠ 0 ∧ s.poly b ≠ 0 ∧ deg (s.poly a) + deg (s.poly b) > 255 then .error .widthOverflow
    else .ok (s.writeP d (toP (clmul (s.poly a) (s.poly b))))

/-- PDEG: RESULT <- deg(P[a]) (R143). -/
def execPdeg (a : PReg) (s : State) : Host.Outcome State Fault Refusal :=
  complete s (.ok (s.writeResult (degWord (s.poly a))))

/-- PDIVMOD: the quotient to P[q], then the remainder to P[r] (R144). -/
def execPdivmod (q r a b : PReg) (s : State) : Host.Outcome State Fault Refusal :=
  complete s <|
    if s.poly b = 0 then .error .divisionByZero
    else
      let qr := pdivmod (s.poly a) (s.poly b)
      .ok ((s.writeP q (toP qr.1)).writeP r (toP qr.2))

/-- PMOD: P[d] <- rmod(P[a], P[b]) (R145). -/
def execPmod (d a b : PReg) (s : State) : Host.Outcome State Fault Refusal :=
  complete s <|
    if s.poly b = 0 then .error .divisionByZero
    else .ok (s.writeP d (toP (rmod (s.poly a) (s.poly b))))

/-- PSHL: P[d] <- (P[a] << n)[255:0] (R146). -/
def execPshl (d a : PReg) (n : BitVec 8) (s : State) : Host.Outcome State Fault Refusal :=
  complete s (.ok (s.writeP d (toP (s.poly a <<< n.toNat))))

/-- PSHR: P[d] <- P[a] >> n (R147). -/
def execPshr (d a : PReg) (n : BitVec 8) (s : State) : Host.Outcome State Fault Refusal :=
  complete s (.ok (s.writeP d (toP (s.poly a >>> n.toNat))))

/-- PBTST: RESULT <- bit n of P[a] (R148). -/
def execPbtst (a : PReg) (n : BitVec 8) (s : State) : Host.Outcome State Fault Refusal :=
  complete s (.ok (s.writeResult ((BitVec.ofBool ((s.poly a).testBit n.toNat)).setWidth 32)))

/-- PEXT: P[d] <- (P[a] >> lo) AND ((1 << len) − 1) (R149). -/
def execPext (d a : PReg) (lo len : BitVec 8) (s : State) : Host.Outcome State Fault Refusal :=
  complete s (.ok (s.writeP d (toP ((s.poly a >>> lo.toNat) &&& ((1 <<< len.toNat) - 1)))))

/-- PLDI: P[d] <- zext_256(imm16) (R150). -/
def execPldi (d : PReg) (imm : BitVec 16) (s : State) : Host.Outcome State Fault Refusal :=
  complete s (.ok (s.writeP d (imm.setWidth 256)))

end Sys2Proof.Machine
end

