-- ==== Sys2Proof/Machine/Engine.lean ====
section
/-! DEFINITION. The two engines and the dispatcher: the lookup-table engine (R200 to R204), the Extended-Euclidean
engine (R230 to R235), and the choice between them by the owning slot's tag (R250). -/

namespace Sys2Proof.Machine

/-- N = 2^M − 1 of slot k (R8). -/
def State.orderOf (s : State) (k : SlotIx) : Nat := groupOrder (s.slot k).m.toNat

/-- The modulus of slot k as a polynomial. -/
def State.modulus (s : State) (k : SlotIx) : Poly := (s.slot k).mod.toNat

/-! ### Table engine -/

/-- TBL_MUL(k, a, b) (R200). -/
def tblMul (s : State) (k : SlotIx) (a b : Poly) : Poly :=
  if a = 0 ∨ b = 0 then 0
  else (s.readAlog k (((s.readLog k a).toNat + (s.readLog k b).toNat) % s.orderOf k)).toNat

/-- TBL_DIV(k, a, b), called only with b ≠ 0 (R201). The exponent is exact integer arithmetic (R203). -/
def tblDiv (s : State) (k : SlotIx) (a b : Poly) : Poly :=
  if a = 0 then 0
  else
    let n : Int := s.orderOf k
    (s.readAlog k ((((s.readLog k a).toNat : Int) - ((s.readLog k b).toNat : Int) + n) % n).toNat).toNat

/-- TBL_INV(k, a), called only with a ≠ 0 (R202). -/
def tblInv (s : State) (k : SlotIx) (a : Poly) : Poly :=
  let n : Int := s.orderOf k
  (s.readAlog k ((n - ((s.readLog k a).toNat : Int)) % n).toNat).toNat

/-! ### Euclidean engine, as functions of the modulus f -/

/-- EEA_MUL with modulus f (R230). -/
def eeaMul (f a b : Poly) : Poly := rmod (clmul a b) f

/-- The loop of R231 on (r_prev, s_prev) and (r_cur, s_cur), with the modulus f of the final reduction. deg(r_cur)
falls at every round, so the count deg(a) + 1 with which eeaInv starts it is never used up. -/
def eeaLoop (f : Poly) : Nat → Poly → Poly → Poly → Poly → Except Err Poly
  | 0, _, _, _, sCur => .ok (rmod sCur f)
  | n + 1, rPrev, sPrev, rCur, sCur =>
    if 0 < deg rCur then
      let q := (pdivmod rPrev rCur).1
      let rNext := (pdivmod rPrev rCur).2
      if rNext = 0 then .error .internalInvariant
      else eeaLoop f n rCur sCur rNext (sPrev ^^^ clmul q sCur)
    else .ok (rmod sCur f)

/-- EEA_INV with modulus f, called only with a ≠ 0 (R231). -/
def eeaInv (f a : Poly) : Except Err Poly := eeaLoop f (width a) f 0 a 1

/-- EEA_DIV with modulus f, called only with b ≠ 0 (R232). -/
def eeaDiv (f a b : Poly) : Except Err Poly := do
  let i ← eeaInv f b
  .ok (eeaMul f a i)

/-! ### Dispatch by the owning slot's engine (R250) -/

/-- MUL_k (R250, R265). -/
def fieldMul (s : State) (k : SlotIx) (a b : Poly) : Poly :=
  match (s.slot k).eng with
  | .table => tblMul s k a b
  | .euclidean => eeaMul (s.modulus k) a b

/-- DIV_k, for b ≠ 0 (R250, R266). -/
def fieldDiv (s : State) (k : SlotIx) (a b : Poly) : Except Err Poly :=
  match (s.slot k).eng with
  | .table => .ok (tblDiv s k a b)
  | .euclidean => eeaDiv (s.modulus k) a b

/-- INV_k, for a ≠ 0 (R250, R267). -/
def fieldInv (s : State) (k : SlotIx) (a : Poly) : Except Err Poly :=
  match (s.slot k).eng with
  | .table => .ok (tblInv s k a)
  | .euclidean => eeaInv (s.modulus k) a

end Sys2Proof.Machine
end

