-- ==== Sys2Proof/Machine/Element.lean ====
section
/-! DEFINITION. The meanings of the element commands ELEM, EVAL, EADD, ESUB, ENEG, EMUL, EDIV, EINV and EEQ
(R250 to R268). -/

namespace Sys2Proof.Machine

/-- ELEM: construct an element of slot k from P[a] (R260). -/
def execElem (d : EReg) (a : PReg) (k : SlotIx) (s : State) : Host.Outcome State Fault Refusal :=
  complete s do
    let f ← s.validSlot k
    if deg (s.poly a) ≥ f.m.toNat then .error .invalidElement
    else .ok (s.writeE d (mkElem k (s.poly a)))

/-- EVAL: P[d] <- zext_256(E[a].VAL) (R261). -/
def execEval (d : PReg) (a : EReg) (s : State) : Host.Outcome State Fault Refusal :=
  complete s do
    let x ← s.element a
    .ok (s.writeP d (x.val.setWidth 256))

/-- The sum and the difference of two elements, owned by the first operand's slot (R123, R262, R263). -/
def addElem (x y : ElemReg) : ElemReg := ⟨true, x.fs, x.val ^^^ y.val⟩

/-- EADD: field addition (R262). -/
def execEadd (d a b : EReg) (s : State) : Host.Outcome State Fault Refusal :=
  complete s do
    let (x, y) ← s.elementPair a b
    .ok (s.writeE d (addElem x y))

/-- ESUB: field subtraction, the same as addition in characteristic 2 (R263). -/
def execEsub (d a b : EReg) (s : State) : Host.Outcome State Fault Refusal :=
  complete s do
    let (x, y) ← s.elementPair a b
    .ok (s.writeE d (addElem x y))

/-- ENEG: E[d] <- E[a] (R264). -/
def execEneg (d a : EReg) (s : State) : Host.Outcome State Fault Refusal :=
  complete s do
    let x ← s.element a
    .ok (s.writeE d x)

/-- EMUL: field multiplication by the engine of the first operand's slot (R265). -/
def execEmul (d a b : EReg) (s : State) : Host.Outcome State Fault Refusal :=
  complete s do
    let (x, y) ← s.elementPair a b
    .ok (s.writeE d (mkElem x.fs (fieldMul s x.fs x.val.toNat y.val.toNat)))

/-- EDIV: field division; DIVISION_BY_ZERO when the divisor is 0 (R266). -/
def execEdiv (d a b : EReg) (s : State) : Host.Outcome State Fault Refusal :=
  complete s do
    let (x, y) ← s.elementPair a b
    if y.val = 0 then .error .divisionByZero
    else
      let v ← fieldDiv s x.fs x.val.toNat y.val.toNat
      .ok (s.writeE d (mkElem x.fs v))

/-- EINV: multiplicative inverse; DIVISION_BY_ZERO when the operand is 0 (R267). -/
def execEinv (d a : EReg) (s : State) : Host.Outcome State Fault Refusal :=
  complete s do
    let x ← s.element a
    if x.val = 0 then .error .divisionByZero
    else
      let v ← fieldInv s x.fs x.val.toNat
      .ok (s.writeE d (mkElem x.fs v))

/-- EEQ: RESULT <- 1 when the elements are of the same field and equal, else 0 (R268). -/
def execEeq (a b : EReg) (s : State) : Host.Outcome State Fault Refusal :=
  complete s do
    let x ← s.element a
    let y ← s.element b
    .ok (s.writeResult (if s.sameField x.fs y.fs ∧ x.val = y.val then 1 else 0))

end Sys2Proof.Machine
end

