-- ==== Sys2Proof/Machine/Field.lean ====
section
/-! DEFINITION. The meanings of the field commands: FCFG, the construction of a field into a slot, one meaning per row
of the opcode table (R160 to R165, R170), and FREL, its release (R171). -/

namespace Sys2Proof.Machine

/-- The checks of R164 in their order, for slot k, requested degree m, modulus f, engine e and generator g. -/
def constructionChecks (s : State) (k : SlotIx) (m : Nat) (f : Poly) (e : Engine) (g : Poly) : Except Err Unit := do
  legalSlot k
  if (s.slot k).valid then .error .slotInUse
  else if m < 2 then .error .ceDegreeRange
  else if deg f ≠ m then .error .ceModulusDegree
  else if e = .table ∧ m > Config.MT then .error .ceTableDegree
  else if e = .table ∧ deg g ≥ m then .error .invalidElement
  else if irreducible f m = false then .error .ceNotIrreducible
  else if e = .table ∧ primitive g f m = false then .error .ceNotPrimitive
  else .ok ()

/-- The slot a successful construction writes (R170). -/
def constructedSlot (m : BitVec 7) (f : Poly) (e : Engine) (genx : Bool) (g : Poly) : FieldSlot where
  valid := true
  m := m
  mod := BitVec.ofNat 128 f
  eng := e
  genx := genx
  gen := if e = .table then BitVec.ofNat 16 g else 0

/-- Construct a field into slot k (R170): the checks, then the tables for the table engine (R162), then the slot. -/
def construct (s : State) (k : SlotIx) (m : BitVec 7) (f : Poly) (e : Engine) (genx : Bool) (g : Poly) :
    Except Err State := do
  constructionChecks s k m.toNat f e g
  let t := if e = .table then s.writeTables k (buildAlog g f m.toNat) (buildLog g f m.toNat) else s
  .ok (t.writeSlot k (constructedSlot m f e genx g))

/-- FCFG fk, m, pm, EUCLID (R170 with E = 0). -/
def execFcfgEuclid (k : SlotIx) (m : BitVec 7) (pm : PReg) (s : State) : Host.Outcome State Fault Refusal :=
  complete s (construct s k m (s.poly pm) .euclidean false 0)

/-- FCFG fk, m, pm, TABLE: the default generator x (R163, R170 with E = 1, GX = 0). -/
def execFcfgTable (k : SlotIx) (m : BitVec 7) (pm : PReg) (s : State) : Host.Outcome State Fault Refusal :=
  complete s (construct s k m (s.poly pm) .table false Config.genDefault)

/-- FCFG fk, m, pm, TABLE, pg: the generator in P[pg] (R163, R170 with E = 1, GX = 1). -/
def execFcfgTableGen (k : SlotIx) (m : BitVec 7) (pm pg : PReg) (s : State) : Host.Outcome State Fault Refusal :=
  complete s (construct s k m (s.poly pm) .table true (s.poly pg))

/-- FREL: every element of slot k is cleared and the slot freed; its other fields and its tables become unspecified
(R171, log entry 5). -/
def execFrel (k : SlotIx) (s : State) : Host.Outcome State Fault Refusal :=
  complete s do
    let _ ← s.validSlot k
    .ok (((s.clearOwned k).writeSlot k (freedSlot s.draws)).writeTables k [] []).draw

end Sys2Proof.Machine
end

