-- ==== Sys2Proof/Machine/Table.lean ====
section
/-! DEFINITION. The meanings of the table-read commands TLOG and TALOG (R210, R211). -/

namespace Sys2Proof.Machine

/-- The checks the table reads share: SLOT_INVALID, then NO_TABLE (R210, R211). -/
def State.tableSlot (s : State) (k : SlotIx) : Except Err FieldSlot := do
  let f ← s.validSlot k
  if f.eng = .euclidean then .error .noTable else .ok f

/-- TLOG: RESULT <- LOG_k[v] for 1 ≤ v ≤ N (R210). -/
def execTlog (k : SlotIx) (v : BitVec 16) (s : State) : Host.Outcome State Fault Refusal :=
  complete s do
    let f ← s.tableSlot k
    if v.toNat = 0 ∨ v.toNat > groupOrder f.m.toNat then .error .badIndex
    else .ok (s.writeResult ((s.readLog k v.toNat).setWidth 32))

/-- TALOG: RESULT <- ALOG_k[i] for i < N (R211). -/
def execTalog (k : SlotIx) (i : BitVec 16) (s : State) : Host.Outcome State Fault Refusal :=
  complete s do
    let f ← s.tableSlot k
    if i.toNat ≥ groupOrder f.m.toNat then .error .badIndex
    else .ok (s.writeResult ((s.readAlog k i.toNat).setWidth 32))

end Sys2Proof.Machine
end

