-- ==== Sys2Proof/Machine/Dispatch.lean ====
section
/-! DEFINITION. exec: the completion of a decoded command, one arm per constructor of Instr (R106, R345). -/

namespace Sys2Proof.Machine

def exec (i : Instr) (s : State) : Host.Outcome State Fault Refusal :=
  match i with
  | .nop => Sys2Proof.Machine.execNop s
  | .pxor d a b => Sys2Proof.Machine.execPxor d a b s
  | .clmul d a b => Sys2Proof.Machine.execClmul d a b s
  | .pdeg a => Sys2Proof.Machine.execPdeg a s
  | .pdivmod q r a b => Sys2Proof.Machine.execPdivmod q r a b s
  | .pmod d a b => Sys2Proof.Machine.execPmod d a b s
  | .pshl d a n => Sys2Proof.Machine.execPshl d a n s
  | .pshr d a n => Sys2Proof.Machine.execPshr d a n s
  | .pbtst a n => Sys2Proof.Machine.execPbtst a n s
  | .pext d a lo len => Sys2Proof.Machine.execPext d a lo len s
  | .pldi d imm => Sys2Proof.Machine.execPldi d imm s
  | .fcfgEuclid k m pm => Sys2Proof.Machine.execFcfgEuclid k m pm s
  | .fcfgTable k m pm => Sys2Proof.Machine.execFcfgTable k m pm s
  | .fcfgTableGen k m pm pg => Sys2Proof.Machine.execFcfgTableGen k m pm pg s
  | .frel k => Sys2Proof.Machine.execFrel k s
  | .tlog k v => Sys2Proof.Machine.execTlog k v s
  | .talog k j => Sys2Proof.Machine.execTalog k j s
  | .elem d a k => Sys2Proof.Machine.execElem d a k s
  | .eval d a => Sys2Proof.Machine.execEval d a s
  | .eadd d a b => Sys2Proof.Machine.execEadd d a b s
  | .esub d a b => Sys2Proof.Machine.execEsub d a b s
  | .eneg d a => Sys2Proof.Machine.execEneg d a s
  | .emul d a b => Sys2Proof.Machine.execEmul d a b s
  | .ediv d a b => Sys2Proof.Machine.execEdiv d a b s
  | .einv d a => Sys2Proof.Machine.execEinv d a s
  | .eeq a b => Sys2Proof.Machine.execEeq a b s

end Sys2Proof.Machine
end

