-- ==== Sys2Proof/Machine/Complete.lean ====
section
/-! DEFINITION. The core agent's step: the completion of the command in flight (R345). -/

namespace Sys2Proof.Machine

/-- complete() of R345: decode CMDLATCH; an illegal word enters the error ILLEGAL_CMD, a command runs its rule. -/
def completeCommand (s : State) : Host.Outcome State Fault Refusal :=
  match decode s.fetchWord with
  | .error _ => .next (s.errorEntry .illegalCmd)
  | .ok i => exec i s

/-- The core's turn: completion is enabled exactly when BUSY = 1; with BUSY = 0 the block holds its state (R325,
R345). -/
def coreTurn (s : State) : Host.Outcome State Fault Refusal :=
  if s.status.busy then completeCommand s else .next s

end Sys2Proof.Machine
end

