-- ==== Sys2Proof/Machine/Port.lean ====
section
/-! DEFINITION. The host port: the register map, what each read returns and what each write does (R28 to R36, R60 to
R72). -/

namespace Sys2Proof.Machine

/-- What stands at an aligned offset of the register map (R62). -/
inductive MapReg where
  | id
  | cmd
  | status
  | result
  | ctrl
  | param
  | errcmd
  | finfo (k : Fin 16)
  | pword (n : PReg) (j : Fin 8)
  | reserved
  deriving DecidableEq, Repr

/-- The register map (R62); every offset not listed is reserved (R67). -/
def mapReg (off : Offset) : MapReg :=
  let o := off.toNat
  if o = 0x000 then .id
  else if o = 0x004 then .cmd
  else if o = 0x008 then .status
  else if o = 0x00C then .result
  else if o = 0x010 then .ctrl
  else if o = 0x014 then .param
  else if o = 0x018 then .errcmd
  else if 0x040 ≤ o ∧ o < 0x080 then .finfo (Fin.ofNat 16 ((o - 0x040) / 4))
  else if 0x200 ≤ o ∧ o < 0x400 then .pword (Fin.ofNat 16 ((o - 0x200) / 32)) (Fin.ofNat 8 ((o - 0x200) % 32 / 4))
  else .reserved

/-- PARAM: NP 7:0, NE 15:8, NF 23:16, MT 31:24 (R33). -/
def paramWord : Word :=
  BitVec.ofNat 8 Config.MT ++ BitVec.ofNat 8 Config.NF ++ BitVec.ofNat 8 Config.NE ++ BitVec.ofNat 8 Config.NP

/-- The engine tag's bit: 0 = Euclidean, 1 = Table (R24). -/
def Engine.bit : Engine → BitVec 1
  | .euclidean => 0
  | .table => 1

/-- FINFO[k]: M 6:0, ENG 8, GENX 9, VALID 15, GEN 31:16; 0 where the slot holds no field or k ≥ NF (R36). -/
def State.finfo (s : State) (k : Fin 16) : Word :=
  let f := s.slot k
  if f.valid then f.gen ++ 1#1 ++ 0#5 ++ BitVec.ofBool f.genx ++ f.eng.bit ++ 0#1 ++ f.m else 0

/-- Word j of P[n]: bits 32j+31 down to 32j (R63). -/
def pWord (v : PolyWord) (j : Fin 8) : Word := v.extractLsb' (32 * j.val) 32

/-- P[n] with its word j replaced (R63). -/
def setPWord (v : PolyWord) (j : Fin 8) (x : Word) : PolyWord :=
  (v &&& ~~~(0xFFFFFFFF#256 <<< (32 * j.val))) ||| (x.setWidth 256 <<< (32 * j.val))

/-- The value a read of RESULT, ERRCMD, FINFO or the P window returns: the exact one with BUSY = 0, a free word with
BUSY = 1 (R63, R71, I1). -/
def State.visible (s : State) (v : Word) : Word := if s.status.busy then Config.freeWord s.draws else v

/-- The data an aligned 32-bit read returns (R62, R66, R67, R71). -/
def State.portRead (s : State) : MapReg → Word
  | .id => Config.idValue
  | .cmd => 0
  | .status => s.status.word
  | .result => s.visible s.result
  | .ctrl => 0
  | .param => paramWord
  | .errcmd => s.visible s.errcmd
  | .finfo k => s.visible (s.finfo k)
  | .pword n j => s.visible (pWord (s.readP n) j)
  | .reserved => 0

/-- A write to CMD (R66): overrun while BUSY, dropped in the error state, else issue. -/
def State.writeCmd (s : State) (v : Word) : State :=
  if s.status.busy then s.overrun else if s.status.inErrorState then s else s.issue v

/-- A write to CTRL (R31): SRST wins over ERRCLR; the other bits are ignored. -/
def State.writeCtrl (s : State) (v : Word) : State :=
  if v.getLsbD 1 then s.resetBlock else if v.getLsbD 0 then s.errclr else s

/-- A write to a word of the P window (R63): dropped with OVR while BUSY. -/
def State.writeWindow (s : State) (n : PReg) (j : Fin 8) (v : Word) : State :=
  if s.status.busy then s.overrun else s.writeP n (setPWord (s.readP n) j v)

/-- What an aligned 32-bit write does (R62, R67). -/
def State.portWrite (s : State) (v : Word) : MapReg → State
  | .id => s
  | .cmd => s.writeCmd v
  | .status => s
  | .result => s
  | .ctrl => s.writeCtrl v
  | .param => s
  | .errcmd => s
  | .finfo _ => s
  | .pword n j => s.writeWindow n j v
  | .reserved => s

/-- A legal access is 32 bits wide at an offset that is a multiple of 4 (R65). -/
def legalAccess (off : Offset) (bytes : Nat) : Bool := decide (bytes = 4 ∧ off.toNat % 4 = 0)

/-- A host read (R65, R68): it changes nothing of the block; the port's data and the counter of draws are the model's
own. -/
def hostRead (off : Offset) (bytes : Nat) (s : State) : Host.Outcome State Fault Refusal :=
  if legalAccess off bytes then .next { s.draw with readData := some (s.portRead (mapReg off)) }
  else .fault .busError

/-- A host write (R65, R67). -/
def hostWrite (off : Offset) (bytes : Nat) (v : Word) (s : State) : Host.Outcome State Fault Refusal :=
  if legalAccess off bytes then .next (s.portWrite v (mapReg off)) else .fault .busError

end Sys2Proof.Machine
end

