-- ==== Sys2Proof/Machine/Step.lean ====
section
/-! DEFINITION. One step of the block: the next entry of the single order of host accesses, resets and core turns
(R20, R72, R345). When nothing is scheduled the core takes its turn, so a command in flight always completes (R346). -/

namespace Sys2Proof.Machine

/-- One step. -/
def step (s : State) : Host.Outcome State Fault Refusal :=
  match s.schedule with
  | [] => coreTurn s
  | .coreTurn :: rest => coreTurn { s with schedule := rest }
  | .resetInput :: rest => .next (State.resetBlock { s with schedule := rest })
  | .read off bytes :: rest => hostRead off bytes { s with schedule := rest }
  | .write off bytes v :: rest => hostWrite off bytes v { s with schedule := rest }

/-- s with the command word w in flight and the core's turn next, so that the next step decodes and runs it: what an
issued CMD write leaves (R66), with the interleaving settled (log entry 7). -/
def State.withFetchWord (s : State) (nbits w : Nat) : State :=
  { s.issue (BitVec.ofNat 32 (w % 2 ^ nbits)) with schedule := .coreTurn :: s.schedule }

end Sys2Proof.Machine
end

