-- ==== Sys2Proof/Safety.lean ====
section
/-! DEFINITION. The terms claims are stated in: a run without a fatal error (R307), what a command leaves unchanged,
success and error entry as relations between two states (R305, R345), and the invariants of the spec (R23, R25, R26,
R66, R300). -/

namespace Sys2Proof.Machine

/-- FATAL = 0: the premise R307 lets a claim take. A run that sets FATAL is not a safe run, although the machine goes on
(log entry 10). -/
def State.safe (s : State) : Prop := s.status.fatal = false

/-- The values the spec gives the state after a reset (R38, R341): P, RESULT, STATUS and ERRCMD are 0, and there is no
field and no element. What R38 leaves unspecified is not part of it. -/
def ResetValues (s : State) : Prop :=
  (∀ j, s.readP j = 0) ∧ (∀ a, (s.readE a).wr = false) ∧ (∀ k, (s.slot k).valid = false) ∧ s.result = 0 ∧
  s.status = ⟨false, false, false, false, 0, 0⟩ ∧ s.errcmd = 0

/-! ### Frames -/

/-- The parts of the block a command may write: registers, slots, tables, RESULT, and the model's counter of draws. -/
structure Touched where
  p : List PReg := []
  e : List EReg := []
  slots : List SlotIx := []
  tables : List SlotIx := []
  result : Bool := false
  draws : Bool := false

/-- Everything outside what is touched is as before, but for STATUS and ERRCMD: every other P and E register, every
other slot, every entry of every other table memory, RESULT, CMDLATCH, and the model's own fields. -/
def Frame (s t : State) (w : Touched) : Prop :=
  (∀ j, j ∉ w.p → t.readP j = s.readP j) ∧
  (∀ j, j ∉ w.e → t.readE j = s.readE j) ∧
  (∀ k, k ∉ w.slots → t.slot k = s.slot k) ∧
  (∀ k, k ∉ w.tables → ∀ i, (t.alogOf k).lookup i = (s.alogOf k).lookup i ∧ (t.logOf k).lookup i = (s.logOf k).lookup i) ∧
  (w.result = false → t.result = s.result) ∧
  (w.draws = false → t.draws = s.draws) ∧
  t.cmdLatch = s.cmdLatch ∧ t.schedule = s.schedule ∧ t.readData = s.readData

/-- A command that succeeded: of STATUS only BUSY changes, to 0, and ERRCMD is as before; outside what it may write
everything is as before (R345). -/
def Succeeded (s t : State) (w : Touched) : Prop :=
  t.status = { s.status with busy := false } ∧ t.errcmd = s.errcmd ∧ Frame s t w

/-- A command that ended with error c: the error report of R305, and nothing else changed. -/
def EndedWith (c : Err) (s t : State) : Prop :=
  t.status.err = true ∧ t.status.errcode = c.code ∧ t.status.errop = s.cmdLatch.extractLsb' 26 6 ∧
  t.errcmd = s.cmdLatch ∧ t.status.busy = false ∧ t.status.ovr = s.status.ovr ∧
  t.status.fatal = (s.status.fatal || decide (c = .internalInvariant)) ∧ Frame s t {}

/-! ### Operands -/

/-- E[a] holds an element. -/
def Written (s : State) (a : EReg) : Prop := (s.readE a).wr = true

/-- Slot k exists and holds a field. -/
def Holds (s : State) (k : SlotIx) : Prop := k.val < Config.NF ∧ (s.slot k).valid = true

/-- Two slots hold the same field: equal M and MOD (R27). -/
def SameField (s : State) (j k : SlotIx) : Prop := (s.slot j).m = (s.slot k).m ∧ (s.slot j).mod = (s.slot k).mod

/-- The value of E[a] as a polynomial. -/
def State.valOf (s : State) (a : EReg) : Poly := (s.readE a).val.toNat

/-- The owner of E[a]. -/
def State.ownerOf (s : State) (a : EReg) : SlotIx := (s.readE a).fs

/-- M of slot k. -/
def State.degreeOf (s : State) (k : SlotIx) : Nat := (s.slot k).m.toNat

/-! ### Invariants -/

/-- The table memories of slot k hold the tables of R162: ALOG[i] = pow(g, i) for i < N, and LOG[v] is the exponent
of v for 1 ≤ v ≤ N. -/
def TablesHold (s : State) (k : SlotIx) : Prop :=
  let g := (s.slot k).gen.toNat
  (∀ i, i < s.orderOf k → (s.alogOf k).lookup i = some (BitVec.ofNat 16 (genPow g (s.modulus k) i))) ∧
  (∀ v, 1 ≤ v → v ≤ s.orderOf k →
    ∃ i, i < s.orderOf k ∧ (s.logOf k).lookup v = some (BitVec.ofNat 16 i) ∧ genPow g (s.modulus k) i = v)

/-- The field-slot invariant (R24, R26). -/
def SlotInv (s : State) (k : SlotIx) : Prop :=
  (s.slot k).valid = true →
    deg (s.modulus k) = (s.degreeOf k : Int) ∧ Config.mMin ≤ s.degreeOf k ∧ s.degreeOf k ≤ Config.mMax ∧
    IRRED (s.modulus k) (s.degreeOf k) ∧
    ((s.slot k).eng = .euclidean → (s.slot k).genx = false ∧ (s.slot k).gen = 0) ∧
    ((s.slot k).eng = .table →
      s.degreeOf k ≤ Config.MT ∧ PRIMITIVE (s.slot k).gen.toNat (s.modulus k) (s.degreeOf k) ∧ TablesHold s k)

/-- The element invariant (R23). -/
def ElemInv (s : State) (a : EReg) : Prop :=
  Written s a → Holds s (s.ownerOf a) ∧ deg (s.valOf a) < (s.degreeOf (s.ownerOf a) : Int)

/-- The error report and the error flag agree (R300, R305, R308): with ERR = 0 it is clear, with ERR = 1 it holds a code
of R300 other than NONE and the opcode of ERRCMD. -/
def ReportInv (s : State) : Prop :=
  (s.status.err = false → s.status.errcode = 0 ∧ s.status.errop = 0 ∧ s.errcmd = 0) ∧
  (s.status.err = true → (∃ c : Err, s.status.errcode = c.code) ∧ s.status.errop = s.errcmd.extractLsb' 26 6)

/-- No command is in flight in the error state (R66, R306). -/
def ProtocolInv (s : State) : Prop := s.status.busy = true → s.status.err = false ∧ s.status.fatal = false

/-- The table memories are in canonical form. -/
def TablesCanonical (s : State) : Prop := ∀ k, Memory.wf (s.alogOf k) = true ∧ Memory.wf (s.logOf k) = true

/-- The invariants of the spec's data: R26 of every slot and R23 of every element register. -/
def DataInv (s : State) : Prop := (∀ k, SlotInv s k) ∧ (∀ a, ElemInv s a)

/-! ### What each command may write, and the three forms of FCFG -/

/-- What a command may write, by the "Writes" line of its rule (R140 to R150, R170, R171, R210, R211, R260 to R268). A
FREL may clear any element register, and it takes one draw of the model's own counter. -/
def touchedBy : Instr → Touched
  | .nop => {}
  | .pxor d _ _ => { p := [d] }
  | .clmul d _ _ => { p := [d] }
  | .pdeg _ => { result := true }
  | .pdivmod q r _ _ => { p := [q, r] }
  | .pmod d _ _ => { p := [d] }
  | .pshl d _ _ => { p := [d] }
  | .pshr d _ _ => { p := [d] }
  | .pbtst _ _ => { result := true }
  | .pext d _ _ _ => { p := [d] }
  | .pldi d _ => { p := [d] }
  | .fcfgEuclid k _ _ => { slots := [k] }
  | .fcfgTable k _ _ => { slots := [k], tables := [k] }
  | .fcfgTableGen k _ _ _ => { slots := [k], tables := [k] }
  | .frel k => { e := List.finRange 16, slots := [k], tables := [k], draws := true }
  | .tlog _ _ => { result := true }
  | .talog _ _ => { result := true }
  | .elem d _ _ => { e := [d] }
  | .eval d _ => { p := [d] }
  | .eadd d _ _ => { e := [d] }
  | .esub d _ _ => { e := [d] }
  | .eneg d _ => { e := [d] }
  | .emul d _ _ => { e := [d] }
  | .ediv d _ _ => { e := [d] }
  | .einv d _ => { e := [d] }
  | .eeq _ _ => { result := true }

/-- The operands of the three forms of FCFG in state s: slot, degree, modulus register, engine, GENX, generator (R163). -/
def fcfgOperands (s : State) : Instr → Option (SlotIx × BitVec 7 × PReg × Engine × Bool × Poly)
  | .fcfgEuclid k m pm => some (k, m, pm, .euclidean, false, 0)
  | .fcfgTable k m pm => some (k, m, pm, .table, false, 0b10)
  | .fcfgTableGen k m pm pg => some (k, m, pm, .table, true, s.poly pg)
  | _ => none

end Sys2Proof.Machine
end

