-- ==== Sys2Proof/Certificates/Slice0/Obligations.lean ====
section
/-! DEFINITION. The statements for the provers. Each says which rule of the spec it formalises. The terms they are stated in stand
in Safety.lean. -/

open Sys2Proof Sys2Proof.Machine

/-! ### Encoding -/

/-- R92 to R103, R106, R108: decoding the word the formats give a well-formed command gives the command back, for every
command and every operand. -/
def Obligations.DecodeOfEncodeIsTheCommand : Prop :=
  ∀ i : Instr, i.wf = true → decode (encode i) = .ok i

/-- R107 ("every word is either exactly one command of rule R106 or illegal"): a word that decodes is the encoding of
the command it decodes to, and that command is well formed. -/
def Obligations.DecodedWordEncodesBack : Prop :=
  ∀ (w : Word) (i : Instr), decode w = .ok i → i.wf = true ∧ encode i = w

/-- R106, R107, R108: the decoder refuses a word exactly when it matches no row of the opcode map (reserved opcode,
nonzero reserved bit, GX without E, PG without GX) or names a slot index K ≥ NF; and at most one row matches a word. -/
def Obligations.WordIllegalExactlyWhenNoRowFits : Prop :=
  (∀ w : Word, (∃ e, decode w = .error e) ↔
    ((∀ r ∈ opcodeMap, matchesRow w r = false) ∨
      (opOf w ∈ [0x10#6, 0x11#6, 0x12#6, 0x13#6] ∧ Config.NF ≤ (fieldD w).val) ∨
      (opOf w = 0x18#6 ∧ Config.NF ≤ (fieldB w).val))) ∧
  opcodeMap.Pairwise (fun r q => ∀ w : Word, ¬ (matchesRow w r = true ∧ matchesRow w q = true))

/-- A few words of the spec's examples decode to the commands they stand for (R95, R100, R143, R144, R149, R170, R171,
R210, R261, R267, R268). -/
def Obligations.SomeWordsOfTheSpecDecode : Prop :=
  decode 0x00000000 = .ok .nop ∧
  decode 0x0C000000 = .ok (.pdeg 0) ∧
  decode 0x10C49000 = .ok (.pdivmod 3 4 1 2) ∧
  decode 0x24840303 = .ok (.pext 2 1 3 3) ∧
  decode 0x40424000 = .ok (.fcfgTable 1 4 0) ∧
  decode 0x40046010 = .ok (.fcfgTableGen 0 8 0 1) ∧
  decode 0x44000000 = .ok (.frel 0) ∧
  decode 0x48400009 = .ok (.tlog 1 9) ∧
  decode 0x64C80000 = .ok (.eval 3 2) ∧
  decode 0x94C00000 = .ok (.einv 3 0) ∧
  decode 0x980C4000 = .ok (.eeq 3 1) ∧
  decode 0x40C22560 = .error .generatorForEuclid ∧
  decode 0x2C000000 = .error .reservedOpcode

/-! ### The steps of the block -/

/-- R345: with BUSY = 1 and the core's turn, the step decodes CMDLATCH and runs the command, whether the turn is
scheduled or nothing is (that the core takes its turn when nothing is scheduled is the model's choice, log entry 1). A
state prepared by withFetchWord runs its word at its next step (log entry 7). -/
def Obligations.StepRunsTheDecodedCommand : Prop :=
  (∀ (s : State) (i : Instr), s.status.busy = true → decode s.cmdLatch = .ok i →
    (s.schedule = [] → step s = exec i s) ∧
    (∀ rest, s.schedule = .coreTurn :: rest → step s = exec i { s with schedule := rest })) ∧
  (∀ (s : State) (w : Word) (i : Instr), decode w = .ok i → step (s.withFetchWord 32 w.toNat) = exec i (s.issue w))

/-- R107, R325, R345: an illegal word in flight ends with ILLEGAL_CMD at its completion and writes nothing but the error
report; with BUSY = 0 completion is not enabled and the core's turn changes nothing. -/
def Obligations.CoreTurnWithoutALegalCommand : Prop :=
  (∀ (s : State) (e : DecodeError), s.status.busy = true → decode s.cmdLatch = .error e →
    ∃ t, coreTurn s = .next t ∧ EndedWith .illegalCmd s t) ∧
  (∀ s : State, s.status.busy = false → coreTurn s = .next s)

/-- R66: what a write to CMD does, in its three cases; that an illegal word is issued like any other and fails at
completion with ILLEGAL_CMD; and that a read of CMD returns 0. -/
def Obligations.CmdWriteIssuesDropsOrOverruns : Prop :=
  ∀ (s : State) (v : Word),
    (s.status.busy = true →
      hostWrite 0x004 4 v s = .next { s with status := { s.status with ovr := true } }) ∧
    (s.status.busy = false → (s.status.err = true ∨ s.status.fatal = true) → hostWrite 0x004 4 v s = .next s) ∧
    (s.status.busy = false → s.status.err = false → s.status.fatal = false →
      hostWrite 0x004 4 v s = .next { s with cmdLatch := v, status := { s.status with busy := true } }) ∧
    (∀ e, decode v = .error e → ∃ t, coreTurn (s.issue v) = .next t ∧ EndedWith .illegalCmd (s.issue v) t) ∧
    (∃ t, hostRead 0x004 4 s = .next t ∧ t.readData = some 0)

/-- R63: a read of the P window returns the bits 32j+31..32j of P[n], and a write replaces exactly them, with BUSY = 0;
a read with BUSY = 1 returns some 32-bit value (a free one), a write with BUSY = 1 is dropped and sets OVR. -/
def Obligations.WindowReadsAndWritesTheWordsOfP : Prop :=
  ∀ (s : State) (n : PReg) (j : Fin 8) (v : Word),
    (s.status.busy = false → ∃ t x, hostRead (BitVec.ofNat 12 (0x200 + 32 * n.val + 4 * j.val)) 4 s = .next t ∧
      t.readData = some x ∧ ∀ b, b < 32 → x.getLsbD b = (s.readP n).getLsbD (32 * j.val + b)) ∧
    (s.status.busy = false → ∃ t, hostWrite (BitVec.ofNat 12 (0x200 + 32 * n.val + 4 * j.val)) 4 v s = .next t ∧
      t.status = s.status ∧ t.errcmd = s.errcmd ∧ Frame s t { p := [n] } ∧
      ∀ b, b < 256 → (t.readP n).getLsbD b =
        if 32 * j.val ≤ b ∧ b < 32 * j.val + 32 then v.getLsbD (b - 32 * j.val) else (s.readP n).getLsbD b) ∧
    (s.status.busy = true → (∃ t x, hostRead (BitVec.ofNat 12 (0x200 + 32 * n.val + 4 * j.val)) 4 s = .next t ∧
        t.readData = some x) ∧
      hostWrite (BitVec.ofNat 12 (0x200 + 32 * n.val + 4 * j.val)) 4 v s =
        .next { s with status := { s.status with ovr := true } })

/-- R68 ("No read has a side effect"): a read changes only the model's own record of what the host read and its counter
of draws. -/
def Obligations.ReadsHaveNoSideEffect : Prop :=
  ∀ (s t : State) (off : Offset) (bytes : Nat), hostRead off bytes s = .next t →
    t = { s with readData := t.readData, draws := s.draws + 1 }

/-- R32, R33, R67: ID and PARAM read as their constants, CTRL and every reserved offset read 0, and a write to ID,
PARAM, STATUS, RESULT, ERRCMD, FINFO[k] or a reserved offset is ignored. -/
def Obligations.ConstantAndReservedOffsets : Prop :=
  ∀ (s : State) (v : Word),
    (∃ t, hostRead 0x000 4 s = .next t ∧ t.readData = some 0x47463250) ∧
    (∃ t, hostRead 0x014 4 s = .next t ∧ t.readData = some 0x10041010) ∧
    (∃ t, hostRead 0x010 4 s = .next t ∧ t.readData = some 0) ∧
    (∀ off : Offset, off.toNat % 4 = 0 →
      (0x01C ≤ off.toNat ∧ off.toNat < 0x040) ∨ (0x080 ≤ off.toNat ∧ off.toNat < 0x200) ∨ 0x400 ≤ off.toNat →
      (∃ t, hostRead off 4 s = .next t ∧ t.readData = some 0) ∧ hostWrite off 4 v s = .next s) ∧
    (∀ off : Offset, off ∈ [0x000#12, 0x008#12, 0x00C#12, 0x014#12, 0x018#12] → hostWrite off 4 v s = .next s) ∧
    (∀ k : Fin 16, hostWrite (BitVec.ofNat 12 (0x040 + 4 * k.val)) 4 v s = .next s)

/-- R28, R71: a read of STATUS, busy or not, returns the exact fields at their places and 0 in the reserved bits; with
BUSY = 0 a read of RESULT or ERRCMD returns the register. -/
def Obligations.StatusResultAndErrcmdRead : Prop :=
  ∀ s : State,
    (∃ t x, hostRead 0x008 4 s = .next t ∧ t.readData = some x ∧
      x.getLsbD 0 = s.status.busy ∧ x.getLsbD 1 = s.status.err ∧ x.getLsbD 2 = s.status.fatal ∧
      x.getLsbD 3 = s.status.ovr ∧ x.extractLsb' 4 4 = 0 ∧ x.extractLsb' 8 8 = s.status.errcode ∧
      x.extractLsb' 16 6 = s.status.errop ∧ x.extractLsb' 22 10 = 0) ∧
    (s.status.busy = false → (∃ t, hostRead 0x00C 4 s = .next t ∧ t.readData = some s.result) ∧
      (∃ t, hostRead 0x018 4 s = .next t ∧ t.readData = some s.errcmd))

/-- R36: FINFO[k] for a slot that holds a field has each field at its place and 0 elsewhere; it reads 0 for k ≥ NF and
for a slot that holds none; a host write is ignored. -/
def Obligations.FinfoDescribesTheSlot : Prop :=
  ∀ (s : State) (k : Fin 16), (∀ v, hostWrite (BitVec.ofNat 12 (0x040 + 4 * k.val)) 4 v s = .next s) ∧
    (s.status.busy = false → ∃ t x, hostRead (BitVec.ofNat 12 (0x040 + 4 * k.val)) 4 s = .next t ∧ t.readData = some x ∧
      (Holds s k → x.extractLsb' 0 7 = (s.slot k).m ∧ x.getLsbD 7 = false ∧
        (x.getLsbD 8 = true ↔ (s.slot k).eng = .table) ∧ x.getLsbD 9 = (s.slot k).genx ∧
        x.extractLsb' 10 5 = 0 ∧ x.getLsbD 15 = true ∧ x.extractLsb' 16 16 = (s.slot k).gen) ∧
      (¬ Holds s k → x = 0))

/-- R31: SRST gives the reset values of the block, busy or not and whatever ERRCLR says; ERRCLR with BUSY = 0 clears ERR,
ERRCODE, ERROP, OVR and ERRCMD and keeps the rest, FATAL too; while BUSY = 1, or with neither bit, nothing happens; a
read of CTRL returns 0. -/
def Obligations.CtrlWriteClearsOrResets : Prop :=
  ∀ (s : State) (v : Word),
    (v.getLsbD 1 = true → ∃ t, hostWrite 0x010 4 v s = .next t ∧ ResetValues t ∧ t.schedule = s.schedule) ∧
    (v.getLsbD 1 = false → v.getLsbD 0 = true → s.status.busy = false → hostWrite 0x010 4 v s =
      .next { s with errcmd := 0, status := ⟨false, false, s.status.fatal, false, 0, 0⟩ }) ∧
    (v.getLsbD 1 = false → v.getLsbD 0 = true → s.status.busy = true → hostWrite 0x010 4 v s = .next s) ∧
    (v.getLsbD 1 = false → v.getLsbD 0 = false → hostWrite 0x010 4 v s = .next s) ∧
    (∃ t, hostRead 0x010 4 s = .next t ∧ t.readData = some 0)

/-- R65: an access that is not 32 bits wide at a multiple of 4 faults with BUS_ERROR; every other access is answered. -/
def Obligations.BusErrorExactlyOnIllegalAccesses : Prop :=
  ∀ (s : State) (off : Offset) (bytes : Nat) (v : Word),
    (¬ (bytes = 4 ∧ off.toNat % 4 = 0) → hostRead off bytes s = .fault .busError ∧
      hostWrite off bytes v s = .fault .busError) ∧
    (bytes = 4 → off.toNat % 4 = 0 → (∃ t, hostRead off bytes s = .next t) ∧ (∃ t, hostWrite off bytes v s = .next t))

/-- R341, with R38 and R340: State.reset has the reset values the spec gives; an assertion of the reset input puts the
block into such a state whatever it was doing; and from every such state the first CMD write is issued normally. -/
def Obligations.ResetLeavesTheResetState : Prop :=
  ResetValues State.reset ∧
  (∀ (s : State) (rest : List PortEvent), s.schedule = .resetInput :: rest →
    ∃ t, step s = .next t ∧ ResetValues t ∧ t.schedule = rest) ∧
  (∀ (s : State) (v : Word), ResetValues s →
    hostWrite 0x004 4 v s = .next { s with cmdLatch := v, status := { s.status with busy := true } })

/-- R346 ("Once BUSY = 1, the completion step happens after finitely many host steps"), R340: from a state with a command
in flight and only legal accesses scheduled, BUSY = 0 is reached within one step more than what is scheduled, by completion
or by a reset that abandons the command; and if no reset is scheduled, neither the reset input nor a write of CTRL with
SRST = 1, then within what is scheduled a state u is reached whose next step is the completion of that same command: the
core's turn is next in u, CMDLATCH and all that the command reads are as they were, and the step is completeCommand and
ends with BUSY = 0. The bound is the model's choice of fairness (log entry 1). -/
def Obligations.EveryCommandCompletes : Prop :=
  ∀ s : State, s.status.busy = true →
    (∀ off bytes, PortEvent.read off bytes ∈ s.schedule → legalAccess off bytes = true) →
    (∀ off bytes v, PortEvent.write off bytes v ∈ s.schedule → legalAccess off bytes = true) →
    (∃ (n : Nat) (t : State), n ≤ s.schedule.length + 1 ∧ Host.Core.run Sys2Proof.core n s = .next t ∧
      t.status.busy = false) ∧
    (PortEvent.resetInput ∉ s.schedule →
      (∀ bytes v, PortEvent.write 0x010 bytes v ∈ s.schedule → v.getLsbD 1 = false) →
      ∃ (n : Nat) (u t : State), n ≤ s.schedule.length ∧ Host.Core.run Sys2Proof.core n s = .next u ∧
        u = { s with schedule := u.schedule, readData := u.readData, draws := u.draws, status := u.status } ∧
        u.status = { s.status with ovr := u.status.ovr } ∧
        (u.schedule = [] ∨ u.schedule.head? = some .coreTurn) ∧
        step u = completeCommand { u with schedule := u.schedule.tail } ∧ step u = .next t ∧ t.status.busy = false)

/-! ### Bit-polynomial commands -/

/-- R140: NOP changes nothing but BUSY; its word is 0x00000000, and a word of its opcode with a bit of 25..0 set is
illegal. -/
def Obligations.NopChangesNothing : Prop :=
  (∀ s : State, ∃ t, exec .nop s = .next t ∧ Succeeded s t {}) ∧ encode .nop = 0x00000000 ∧
  (∀ w : Word, opOf w = 0x00 → w ≠ 0 → ∃ e, decode w = .error e)

/-- R141: PXOR writes the XOR of its sources, and nothing else. -/
def Obligations.PxorWritesTheXor : Prop :=
  ∀ (s : State) (d a b : PReg), ∃ t, exec (.pxor d a b) s = .next t ∧ Succeeded s t { p := [d] } ∧
    (∀ n, n < 256 → (t.readP d).getLsbD n = ((s.readP a).getLsbD n ^^ (s.readP b).getLsbD n)) ∧
    encode (.pxor d a b) = formatR3 0x01 d a b

/-- R142: CLMUL writes the exact product when it fits, and ends with WIDTH_OVERFLOW when both operands are nonzero and
their degrees add up to more than 255. -/
def Obligations.ClmulWritesTheExactProduct : Prop :=
  ∀ (s : State) (d a b : PReg),
    (s.poly a = 0 ∨ s.poly b = 0 ∨ deg (s.poly a) + deg (s.poly b) ≤ 255 →
      ∃ t, exec (.clmul d a b) s = .next t ∧ Succeeded s t { p := [d] } ∧ t.poly d = clmul (s.poly a) (s.poly b)) ∧
    (s.poly a ≠ 0 → s.poly b ≠ 0 → 255 < deg (s.poly a) + deg (s.poly b) →
      ∃ t, exec (.clmul d a b) s = .next t ∧ EndedWith .widthOverflow s t) ∧
    encode (.clmul d a b) = formatR3 0x02 d a b

/-- R126, R143: PDEG writes deg(P[a]) as a 32-bit two's-complement value: 0xFFFFFFFF for 0, else the index of the highest
set bit. -/
def Obligations.PdegWritesTheDegree : Prop :=
  ∀ (s : State) (a : PReg), ∃ t, exec (.pdeg a) s = .next t ∧ Succeeded s t { result := true } ∧
    (s.poly a = 0 → t.result = 0xFFFFFFFF) ∧
    (∀ n, (s.poly a).testBit n = true → (∀ j, n < j → (s.poly a).testBit j = false) → t.result = BitVec.ofNat 32 n) ∧
    encode (.pdeg a) = formatS1 0x03 a

/-- R144: PDIVMOD writes the quotient and then the remainder, both exact; one register named twice ends with the
remainder; a zero divisor ends with DIVISION_BY_ZERO. -/
def Obligations.PdivmodWritesQuotientAndRemainder : Prop :=
  ∀ (s : State) (q r a b : PReg),
    (s.poly b ≠ 0 → ∃ t, exec (.pdivmod q r a b) s = .next t ∧ Succeeded s t { p := [q, r] } ∧
      t.poly r = (pdivmod (s.poly a) (s.poly b)).2 ∧ (q ≠ r → t.poly q = (pdivmod (s.poly a) (s.poly b)).1)) ∧
    (s.poly b = 0 → ∃ t, exec (.pdivmod q r a b) s = .next t ∧ EndedWith .divisionByZero s t) ∧
    encode (.pdivmod q r a b) = formatR4 0x04 q a b r

/-- R145: PMOD writes the remainder; a zero divisor ends with DIVISION_BY_ZERO. -/
def Obligations.PmodWritesTheRemainder : Prop :=
  ∀ (s : State) (d a b : PReg),
    (s.poly b ≠ 0 → ∃ t, exec (.pmod d a b) s = .next t ∧ Succeeded s t { p := [d] } ∧
      t.poly d = rmod (s.poly a) (s.poly b) ∧ deg (t.poly d) < deg (s.poly b)) ∧
    (s.poly b = 0 → ∃ t, exec (.pmod d a b) s = .next t ∧ EndedWith .divisionByZero s t) ∧
    encode (.pmod d a b) = formatR3 0x05 d a b

/-- R146, R147: PSHL and PSHR move every bit by n places; PSHL loses the bits past 255, both fill with 0. -/
def Obligations.ShiftsMoveTheBits : Prop :=
  ∀ (s : State) (d a : PReg) (n : BitVec 8),
    (∃ t, exec (.pshl d a n) s = .next t ∧ Succeeded s t { p := [d] } ∧
      ∀ j, j < 256 → (t.readP d).getLsbD j = (decide (n.toNat ≤ j) && (s.readP a).getLsbD (j - n.toNat))) ∧
    (∃ t, exec (.pshr d a n) s = .next t ∧ Succeeded s t { p := [d] } ∧
      ∀ j, j < 256 → (t.readP d).getLsbD j = (s.readP a).getLsbD (j + n.toNat)) ∧
    encode (.pshl d a n) = formatRI8 0x06 d a n ∧ encode (.pshr d a n) = formatRI8 0x07 d a n

/-- R148: PBTST writes bit n of P[a], as 0 or 1. -/
def Obligations.PbtstWritesTheBit : Prop :=
  ∀ (s : State) (a : PReg) (n : BitVec 8), ∃ t, exec (.pbtst a n) s = .next t ∧ Succeeded s t { result := true } ∧
    t.result = (if (s.readP a).getLsbD n.toNat then 1 else 0) ∧ encode (.pbtst a n) = formatSI8 0x08 a n

/-- R149: PEXT moves the bits lo + len − 1..lo to len − 1..0 and clears the others; bits above 255 read 0. -/
def Obligations.PextExtractsTheField : Prop :=
  ∀ (s : State) (d a : PReg) (lo len : BitVec 8), ∃ t, exec (.pext d a lo len) s = .next t ∧
    Succeeded s t { p := [d] } ∧
    (∀ j, j < 256 → (t.readP d).getLsbD j = (decide (j < len.toNat) && (s.readP a).getLsbD (lo.toNat + j))) ∧
    encode (.pext d a lo len) = formatRX 0x09 d a len lo

/-- R150: PLDI writes the immediate, zero-extended. -/
def Obligations.PldiLoadsTheImmediate : Prop :=
  ∀ (s : State) (d : PReg) (imm : BitVec 16), ∃ t, exec (.pldi d imm) s = .next t ∧ Succeeded s t { p := [d] } ∧
    t.poly d = imm.toNat ∧ encode (.pldi d imm) = formatI16 0x0A d imm

/-- R120: bit k of clmul(a, b) is the XOR over i + j = k of a[i] AND b[j]; the degree of a product of nonzero operands
is the sum of their degrees; the product is commutative, associative and distributes over ⊕. -/
def Obligations.ClmulIsTheCarrylessProduct : Prop :=
  (∀ a b k : Nat, (clmul a b).testBit k =
    (List.range (k + 1)).foldl (fun acc i => acc ^^ (a.testBit i && b.testBit (k - i))) false) ∧
  (∀ a b : Poly, a ≠ 0 → b ≠ 0 → deg (clmul a b) = deg a + deg b) ∧
  (∀ a b : Poly, a = 0 ∨ b = 0 → clmul a b = 0) ∧
  (∀ a b : Poly, clmul a b = clmul b a) ∧
  (∀ a b c : Poly, clmul (clmul a b) c = clmul a (clmul b c)) ∧
  (∀ a b c : Poly, clmul a (b ^^^ c) = clmul a b ^^^ clmul a c)

/-- R121, R122: for b ≠ 0, pdivmod(a, b) is the unique pair (q, r) with a = clmul(q, b) ⊕ r and deg(r) < deg(b), with
the rule's consequences. -/
def Obligations.PdivmodIsTheUniqueDivision : Prop :=
  ∀ a b : Poly, b ≠ 0 →
    a = clmul (pdivmod a b).1 b ^^^ (pdivmod a b).2 ∧ deg (pdivmod a b).2 < deg b ∧
    (∀ q r : Poly, a = clmul q b ^^^ r → deg r < deg b → (q, r) = pdivmod a b) ∧
    rmod a b = (pdivmod a b).2 ∧
    (deg a < deg b → pdivmod a b = (0, a)) ∧
    (deg b ≤ deg a → deg (pdivmod a b).1 = deg a - deg b) ∧
    (deg (pdivmod a b).1 ≤ deg a ∧ deg (pdivmod a b).2 ≤ deg a) ∧
    (b = 1 → pdivmod a b = (a, 0))

/-! ### Field construction and release -/

/-- R160 ("The hardware may use any algorithm that computes it"): the model's irreducibility test decides the predicate
IRRED of the rule. The algorithm is the model's choice (log entry 8). -/
def Obligations.IrreducibilityTestDecidesIrred : Prop :=
  ∀ (f : Poly) (m : Nat), 2 ≤ m → deg f = (m : Int) → (irreducible f m = true ↔ IRRED f m)

/-- R161: the model's primitivity test decides the predicate PRIMITIVE of the rule. -/
def Obligations.PrimitivityTestDecidesPrimitive : Prop :=
  ∀ (g f : Poly) (m : Nat), primitive g f m = true ↔ PRIMITIVE g f m

/-- R170 with E = 0: FCFG constructs a Euclidean field when the slot is free, 2 ≤ M, the modulus has degree M and is
irreducible; primitivity is not asked for, and no table changes. -/
def Obligations.FcfgConstructsAEuclideanField : Prop :=
  ∀ (s : State) (k : SlotIx) (m : BitVec 7) (pm : PReg), k.val < Config.NF → (s.slot k).valid = false →
    2 ≤ m.toNat → deg (s.poly pm) = (m.toNat : Int) → IRRED (s.poly pm) m.toNat →
    ∃ t, exec (.fcfgEuclid k m pm) s = .next t ∧ Succeeded s t { slots := [k] } ∧
      (t.slot k).valid = true ∧ (t.slot k).m = m ∧ t.modulus k = s.poly pm ∧ (t.slot k).eng = .euclidean ∧
      (t.slot k).genx = false ∧ (t.slot k).gen = 0

/-- R162, R163, R170 with E = 1: FCFG constructs a table field when also M ≤ 16 and the generator (x, or P[pg]) has
degree below M and is primitive; the slot's tables are then those of R162. -/
def Obligations.FcfgConstructsATableField : Prop :=
  ∀ (s : State) (i : Instr) (k : SlotIx) (m : BitVec 7) (pm : PReg) (genx : Bool) (g : Poly),
    fcfgOperands s i = some (k, m, pm, .table, genx, g) → k.val < Config.NF → (s.slot k).valid = false →
    2 ≤ m.toNat → deg (s.poly pm) = (m.toNat : Int) → m.toNat ≤ 16 → deg g < (m.toNat : Int) →
    IRRED (s.poly pm) m.toNat → PRIMITIVE g (s.poly pm) m.toNat →
    ∃ t, exec i s = .next t ∧ Succeeded s t { slots := [k], tables := [k] } ∧
      (t.slot k).valid = true ∧ (t.slot k).m = m ∧ t.modulus k = s.poly pm ∧ (t.slot k).eng = .table ∧
      (t.slot k).genx = genx ∧ (t.slot k).gen.toNat = g ∧ TablesHold t k

/-- R164, R165, R305: FCFG reports the first check that fails, in the rule's order, and a failed construction changes
nothing but the error report. Its three forms. That the tables of the slot are unchanged too follows R305 where R165 leaves
their entries unspecified: the model's choice, log entry 12. -/
def Obligations.FcfgReportsTheFirstFailingCheck : Prop :=
  ∀ (s : State) (i : Instr) (k : SlotIx) (m : BitVec 7) (pm : PReg) (e : Engine) (genx : Bool) (g : Poly),
    fcfgOperands s i = some (k, m, pm, e, genx, g) →
    (Config.NF ≤ k.val → ∃ t, exec i s = .next t ∧ EndedWith .illegalCmd s t) ∧
    (k.val < Config.NF →
      ((s.slot k).valid = true → ∃ t, exec i s = .next t ∧ EndedWith .slotInUse s t) ∧
      ((s.slot k).valid = false →
        (m.toNat < 2 → ∃ t, exec i s = .next t ∧ EndedWith .ceDegreeRange s t) ∧
        (2 ≤ m.toNat →
          (deg (s.poly pm) ≠ (m.toNat : Int) → ∃ t, exec i s = .next t ∧ EndedWith .ceModulusDegree s t) ∧
          (deg (s.poly pm) = (m.toNat : Int) →
            (e = .table ∧ 16 < m.toNat → ∃ t, exec i s = .next t ∧ EndedWith .ceTableDegree s t) ∧
            (¬ (e = .table ∧ 16 < m.toNat) →
              (e = .table ∧ (m.toNat : Int) ≤ deg g → ∃ t, exec i s = .next t ∧ EndedWith .invalidElement s t) ∧
              (¬ (e = .table ∧ (m.toNat : Int) ≤ deg g) →
                (¬ IRRED (s.poly pm) m.toNat → ∃ t, exec i s = .next t ∧ EndedWith .ceNotIrreducible s t) ∧
                (IRRED (s.poly pm) m.toNat → e = .table → ¬ PRIMITIVE g (s.poly pm) m.toNat →
                  ∃ t, exec i s = .next t ∧ EndedWith .ceNotPrimitive s t)))))))

/-- R171: FREL frees the slot and clears every element it owns, and leaves every other element, slot and table; a slot
that holds no field gives SLOT_INVALID, an index K ≥ NF ILLEGAL_CMD. -/
def Obligations.FrelFreesTheSlotAndItsElements : Prop :=
  ∀ (s : State) (k : SlotIx),
    (Holds s k → ∃ t, exec (.frel k) s = .next t ∧
      Succeeded s t { e := List.finRange 16, slots := [k], tables := [k], draws := true } ∧ (t.slot k).valid = false ∧
      (∀ a, Written s a → s.ownerOf a = k → ¬ Written t a) ∧
      (∀ a, ¬ (Written s a ∧ s.ownerOf a = k) → t.readE a = s.readE a)) ∧
    (k.val < Config.NF → (s.slot k).valid = false → ∃ t, exec (.frel k) s = .next t ∧ EndedWith .slotInvalid s t) ∧
    (Config.NF ≤ k.val → ∃ t, exec (.frel k) s = .next t ∧ EndedWith .illegalCmd s t)

/-! ### Table reads -/

/-- R210, R211: TLOG and TALOG write the table entry to RESULT when the slot holds a table field and the index is in
range; else SLOT_INVALID, NO_TABLE or BAD_INDEX, in this order (and ILLEGAL_CMD for K ≥ NF). In a slot that meets R26,
TLOG of 1 gives 0 and TALOG of 0 gives 1. -/
def Obligations.TableReadsAndTheirErrors : Prop :=
  ∀ (s : State) (k : SlotIx) (x : BitVec 16),
    (Holds s k → (s.slot k).eng = .table → 1 ≤ x.toNat → x.toNat ≤ s.orderOf k →
      ∃ t, exec (.tlog k x) s = .next t ∧ Succeeded s t { result := true } ∧
        ∀ y, (s.logOf k).lookup x.toNat = some y → t.result.toNat = y.toNat) ∧
    (Holds s k → (s.slot k).eng = .table → x.toNat < s.orderOf k →
      ∃ t, exec (.talog k x) s = .next t ∧ Succeeded s t { result := true } ∧
        ∀ y, (s.alogOf k).lookup x.toNat = some y → t.result.toNat = y.toNat) ∧
    (∀ i, i = .tlog k x ∨ i = .talog k x →
      (Config.NF ≤ k.val → ∃ t, exec i s = .next t ∧ EndedWith .illegalCmd s t) ∧
      (k.val < Config.NF → (s.slot k).valid = false → ∃ t, exec i s = .next t ∧ EndedWith .slotInvalid s t) ∧
      (Holds s k → (s.slot k).eng = .euclidean → ∃ t, exec i s = .next t ∧ EndedWith .noTable s t)) ∧
    (Holds s k → (s.slot k).eng = .table → x.toNat = 0 ∨ s.orderOf k < x.toNat →
      ∃ t, exec (.tlog k x) s = .next t ∧ EndedWith .badIndex s t) ∧
    (Holds s k → (s.slot k).eng = .table → s.orderOf k ≤ x.toNat →
      ∃ t, exec (.talog k x) s = .next t ∧ EndedWith .badIndex s t) ∧
    (SlotInv s k → Holds s k → (s.slot k).eng = .table →
      (∃ t, exec (.tlog k 1) s = .next t ∧ Succeeded s t { result := true } ∧ t.result = 0) ∧
      (∃ t, exec (.talog k 0) s = .next t ∧ Succeeded s t { result := true } ∧ t.result = 1))

/-- R26, R162 ("log and antilog are exact inverses"), through the commands: TALOG of the TLOG of v gives v back, and
TLOG of the TALOG of i gives i back. -/
def Obligations.LogAndAntilogAreInverse : Prop :=
  ∀ (s : State) (k : SlotIx), SlotInv s k → Holds s k → (s.slot k).eng = .table →
    (∀ v : BitVec 16, 1 ≤ v.toNat → v.toNat ≤ s.orderOf k →
      ∃ t u, exec (.tlog k v) s = .next t ∧ exec (.talog k (t.result.setWidth 16)) t = .next u ∧
        Succeeded t u { result := true } ∧ u.result.toNat = v.toNat) ∧
    (∀ i : BitVec 16, i.toNat < s.orderOf k →
      ∃ t u, exec (.talog k i) s = .next t ∧ exec (.tlog k (t.result.setWidth 16)) t = .next u ∧
        Succeeded t u { result := true } ∧ u.result.toNat = i.toNat)

/-! ### Element commands -/

/-- R260: ELEM makes an element of slot k from a value of degree below M, taken over all 256 bits of P[a]; else
INVALID_ELEMENT; SLOT_INVALID when the slot holds no field, ILLEGAL_CMD for K ≥ NF. -/
def Obligations.ElemConstructsAnElement : Prop :=
  ∀ (s : State) (d : EReg) (a : PReg) (k : SlotIx),
    (Holds s k → deg (s.poly a) < (s.degreeOf k : Int) →
      ∃ t, exec (.elem d a k) s = .next t ∧ Succeeded s t { e := [d] } ∧ Written t d ∧ t.ownerOf d = k ∧
        t.valOf d = s.poly a) ∧
    (Holds s k → (s.degreeOf k : Int) ≤ deg (s.poly a) →
      ∃ t, exec (.elem d a k) s = .next t ∧ EndedWith .invalidElement s t) ∧
    (k.val < Config.NF → (s.slot k).valid = false →
      ∃ t, exec (.elem d a k) s = .next t ∧ EndedWith .slotInvalid s t) ∧
    (Config.NF ≤ k.val → ∃ t, exec (.elem d a k) s = .next t ∧ EndedWith .illegalCmd s t) ∧
    encode (.elem d a k) = formatR3 0x18 d a k

/-- R261: EVAL writes the element's value, zero-extended, to P[d]; an unwritten register gives UNINIT_ELEMENT. -/
def Obligations.EvalReadsTheElement : Prop :=
  ∀ (s : State) (d : PReg) (a : EReg),
    (Written s a → ∃ t, exec (.eval d a) s = .next t ∧ Succeeded s t { p := [d] } ∧ t.poly d = s.valOf a) ∧
    (¬ Written s a → ∃ t, exec (.eval d a) s = .next t ∧ EndedWith .uninitElement s t) ∧
    encode (.eval d a) = formatR2 0x19 d a

/-- R262, R263: EADD and ESUB write the XOR of the values, owned by the first operand's slot; an unwritten operand gives
UNINIT_ELEMENT, and operands of different fields FIELD_MISMATCH. -/
def Obligations.EaddAndEsubWriteTheXor : Prop :=
  ∀ (s : State) (d a b : EReg),
    (∀ i, i = .eadd d a b ∨ i = .esub d a b →
      (Written s a → Written s b → SameField s (s.ownerOf a) (s.ownerOf b) →
        ∃ t, exec i s = .next t ∧ Succeeded s t { e := [d] } ∧ Written t d ∧ t.ownerOf d = s.ownerOf a ∧
          t.valOf d = s.valOf a ^^^ s.valOf b) ∧
      (¬ (Written s a ∧ Written s b) → ∃ t, exec i s = .next t ∧ EndedWith .uninitElement s t) ∧
      (Written s a → Written s b → ¬ SameField s (s.ownerOf a) (s.ownerOf b) →
        ∃ t, exec i s = .next t ∧ EndedWith .fieldMismatch s t)) ∧
    encode (.eadd d a b) = formatR3 0x20 d a b ∧ encode (.esub d a b) = formatR3 0x21 d a b

/-- R264: ENEG copies E[a] to E[d]; an unwritten register gives UNINIT_ELEMENT. -/
def Obligations.EnegCopiesTheElement : Prop :=
  ∀ (s : State) (d a : EReg),
    (Written s a → ∃ t, exec (.eneg d a) s = .next t ∧ Succeeded s t { e := [d] } ∧ t.readE d = s.readE a) ∧
    (¬ Written s a → ∃ t, exec (.eneg d a) s = .next t ∧ EndedWith .uninitElement s t) ∧
    encode (.eneg d a) = formatR2 0x22 d a

/-- R268: EEQ writes 1 when both elements are of the same field and equal, else 0, and never FIELD_MISMATCH; an
unwritten operand gives UNINIT_ELEMENT. -/
def Obligations.EeqComparesFieldAndValue : Prop :=
  ∀ (s : State) (a b : EReg),
    (Written s a → Written s b → ∃ t, exec (.eeq a b) s = .next t ∧ Succeeded s t { result := true } ∧
      (SameField s (s.ownerOf a) (s.ownerOf b) ∧ s.valOf a = s.valOf b → t.result = 1) ∧
      (¬ (SameField s (s.ownerOf a) (s.ownerOf b) ∧ s.valOf a = s.valOf b) → t.result = 0)) ∧
    (¬ (Written s a ∧ Written s b) → ∃ t, exec (.eeq a b) s = .next t ∧ EndedWith .uninitElement s t) ∧
    encode (.eeq a b) = formatS2 0x26 a b

/-- R251, R253, R266, R267: the checks of the element arithmetic in their order: UNINIT_ELEMENT, FIELD_MISMATCH,
DIVISION_BY_ZERO. -/
def Obligations.ElementChecksInOrder : Prop :=
  ∀ (s : State) (d a b : EReg),
    (∀ i ∈ [Instr.eadd d a b, .esub d a b, .emul d a b, .ediv d a b],
      (¬ (Written s a ∧ Written s b) → ∃ t, exec i s = .next t ∧ EndedWith .uninitElement s t) ∧
      (Written s a → Written s b → ¬ SameField s (s.ownerOf a) (s.ownerOf b) →
        ∃ t, exec i s = .next t ∧ EndedWith .fieldMismatch s t)) ∧
    (Written s a → Written s b → SameField s (s.ownerOf a) (s.ownerOf b) → s.valOf b = 0 →
      ∃ t, exec (.ediv d a b) s = .next t ∧ EndedWith .divisionByZero s t) ∧
    (¬ Written s a → ∃ t, exec (.einv d a) s = .next t ∧ EndedWith .uninitElement s t) ∧
    (Written s a → s.valOf a = 0 → ∃ t, exec (.einv d a) s = .next t ∧ EndedWith .divisionByZero s t)

/-- R200, R230, R250, R252, R265, in every state: EMUL of two elements of one field writes an element owned by the first
operand's slot; in a Euclidean slot its value is rmod(clmul(a, b), f); in a table slot it is 0 for a zero operand, and
else ALOG[(LOG[a] + LOG[b]) mod N], where the tables hold these entries. -/
def Obligations.EmulByTheOwnersEngine : Prop :=
  ∀ (s : State) (d a b : EReg), Written s a → Written s b → SameField s (s.ownerOf a) (s.ownerOf b) →
    ∃ t, exec (.emul d a b) s = .next t ∧ Succeeded s t { e := [d] } ∧ Written t d ∧ t.ownerOf d = s.ownerOf a ∧
      ((s.slot (s.ownerOf a)).eng = .euclidean →
        (t.readE d).val = BitVec.ofNat 127 (rmod (clmul (s.valOf a) (s.valOf b)) (s.modulus (s.ownerOf a)))) ∧
      ((s.slot (s.ownerOf a)).eng = .table → s.valOf a = 0 ∨ s.valOf b = 0 → t.valOf d = 0) ∧
      (∀ x y z, (s.slot (s.ownerOf a)).eng = .table → s.valOf a ≠ 0 → s.valOf b ≠ 0 →
        (s.logOf (s.ownerOf a)).lookup (s.valOf a) = some x → (s.logOf (s.ownerOf a)).lookup (s.valOf b) = some y →
        (s.alogOf (s.ownerOf a)).lookup ((x.toNat + y.toNat) % s.orderOf (s.ownerOf a)) = some z →
        t.valOf d = z.toNat)

/-! ### The field arithmetic, by either engine -/

/-- R204, R230, R250, R265: in every state of the data invariant, EMUL of two elements of one field writes the field
product rmod(clmul(a, b), f), whichever engine the slot has. -/
def Obligations.EmulComputesTheFieldProduct : Prop :=
  ∀ (s : State) (d a b : EReg), DataInv s → Written s a → Written s b → SameField s (s.ownerOf a) (s.ownerOf b) →
    ∃ t, exec (.emul d a b) s = .next t ∧ Succeeded s t { e := [d] } ∧ Written t d ∧ t.ownerOf d = s.ownerOf a ∧
      t.valOf d = rmod (clmul (s.valOf a) (s.valOf b)) (s.modulus (s.ownerOf a))

/-- R231, R234, R267, R269: in every state of the data invariant, EINV of a nonzero element succeeds and writes the
inverse: an element of the field whose product with the operand is 1. -/
def Obligations.EinvComputesTheInverse : Prop :=
  ∀ (s : State) (d a : EReg), DataInv s → Written s a → s.valOf a ≠ 0 →
    ∃ t, exec (.einv d a) s = .next t ∧ Succeeded s t { e := [d] } ∧ Written t d ∧ t.ownerOf d = s.ownerOf a ∧
      deg (t.valOf d) < (s.degreeOf (s.ownerOf a) : Int) ∧
      rmod (clmul (s.valOf a) (t.valOf d)) (s.modulus (s.ownerOf a)) = 1

/-- R232, R266, R269: in every state of the data invariant, EDIV by a nonzero element of the same field succeeds and
writes the quotient: the element of the field whose product with the divisor is the dividend. -/
def Obligations.EdivComputesTheQuotient : Prop :=
  ∀ (s : State) (d a b : EReg), DataInv s → Written s a → Written s b → SameField s (s.ownerOf a) (s.ownerOf b) →
    s.valOf b ≠ 0 →
    ∃ t, exec (.ediv d a b) s = .next t ∧ Succeeded s t { e := [d] } ∧ Written t d ∧ t.ownerOf d = s.ownerOf a ∧
      deg (t.valOf d) < (s.degreeOf (s.ownerOf a) : Int) ∧
      rmod (clmul (t.valOf d) (s.valOf b)) (s.modulus (s.ownerOf a)) = s.valOf a

/-- R204: with a primitive generator the table engine and the Euclidean engine give the same product, quotient and
inverse on every operand. -/
def Obligations.EnginesAgree : Prop :=
  ∀ (s : State) (k : SlotIx), SlotInv s k → (s.slot k).valid = true → (s.slot k).eng = .table →
    ∀ a b : Poly, deg a < (s.degreeOf k : Int) → deg b < (s.degreeOf k : Int) →
      tblMul s k a b = eeaMul (s.modulus k) a b ∧
      (b ≠ 0 → eeaDiv (s.modulus k) a b = .ok (tblDiv s k a b)) ∧
      (a ≠ 0 → eeaInv (s.modulus k) a = .ok (tblInv s k a))

/-- R269: for a modulus f of degree M ≥ 1 the field product is commutative and associative, distributes over ⊕, has the
identity 1 on values of degree below M, and stays below degree M. -/
def Obligations.FieldProductLaws : Prop :=
  ∀ (f : Poly) (m : Nat), 1 ≤ m → deg f = (m : Int) → ∀ a b c : Poly,
    eeaMul f a b = eeaMul f b a ∧
    eeaMul f (eeaMul f a b) c = eeaMul f a (eeaMul f b c) ∧
    eeaMul f a (b ^^^ c) = eeaMul f a b ^^^ eeaMul f a c ∧
    (deg a < (m : Int) → eeaMul f a 1 = a) ∧
    deg (eeaMul f a b) < (m : Int)

/-- R231, R233, R234: for an irreducible modulus f of degree M, EEA_INV of every nonzero a of degree below M ends
without INTERNAL_INVARIANT, and its result, of degree below M, is the inverse of a modulo f. -/
def Obligations.EuclideanInverseIsTheInverse : Prop :=
  ∀ (f : Poly) (m : Nat) (a : Poly), 2 ≤ m → deg f = (m : Int) → IRRED f m → a ≠ 0 → deg a < (m : Int) →
    ∃ v, eeaInv f a = .ok v ∧ deg v < (m : Int) ∧ rmod (clmul v a) f = 1

/-! ### Whole-machine rules and invariants -/

/-- R302, R305, R345: every command completes in its one step, and either succeeds, writing at most what its rule lists,
or ends with one error, having changed nothing but the error report (the tables of a slot whose FCFG failed included, where
the model follows R305 and not R165: log entry 12). -/
def Obligations.EveryCommandSucceedsOrReportsOneError : Prop :=
  ∀ (i : Instr) (s : State), ∃ t, exec i s = .next t ∧
    (Succeeded s t (touchedBy i) ∨ ∃ c, EndedWith c s t)

/-- R24 ("Between the two, the slot cannot change"), R25: a command other than the FREL of its slot leaves a
constructed field and its tables as they are; and only an FCFG of that slot puts a field into a free one. -/
def Obligations.FieldsAreImmutableUntilFreed : Prop :=
  ∀ (i : Instr) (s t : State) (k : SlotIx), exec i s = .next t →
    ((s.slot k).valid = true → i ≠ .frel k →
      t.slot k = s.slot k ∧ t.alogOf k = s.alogOf k ∧ t.logOf k = s.logOf k) ∧
    ((s.slot k).valid = false → (t.slot k).valid = true →
      ∃ m pm e genx g, fcfgOperands s i = some (k, m, pm, e, genx, g))

/-- The invariants hold after reset (R38, R341): R23, R24 and R26, the error report, the protocol, the canonical form of
the table memories (the model's choice, log entry 6), and FATAL = 0. -/
def Obligations.ResetMeetsTheInvariants : Prop :=
  DataInv State.reset ∧ ReportInv State.reset ∧ ProtocolInv State.reset ∧ TablesCanonical State.reset ∧ State.reset.safe

/-- R23, R24, R26: every step of the block, whatever it does, keeps the invariants of slots, tables and elements: an
irreducible modulus of degree M, a primitive generator with the tables of R162, and elements of degree below M in slots
that hold a field. -/
def Obligations.EveryStepKeepsTheDataInvariant : Prop :=
  ∀ s t : State, DataInv s → step s = .next t → DataInv t

/-- R66, R300, R305, R306, R308: every step keeps the agreement of the error report with ERR, and that no command is in
flight in the error state. -/
def Obligations.EveryStepKeepsReportAndProtocol : Prop :=
  ∀ s t : State, ReportInv s → ProtocolInv s → step s = .next t → ReportInv t ∧ ProtocolInv t

/-- Every step keeps the table memories in canonical form (the form is the model's choice, log entry 6). -/
def Obligations.EveryStepKeepsTheTablesCanonical : Prop :=
  ∀ s t : State, TablesCanonical s → step s = .next t → TablesCanonical t

/-- R234, R307: INTERNAL_INVARIANT cannot occur: from a state of the data invariant no step sets FATAL. -/
def Obligations.NoStepSetsFatal : Prop :=
  ∀ s t : State, DataInv s → step s = .next t → t.status.fatal = true → s.status.fatal = true

/-- R307 ("only a reset clears it"): a step that clears FATAL is an assertion of the reset input or a write of CTRL with
SRST = 1. -/
def Obligations.OnlyAResetClearsFatal : Prop :=
  ∀ s t : State, step s = .next t → s.status.fatal = true → t.status.fatal = false →
    (∃ rest, s.schedule = .resetInput :: rest) ∨
    (∃ v rest, s.schedule = .write 0x010 4 v :: rest ∧ v.getLsbD 1 = true)

/-- R306: in the error state, with no command in flight, a step issues nothing; and unless it is a write of CTRL, a
write of the P window or a reset it leaves everything of the block as it was. -/
def Obligations.ErrorStateIssuesNothing : Prop :=
  ∀ s t : State, s.status.busy = false → s.status.err = true ∨ s.status.fatal = true → step s = .next t →
    t.status.busy = false ∧
    ((∀ v rest, s.schedule ≠ .write 0x010 4 v :: rest) → (∀ rest, s.schedule ≠ .resetInput :: rest) →
      (∀ off n v rest, s.schedule = .write off n v :: rest → off.toNat < 0x200 ∨ 0x400 ≤ off.toNat) →
      t = { s with schedule := t.schedule, readData := t.readData, draws := t.draws })

/-- R71, R72: while BUSY = 1 a host access other than a reset does not change what the command in flight will read or
has not yet written: P, E, FS, the tables, RESULT, ERRCMD and CMDLATCH stay as they are. -/
def Obligations.HostAccessesDoNotDisturbTheCommandInFlight : Prop :=
  ∀ (s t : State) (off : Offset) (n : Nat) (v : Word), s.status.busy = true →
    (hostRead off n s = .next t → t = { s with readData := t.readData, draws := t.draws }) ∧
    (hostWrite off n v s = .next t → (off = 0x010 → v.getLsbD 1 = false) →
      t = { s with status := t.status } ∧ t.status = { s.status with ovr := t.status.ovr })
end

