-- ==== Sys2Proof/Laws/Poly.lean ====
section
/-! SUPPORT. The arithmetic on bit vectors is the arithmetic of polynomials over ZMod 2: the bridge `toPoly`, which turns
XOR, shift, clmul, pdivmod, IRRED and pgcd into addition, multiplication by a power of X, multiplication, division with
remainder, irreducibility and common divisors in Mathlib's (ZMod 2)[X]. -/

namespace Sys2Proof.Machine

open Polynomial

/-- deg of the zero polynomial is the sentinel −1. -/
theorem deg_zero : deg 0 = -1 := rfl
/-- deg of a nonzero polynomial is the index of its highest set bit. -/
theorem deg_of_ne_zero {p : Poly} (h : p ≠ 0) : deg p = (p.log2 : Int) := by simp [deg, h]
/-- deg is at least −1. -/
theorem neg_one_le_deg (p : Poly) : -1 ≤ deg p := by
  unfold deg; split <;> omega
/-- deg p < n says that p fits in n bits. -/
theorem deg_lt_iff {p : Poly} {n : Nat} : deg p < (n : Int) ↔ p < 2 ^ n := by
  by_cases h : p = 0
  · subst h; simp [deg_zero]; omega
  · rw [deg_of_ne_zero h, Nat.cast_lt, Nat.log2_lt h]
/-- Only the zero polynomial has degree −1. -/
theorem deg_eq_neg_one_iff {p : Poly} : deg p = -1 ↔ p = 0 := by
  constructor
  · intro h; by_contra hp; rw [deg_of_ne_zero hp] at h; omega
  · rintro rfl; rfl
/-- Bits above the degree are 0. -/
theorem testBit_of_deg_lt {p : Poly} {n : Nat} (h : deg p < (n : Int)) : p.testBit n = false :=
  Nat.testBit_lt_two_pow (deg_lt_iff.1 h)
/-- width is deg + 1. -/
theorem width_eq (p : Poly) : (width p : Int) = deg p + 1 := by
  have := neg_one_le_deg p; unfold width; omega
/-- A polynomial fits in its width. -/
theorem lt_two_pow_width (p : Poly) : p < 2 ^ width p := by
  rw [← deg_lt_iff, width_eq]; omega

/-- The polynomial of (ZMod 2)[X] that a bit vector stands for (R10). -/
noncomputable def toPoly (p : Poly) : (ZMod 2)[X] := ∑ i ∈ Finset.range (width p), if p.testBit i then X ^ i else 0

/-- Coefficient n is bit n. -/
theorem toPoly_coeff (p : Poly) (n : Nat) : (toPoly p).coeff n = if p.testBit n then 1 else 0 := by
  have h : ∀ i, (if p.testBit i then (X ^ i : (ZMod 2)[X]) else 0).coeff n
      = if n = i then (if p.testBit n then 1 else 0) else 0 := by
    intro i
    by_cases hi : n = i
    · subst hi; split <;> simp
    · split <;> simp [coeff_X_pow, hi]
  rw [toPoly, finsetSum_coeff]
  simp only [h, Finset.sum_ite_eq, Finset.mem_range]
  split
  · rfl
  · rename_i hn
    rw [testBit_of_deg_lt (by have := width_eq p; omega)]; rfl

/-- Different bit vectors stand for different polynomials. -/
theorem toPoly_injective {p q : Poly} (h : toPoly p = toPoly q) : p = q := by
  refine Nat.eq_of_testBit_eq fun i => ?_
  have := congrArg (fun r => r.coeff i) h
  simp only [toPoly_coeff] at this
  cases hp : p.testBit i <;> cases hq : q.testBit i <;> simp_all

/-- XOR is addition. -/
theorem toPoly_xor (p q : Poly) : toPoly (p ^^^ q) = toPoly p + toPoly q := by
  ext n
  simp only [coeff_add, toPoly_coeff, Nat.testBit_xor]
  cases p.testBit n <;> cases q.testBit n <;> decide

/-- 0 stands for 0. -/
theorem toPoly_zero : toPoly 0 = 0 := by ext n; simp [toPoly_coeff]
/-- 1 stands for 1. -/
theorem toPoly_one : toPoly 1 = 1 := by
  ext n; simp [toPoly_coeff, coeff_one, Nat.testBit_one_eq_true_iff_self_eq_zero]
/-- A left shift by n multiplies by X^n. -/
theorem toPoly_shiftLeft (p : Poly) (n : Nat) : toPoly (p <<< n) = toPoly p * X ^ n := by
  ext i
  rw [toPoly_coeff, coeff_mul_X_pow', Nat.testBit_shiftLeft]
  by_cases h : n ≤ i <;> simp [h, toPoly_coeff]
/-- 0b10 stands for X. -/
theorem toPoly_two : toPoly 2 = X := by
  have := toPoly_shiftLeft 1 1
  simpa [toPoly_one] using this
/-- Only 0 stands for 0. -/
theorem toPoly_eq_zero {p : Poly} : toPoly p = 0 ↔ p = 0 :=
  ⟨fun h => toPoly_injective (by rw [h, toPoly_zero]), fun h => by rw [h, toPoly_zero]⟩

/-- clmul is multiplication. -/
theorem toPoly_clmul (a b : Poly) : toPoly (clmul a b) = toPoly a * toPoly b := by
  have h : ∀ n acc, toPoly ((List.range n).foldl (fun acc i => if b.testBit i then acc ^^^ (a <<< i) else acc) acc)
      = toPoly acc + toPoly a * ∑ i ∈ Finset.range n, if b.testBit i then X ^ i else 0 := by
    intro n
    induction n with
    | zero => simp
    | succ n ih =>
      intro acc
      rw [List.range_succ, List.foldl_append, Finset.sum_range_succ]
      simp only [List.foldl_cons, List.foldl_nil]
      split
      · rw [toPoly_xor, ih, toPoly_shiftLeft]; ring
      · rw [ih]; ring
  rw [clmul, h, toPoly_zero, zero_add]; rfl

/-- The degree as a natural number. -/
theorem natDegree_toPoly {p : Poly} (h : p ≠ 0) : (toPoly p).natDegree = p.log2 := by
  refine le_antisymm (natDegree_le_iff_coeff_eq_zero.2 fun i hi => ?_) (le_natDegree_of_ne_zero ?_)
  · rw [toPoly_coeff, testBit_of_deg_lt (by rw [deg_of_ne_zero h]; exact_mod_cast hi)]; rfl
  · rw [toPoly_coeff, Nat.testBit_log2 h]; simp
/-- The degree of a nonzero polynomial. -/
theorem degree_toPoly {p : Poly} (h : p ≠ 0) : (toPoly p).degree = (p.log2 : WithBot Nat) := by
  rw [degree_eq_natDegree (by rwa [Ne, toPoly_eq_zero]), natDegree_toPoly h]

/-- Degrees compare as deg compares. -/
theorem degree_lt_degree {p q : Poly} : (toPoly p).degree < (toPoly q).degree ↔ deg p < deg q := by
  by_cases hp : p = 0 <;> by_cases hq : q = 0
  · simp [hp, hq]
  · simp [hp, toPoly_zero, deg_zero, deg_of_ne_zero hq, degree_toPoly hq]; omega
  · simp [hq, toPoly_zero, deg_zero, deg_of_ne_zero hp]
  · rw [degree_toPoly hp, degree_toPoly hq, deg_of_ne_zero hp, deg_of_ne_zero hq]; simp

/-- A nonzero polynomial over ZMod 2 is monic. -/
theorem leadingCoeff_toPoly {p : Poly} (h : p ≠ 0) : (toPoly p).Monic := by
  rw [Monic, leadingCoeff, natDegree_toPoly h, toPoly_coeff, Nat.testBit_log2 h]; rfl

/-- One division step lowers the degree. -/
theorem deg_cancel {b r : Poly} (hb : b ≠ 0) (h : deg b ≤ deg r) :
    deg (r ^^^ (b <<< (deg r - deg b).toNat)) < deg r := by
  have hr : r ≠ 0 := by rintro rfl; rw [deg_zero, deg_of_ne_zero hb] at h; omega
  have hX := leadingCoeff_toPoly hb
  rw [← degree_lt_degree, toPoly_xor, toPoly_shiftLeft, ← CharTwo.sub_eq_add]
  refine degree_sub_lt_left ?_ (by rwa [Ne, toPoly_eq_zero]) ?_
  · rw [degree_mul, degree_X_pow, degree_toPoly hr, degree_toPoly hb]
    have e : r.log2 = b.log2 + (deg r - deg b).toNat := by
      rw [deg_of_ne_zero hr, deg_of_ne_zero hb] at *; omega
    exact_mod_cast e
  · rw [leadingCoeff_toPoly hr, leadingCoeff_mul_X_pow, hX]

/-- The division loop keeps dividend = quotient * divisor + remainder and ends below the divisor's degree. -/
theorem divLoop_spec {b : Poly} (hb : b ≠ 0) : ∀ (n : Nat) (q r : Poly), deg r < (n : Int) →
    toPoly (divLoop b n q r).1 * toPoly b + toPoly (divLoop b n q r).2 = toPoly q * toPoly b + toPoly r ∧
      deg (divLoop b n q r).2 < deg b := by
  intro n
  induction n with
  | zero =>
    intro q r h
    have h0 : r = 0 := by rw [← deg_eq_neg_one_iff]; have := neg_one_le_deg r; omega
    refine ⟨rfl, ?_⟩
    subst h0
    rw [deg_of_ne_zero hb]
    simp only [divLoop, deg_zero]; omega
  | succ n ih =>
    intro q r h
    by_cases hle : deg b ≤ deg r
    · have hlt := deg_cancel hb hle
      have hstep : divLoop b (n + 1) q r = divLoop b n (q ^^^ (1 <<< (deg r - deg b).toNat))
          (r ^^^ (b <<< (deg r - deg b).toNat)) := by rw [divLoop, if_pos hle]
      obtain ⟨h1, h2⟩ := ih (q ^^^ (1 <<< (deg r - deg b).toNat)) (r ^^^ (b <<< (deg r - deg b).toNat)) (by omega)
      rw [hstep]
      refine ⟨h1.trans ?_, h2⟩
      rw [toPoly_xor, toPoly_xor, toPoly_shiftLeft, toPoly_shiftLeft, toPoly_one]
      have := CharTwo.add_self_eq_zero (toPoly b * X ^ (deg r - deg b).toNat)
      linear_combination this
    · have hstep : divLoop b (n + 1) q r = (q, r) := by rw [divLoop, if_neg hle]
      rw [hstep]
      exact ⟨rfl, not_le.1 hle⟩

/-- Quotient and remainder of a division by a nonzero divisor. -/
theorem pdivmod_spec (a : Poly) {b : Poly} (hb : b ≠ 0) :
    toPoly (pdivmod a b).1 * toPoly b + toPoly (pdivmod a b).2 = toPoly a ∧ deg (pdivmod a b).2 < deg b := by
  have h := divLoop_spec hb (width a) 0 a (by rw [width_eq]; omega)
  rw [pdivmod, if_neg hb]
  simpa [toPoly_zero] using h

/-- The remainder's degree is below the divisor's. -/
theorem deg_rmod_lt (a : Poly) {b : Poly} (hb : b ≠ 0) : deg (rmod a b) < deg b := (pdivmod_spec a hb).2

/-- pdivmod is Mathlib's division with remainder. -/
theorem toPoly_divmod (a : Poly) {b : Poly} (hb : b ≠ 0) :
    toPoly (pdivmod a b).1 = toPoly a / toPoly b ∧ toPoly (rmod a b) = toPoly a % toPoly b := by
  obtain ⟨h1, h2⟩ := pdivmod_spec a hb
  have hm := leadingCoeff_toPoly hb
  have := div_modByMonic_unique (f := toPoly a) (toPoly (pdivmod a b).1) (toPoly (pdivmod a b).2) hm
    ⟨by rw [← h1]; ring, degree_lt_degree.2 h2⟩
  rw [← divByMonic_eq_div _ hm, ← modByMonic_eq_mod _ hm]
  exact ⟨this.1.symm, this.2.symm⟩

/-- Every polynomial over ZMod 2 comes from a bit vector. -/
theorem exists_toPoly (P : (ZMod 2)[X]) : ∃ p : Poly, toPoly p = P := by
  induction P using Polynomial.induction_on' with
  | add p q hp hq =>
    obtain ⟨a, rfl⟩ := hp; obtain ⟨b, rfl⟩ := hq
    exact ⟨a ^^^ b, toPoly_xor a b⟩
  | monomial n c =>
    by_cases hc : c = 0
    · exact ⟨0, by simp [hc, toPoly_zero]⟩
    · have : c = 1 := by revert hc; revert c; decide
      exact ⟨1 <<< n, by rw [toPoly_shiftLeft, toPoly_one, this, one_mul, monomial_one_right_eq_X_pow]⟩

/-- The remainder is 0 exactly when the divisor divides. -/
theorem rmod_eq_zero_iff {a b : Poly} (hb : b ≠ 0) : rmod a b = 0 ↔ toPoly b ∣ toPoly a := by
  rw [← toPoly_eq_zero, (toPoly_divmod a hb).2]
  exact EuclideanDomain.mod_eq_zero

/-- A polynomial whose degree is a natural number is not 0. -/
theorem natDegree_eq_of_deg {f : Poly} {m : Nat} (h : deg f = (m : Int)) : (toPoly f).natDegree = m ∧ f ≠ 0 := by
  have hf : f ≠ 0 := by rintro rfl; rw [deg_zero] at h; omega
  rw [deg_of_ne_zero hf] at h
  exact ⟨by rw [natDegree_toPoly hf]; omega, hf⟩

/-- IRRED is irreducibility in (ZMod 2)[X] (R160). -/
theorem irred_iff {f : Poly} {m : Nat} (hm : 1 ≤ m) (h : deg f = (m : Int)) : IRRED f m ↔ Irreducible (toPoly f) := by
  obtain ⟨hd, hf⟩ := natDegree_eq_of_deg h
  have hf1 : toPoly f ≠ 1 := by intro h1; rw [h1, natDegree_one] at hd; omega
  rw [(leadingCoeff_toPoly hf).irreducible_iff_lt_natDegree_lt hf1, hd]
  constructor
  · intro H q hq hI hdvd
    obtain ⟨p, rfl⟩ := exists_toPoly q
    have hp : p ≠ 0 := by rintro rfl; simp [toPoly_zero] at hq
    rw [natDegree_toPoly hp, Finset.mem_Ioc] at hI
    exact H p (by rw [deg_of_ne_zero hp]; omega) (by rw [deg_of_ne_zero hp]; omega) ((rmod_eq_zero_iff hp).2 hdvd)
  · intro H p h1 h2 h0
    have hp : p ≠ 0 := by rintro rfl; rw [deg_zero] at h1; omega
    rw [deg_of_ne_zero hp] at h1 h2
    exact H (toPoly p) (leadingCoeff_toPoly hp) (by rw [natDegree_toPoly hp, Finset.mem_Ioc]; omega) ((rmod_eq_zero_iff hp).1 h0)

/-- The divisors of gcdLoop's result are the common divisors. -/
theorem gcdLoop_dvd : ∀ (n : Nat) (a b : Poly), deg b < (n : Int) - 1 ∨ b = 0 ∧ 0 < n  → ∀ d : (ZMod 2)[X],
    d ∣ toPoly (gcdLoop n a b) ↔ d ∣ toPoly a ∧ d ∣ toPoly b := by
  intro n
  induction n with
  | zero => intro a b h; have := neg_one_le_deg b; omega
  | succ n ih =>
    intro a b h d
    by_cases hb : b = 0
    · simp [gcdLoop, hb, toPoly_zero]
    · have hlt := deg_rmod_lt a hb
      have e : gcdLoop (n+1) a b = gcdLoop n b (rmod a b) := by rw [gcdLoop, if_neg hb]
      have := neg_one_le_deg (rmod a b)
      rw [e, ih _ _ (by
        by_cases h0 : rmod a b = 0
        · right; exact ⟨h0, by simp [hb] at h; omega⟩
        · left; simp [hb] at h; omega), (toPoly_divmod a hb).2]
      constructor
      · rintro ⟨h1, h2⟩; exact ⟨(EuclideanDomain.dvd_mod_iff h1).1 h2, h1⟩
      · rintro ⟨h1, h2⟩; exact ⟨h2, (EuclideanDomain.dvd_mod_iff h2).2 h1⟩

/-- The divisors of pgcd are the common divisors. -/
theorem pgcd_dvd (a b : Poly) (d : (ZMod 2)[X]) : d ∣ toPoly (pgcd a b) ↔ d ∣ toPoly a ∧ d ∣ toPoly b := by
  refine gcdLoop_dvd _ a b ?_ d
  by_cases hb : b = 0
  · right; exact ⟨hb, by omega⟩
  · left; have := width_eq b; push_cast; omega

/-! ### Remainders and the powers of a generator -/

/-- deg 1 = 0. -/
theorem deg_one : deg 1 = 0 := by decide

/-- Two remainders by f are equal exactly when f divides the difference. -/
theorem rmod_eq_rmod_iff {a b f : Poly} (hf : f ≠ 0) : rmod a f = rmod b f ↔ toPoly f ∣ toPoly a - toPoly b := by
  have e := sub_mod (toPoly a) (toPoly b) (toPoly f)
  rw [← (toPoly_divmod a hf).2, ← (toPoly_divmod b hf).2] at e
  rw [← EuclideanDomain.mod_eq_zero, e, sub_eq_zero]
  exact ⟨fun h => by rw [h], fun h => toPoly_injective h⟩

/-- A value of degree below f is its own remainder. -/
theorem rmod_of_deg_lt {a f : Poly} (h : deg a < deg f) : rmod a f = a := by
  have hf : f ≠ 0 := by rintro rfl; rw [deg_zero] at h; have := neg_one_le_deg a; omega
  apply toPoly_injective
  rw [(toPoly_divmod a hf).2, ← modByMonic_eq_mod _ (leadingCoeff_toPoly hf)]
  exact (modByMonic_eq_self_iff (leadingCoeff_toPoly hf)).2 (degree_lt_degree.2 h)

/-- f divides the difference between a remainder and what it is a remainder of. -/
theorem dvd_rmod_sub (a : Poly) {f : Poly} (hf : f ≠ 0) : toPoly f ∣ toPoly (rmod a f) - toPoly a := by
  rw [(toPoly_divmod a hf).2, EuclideanDomain.mod_eq_sub_mul_div]
  exact ⟨-(toPoly a / toPoly f), by ring⟩

/-- pow(g, i) is g to the i modulo f. -/
theorem dvd_genPow_sub (g : Poly) {f : Poly} (hf : f ≠ 0) : ∀ i, toPoly f ∣ toPoly (genPow g f i) - toPoly g ^ i := by
  intro i
  induction i with
  | zero => simp [genPow, toPoly_one]
  | succ i ih =>
    have h1 := dvd_rmod_sub (clmul (genPow g f i) g) hf
    rw [toPoly_clmul] at h1
    have h2 := dvd_add h1 (ih.mul_right (toPoly g))
    have e : toPoly (genPow g f (i + 1)) - toPoly g ^ (i + 1) = toPoly (rmod (clmul (genPow g f i) g) f) -
        toPoly (genPow g f i) * toPoly g + (toPoly (genPow g f i) - toPoly g ^ i) * toPoly g := by
      rw [genPow]; ring
    rw [e]; exact h2

/-- Every power has degree below that of the modulus. -/
theorem deg_genPow_lt (g : Poly) {f : Poly} {m : Nat} (hm : 1 ≤ m) (h : deg f = (m : Int)) (i : Nat) :
    deg (genPow g f i) < (m : Int) := by
  obtain ⟨-, hf⟩ := natDegree_eq_of_deg h
  cases i with
  | zero => rw [genPow, deg_one]; omega
  | succ i => rw [genPow, ← h]; exact deg_rmod_lt _ hf

/-- A modulus of positive degree does not divide a nonzero value of smaller degree. -/
theorem not_dvd_of_deg_lt {a f : Poly} (ha : a ≠ 0) (h : deg a < deg f) : ¬ toPoly f ∣ toPoly a := by
  intro hd
  have := degree_le_of_dvd hd (by rwa [Ne, toPoly_eq_zero])
  exact absurd (degree_lt_degree.2 h) (not_lt.2 this)

/-- The powers of a primitive element, below the group order, are distinct. -/
theorem genPow_inj {g f : Poly} {m : Nat} (hm : 1 ≤ m) (h : deg f = (m : Int)) (hI : Irreducible (toPoly f))
    (hp : PRIMITIVE g f m) {i j : Nat} (hi : i < groupOrder m) (hj : j < groupOrder m)
    (he : genPow g f i = genPow g f j) : i = j := by
  obtain ⟨-, hf⟩ := natDegree_eq_of_deg h
  obtain ⟨hg, hgd, ho⟩ := hp
  have key : ∀ i j, i < j → j < groupOrder m → genPow g f i = genPow g f j → False := by
    intro i j hij hj he
    have h1 := dvd_genPow_sub g hf i
    have h2 := dvd_genPow_sub g hf j
    rw [he] at h1
    have h3 : toPoly f ∣ toPoly g ^ i * (toPoly g ^ (j - i) - 1) := by
      have := dvd_sub h1 h2
      have e : toPoly g ^ j = toPoly g ^ i * toPoly g ^ (j - i) := by rw [← pow_add]; congr 1; omega
      rw [e] at this
      have e2 : toPoly g ^ i * (toPoly g ^ (j - i) - 1) = (toPoly (genPow g f j) - toPoly g ^ i -
        (toPoly (genPow g f j) - toPoly g ^ i * toPoly g ^ (j - i))) := by ring
      rw [e2]; exact this
    rcases hI.prime.dvd_or_dvd h3 with h4 | h4
    · exact not_dvd_of_deg_lt hg (by rw [h]; exact hgd) (hI.prime.dvd_of_dvd_pow h4)
    · have h5 := dvd_genPow_sub g hf (j - i)
      have h6 : toPoly f ∣ toPoly (genPow g f (j - i)) - toPoly 1 := by
        rw [toPoly_one]; have := dvd_add h5 h4; simpa using this
      rw [← rmod_eq_rmod_iff hf, rmod_of_deg_lt (by rw [h]; exact deg_genPow_lt g hm h _),
        rmod_of_deg_lt (by rw [h, deg_one]; omega)] at h6
      exact ho (j - i) (by omega) (by omega) h6
  rcases lt_trichotomy i j with h1 | h1 | h1
  · exact absurd he (fun he => key i j h1 hj he)
  · exact h1
  · exact absurd he.symm (fun he => key j i h1 hi he)

/-- No power of a nonzero element is 0 modulo an irreducible modulus. -/
theorem genPow_ne_zero {g f : Poly} {m : Nat} (h : deg f = (m : Int)) (hI : Irreducible (toPoly f))
    (hg : g ≠ 0) (hgd : deg g < (m : Int)) (i : Nat) : genPow g f i ≠ 0 := by
  obtain ⟨-, hf⟩ := natDegree_eq_of_deg h
  intro h0
  have := dvd_genPow_sub g hf i
  rw [h0, toPoly_zero, zero_sub, dvd_neg] at this
  exact not_dvd_of_deg_lt hg (by rw [h]; exact hgd) (hI.prime.dvd_of_dvd_pow this)

/-- The powers of a primitive element are all the nonzero elements. -/
theorem exists_genPow {g f : Poly} {m : Nat} (hm : 1 ≤ m) (h : deg f = (m : Int)) (hI : Irreducible (toPoly f))
    (hp : PRIMITIVE g f m) {v : Nat} (h1 : 1 ≤ v) (h2 : v ≤ groupOrder m) :
    ∃ i, i < groupOrder m ∧ genPow g f i = v := by
  have hs : (Finset.range (groupOrder m)).image (genPow g f) = Finset.Icc 1 (groupOrder m) := by
    apply Finset.eq_of_subset_of_card_le
    · intro x hx
      rw [Finset.mem_image] at hx
      obtain ⟨i, hi, rfl⟩ := hx
      rw [Finset.mem_Icc]
      have a := genPow_ne_zero h hI hp.1 hp.2.1 i
      have b := deg_lt_iff.1 (deg_genPow_lt g hm h i)
      have c := Nat.two_pow_pos m
      unfold groupOrder
      exact ⟨Nat.one_le_iff_ne_zero.2 a, Nat.le_sub_one_of_lt b⟩
    · rw [Finset.card_image_of_injOn]
      · simp
      · intro i hi j hj he
        exact genPow_inj hm h hI hp (by simpa using hi) (by simpa using hj) he
  have : v ∈ (Finset.range (groupOrder m)).image (genPow g f) := by rw [hs, Finset.mem_Icc]; exact ⟨h1, h2⟩
  rw [Finset.mem_image] at this
  obtain ⟨i, hi, he⟩ := this
  exact ⟨i, by simpa using hi, he⟩

end Sys2Proof.Machine
end

