-- ==== Sys2Proof/Laws/State.lean ====
section
/-! SUPPORT. What each update of the state does to each field, one lemma per field per update, so that no later proof
unfolds a record update; and the registers, slots and tables read after such an update. -/

namespace Sys2Proof.Machine

variable (s : State)

/-! ### writeP -/
@[simp] theorem State.writeP_p (i : PReg) (v : PolyWord) : (s.writeP i v).p = s.p.set i v := rfl
@[simp] theorem State.writeP_e (i : PReg) (v : PolyWord) : (s.writeP i v).e = s.e := rfl
@[simp] theorem State.writeP_fs (i : PReg) (v : PolyWord) : (s.writeP i v).fs = s.fs := rfl
@[simp] theorem State.writeP_alog (i : PReg) (v : PolyWord) : (s.writeP i v).alog = s.alog := rfl
@[simp] theorem State.writeP_log (i : PReg) (v : PolyWord) : (s.writeP i v).log = s.log := rfl
@[simp] theorem State.writeP_result (i : PReg) (v : PolyWord) : (s.writeP i v).result = s.result := rfl
@[simp] theorem State.writeP_status (i : PReg) (v : PolyWord) : (s.writeP i v).status = s.status := rfl
@[simp] theorem State.writeP_errcmd (i : PReg) (v : PolyWord) : (s.writeP i v).errcmd = s.errcmd := rfl
@[simp] theorem State.writeP_cmdLatch (i : PReg) (v : PolyWord) : (s.writeP i v).cmdLatch = s.cmdLatch := rfl
@[simp] theorem State.writeP_schedule (i : PReg) (v : PolyWord) : (s.writeP i v).schedule = s.schedule := rfl
@[simp] theorem State.writeP_readData (i : PReg) (v : PolyWord) : (s.writeP i v).readData = s.readData := rfl
@[simp] theorem State.writeP_draws (i : PReg) (v : PolyWord) : (s.writeP i v).draws = s.draws := rfl

/-! ### writeE -/
@[simp] theorem State.writeE_p (i : EReg) (v : ElemReg) : (s.writeE i v).p = s.p := rfl
@[simp] theorem State.writeE_e (i : EReg) (v : ElemReg) : (s.writeE i v).e = s.e.set i v := rfl
@[simp] theorem State.writeE_fs (i : EReg) (v : ElemReg) : (s.writeE i v).fs = s.fs := rfl
@[simp] theorem State.writeE_alog (i : EReg) (v : ElemReg) : (s.writeE i v).alog = s.alog := rfl
@[simp] theorem State.writeE_log (i : EReg) (v : ElemReg) : (s.writeE i v).log = s.log := rfl
@[simp] theorem State.writeE_result (i : EReg) (v : ElemReg) : (s.writeE i v).result = s.result := rfl
@[simp] theorem State.writeE_status (i : EReg) (v : ElemReg) : (s.writeE i v).status = s.status := rfl
@[simp] theorem State.writeE_errcmd (i : EReg) (v : ElemReg) : (s.writeE i v).errcmd = s.errcmd := rfl
@[simp] theorem State.writeE_cmdLatch (i : EReg) (v : ElemReg) : (s.writeE i v).cmdLatch = s.cmdLatch := rfl
@[simp] theorem State.writeE_schedule (i : EReg) (v : ElemReg) : (s.writeE i v).schedule = s.schedule := rfl
@[simp] theorem State.writeE_readData (i : EReg) (v : ElemReg) : (s.writeE i v).readData = s.readData := rfl
@[simp] theorem State.writeE_draws (i : EReg) (v : ElemReg) : (s.writeE i v).draws = s.draws := rfl

/-! ### writeResult -/
@[simp] theorem State.writeResult_p (v : Word) : (s.writeResult v).p = s.p := rfl
@[simp] theorem State.writeResult_e (v : Word) : (s.writeResult v).e = s.e := rfl
@[simp] theorem State.writeResult_fs (v : Word) : (s.writeResult v).fs = s.fs := rfl
@[simp] theorem State.writeResult_alog (v : Word) : (s.writeResult v).alog = s.alog := rfl
@[simp] theorem State.writeResult_log (v : Word) : (s.writeResult v).log = s.log := rfl
@[simp] theorem State.writeResult_result (v : Word) : (s.writeResult v).result = v := rfl
@[simp] theorem State.writeResult_status (v : Word) : (s.writeResult v).status = s.status := rfl
@[simp] theorem State.writeResult_errcmd (v : Word) : (s.writeResult v).errcmd = s.errcmd := rfl
@[simp] theorem State.writeResult_cmdLatch (v : Word) : (s.writeResult v).cmdLatch = s.cmdLatch := rfl
@[simp] theorem State.writeResult_schedule (v : Word) : (s.writeResult v).schedule = s.schedule := rfl
@[simp] theorem State.writeResult_readData (v : Word) : (s.writeResult v).readData = s.readData := rfl
@[simp] theorem State.writeResult_draws (v : Word) : (s.writeResult v).draws = s.draws := rfl

/-! ### draw -/
@[simp] theorem State.draw_p : s.draw.p = s.p := rfl
@[simp] theorem State.draw_e : s.draw.e = s.e := rfl
@[simp] theorem State.draw_fs : s.draw.fs = s.fs := rfl
@[simp] theorem State.draw_alog : s.draw.alog = s.alog := rfl
@[simp] theorem State.draw_log : s.draw.log = s.log := rfl
@[simp] theorem State.draw_result : s.draw.result = s.result := rfl
@[simp] theorem State.draw_status : s.draw.status = s.status := rfl
@[simp] theorem State.draw_errcmd : s.draw.errcmd = s.errcmd := rfl
@[simp] theorem State.draw_cmdLatch : s.draw.cmdLatch = s.cmdLatch := rfl
@[simp] theorem State.draw_schedule : s.draw.schedule = s.schedule := rfl
@[simp] theorem State.draw_readData : s.draw.readData = s.readData := rfl
@[simp] theorem State.draw_draws : s.draw.draws = s.draws + 1 := rfl

/-! ### clearOwned -/
@[simp] theorem State.clearOwned_p (k : SlotIx) : (s.clearOwned k).p = s.p := by rw [State.clearOwned]
@[simp] theorem State.clearOwned_e (k : SlotIx) : (s.clearOwned k).e =
    Vector.ofFn (fun i => if s.e[i].wr ∧ s.e[i].fs = k then { s.e[i] with wr := false } else s.e[i]) := by
  rw [State.clearOwned]
@[simp] theorem State.clearOwned_fs (k : SlotIx) : (s.clearOwned k).fs = s.fs := by rw [State.clearOwned]
@[simp] theorem State.clearOwned_alog (k : SlotIx) : (s.clearOwned k).alog = s.alog := by rw [State.clearOwned]
@[simp] theorem State.clearOwned_log (k : SlotIx) : (s.clearOwned k).log = s.log := by rw [State.clearOwned]
@[simp] theorem State.clearOwned_result (k : SlotIx) : (s.clearOwned k).result = s.result := by rw [State.clearOwned]
@[simp] theorem State.clearOwned_status (k : SlotIx) : (s.clearOwned k).status = s.status := by rw [State.clearOwned]
@[simp] theorem State.clearOwned_errcmd (k : SlotIx) : (s.clearOwned k).errcmd = s.errcmd := by rw [State.clearOwned]
@[simp] theorem State.clearOwned_cmdLatch (k : SlotIx) : (s.clearOwned k).cmdLatch = s.cmdLatch := by rw [State.clearOwned]
@[simp] theorem State.clearOwned_schedule (k : SlotIx) : (s.clearOwned k).schedule = s.schedule := by rw [State.clearOwned]
@[simp] theorem State.clearOwned_readData (k : SlotIx) : (s.clearOwned k).readData = s.readData := by rw [State.clearOwned]
@[simp] theorem State.clearOwned_draws (k : SlotIx) : (s.clearOwned k).draws = s.draws := by rw [State.clearOwned]

/-! ### issue -/
@[simp] theorem State.issue_p (v : Word) : (s.issue v).p = s.p := rfl
@[simp] theorem State.issue_e (v : Word) : (s.issue v).e = s.e := rfl
@[simp] theorem State.issue_fs (v : Word) : (s.issue v).fs = s.fs := rfl
@[simp] theorem State.issue_alog (v : Word) : (s.issue v).alog = s.alog := rfl
@[simp] theorem State.issue_log (v : Word) : (s.issue v).log = s.log := rfl
@[simp] theorem State.issue_result (v : Word) : (s.issue v).result = s.result := rfl
@[simp] theorem State.issue_status (v : Word) : (s.issue v).status = { s.status with busy := true } := rfl
@[simp] theorem State.issue_errcmd (v : Word) : (s.issue v).errcmd = s.errcmd := rfl
@[simp] theorem State.issue_cmdLatch (v : Word) : (s.issue v).cmdLatch = v := rfl
@[simp] theorem State.issue_schedule (v : Word) : (s.issue v).schedule = s.schedule := rfl
@[simp] theorem State.issue_readData (v : Word) : (s.issue v).readData = s.readData := rfl
@[simp] theorem State.issue_draws (v : Word) : (s.issue v).draws = s.draws := rfl

/-! ### retire -/
@[simp] theorem State.retire_p : s.retire.p = s.p := rfl
@[simp] theorem State.retire_e : s.retire.e = s.e := rfl
@[simp] theorem State.retire_fs : s.retire.fs = s.fs := rfl
@[simp] theorem State.retire_alog : s.retire.alog = s.alog := rfl
@[simp] theorem State.retire_log : s.retire.log = s.log := rfl
@[simp] theorem State.retire_result : s.retire.result = s.result := rfl
@[simp] theorem State.retire_status : s.retire.status = { s.status with busy := false } := rfl
@[simp] theorem State.retire_errcmd : s.retire.errcmd = s.errcmd := rfl
@[simp] theorem State.retire_cmdLatch : s.retire.cmdLatch = s.cmdLatch := rfl
@[simp] theorem State.retire_schedule : s.retire.schedule = s.schedule := rfl
@[simp] theorem State.retire_readData : s.retire.readData = s.readData := rfl
@[simp] theorem State.retire_draws : s.retire.draws = s.draws := rfl

/-! ### errorEntry -/
@[simp] theorem State.errorEntry_p (c : Err) : (s.errorEntry c).p = s.p := rfl
@[simp] theorem State.errorEntry_e (c : Err) : (s.errorEntry c).e = s.e := rfl
@[simp] theorem State.errorEntry_fs (c : Err) : (s.errorEntry c).fs = s.fs := rfl
@[simp] theorem State.errorEntry_alog (c : Err) : (s.errorEntry c).alog = s.alog := rfl
@[simp] theorem State.errorEntry_log (c : Err) : (s.errorEntry c).log = s.log := rfl
@[simp] theorem State.errorEntry_result (c : Err) : (s.errorEntry c).result = s.result := rfl
@[simp] theorem State.errorEntry_status (c : Err) : (s.errorEntry c).status = s.status.report c s.cmdLatch := rfl
@[simp] theorem State.errorEntry_errcmd (c : Err) : (s.errorEntry c).errcmd = s.cmdLatch := rfl
@[simp] theorem State.errorEntry_cmdLatch (c : Err) : (s.errorEntry c).cmdLatch = s.cmdLatch := rfl
@[simp] theorem State.errorEntry_schedule (c : Err) : (s.errorEntry c).schedule = s.schedule := rfl
@[simp] theorem State.errorEntry_readData (c : Err) : (s.errorEntry c).readData = s.readData := rfl
@[simp] theorem State.errorEntry_draws (c : Err) : (s.errorEntry c).draws = s.draws := rfl

/-! ### overrun -/
@[simp] theorem State.overrun_p : s.overrun.p = s.p := rfl
@[simp] theorem State.overrun_e : s.overrun.e = s.e := rfl
@[simp] theorem State.overrun_fs : s.overrun.fs = s.fs := rfl
@[simp] theorem State.overrun_alog : s.overrun.alog = s.alog := rfl
@[simp] theorem State.overrun_log : s.overrun.log = s.log := rfl
@[simp] theorem State.overrun_result : s.overrun.result = s.result := rfl
@[simp] theorem State.overrun_status : s.overrun.status = { s.status with ovr := true } := rfl
@[simp] theorem State.overrun_errcmd : s.overrun.errcmd = s.errcmd := rfl
@[simp] theorem State.overrun_cmdLatch : s.overrun.cmdLatch = s.cmdLatch := rfl
@[simp] theorem State.overrun_schedule : s.overrun.schedule = s.schedule := rfl
@[simp] theorem State.overrun_readData : s.overrun.readData = s.readData := rfl
@[simp] theorem State.overrun_draws : s.overrun.draws = s.draws := rfl

/-! ### resetBlock -/
@[simp] theorem State.resetBlock_p : s.resetBlock.p = State.reset.p := rfl
@[simp] theorem State.resetBlock_e : s.resetBlock.e = State.reset.e := rfl
@[simp] theorem State.resetBlock_fs : s.resetBlock.fs = State.reset.fs := rfl
@[simp] theorem State.resetBlock_alog : s.resetBlock.alog = State.reset.alog := rfl
@[simp] theorem State.resetBlock_log : s.resetBlock.log = State.reset.log := rfl
@[simp] theorem State.resetBlock_result : s.resetBlock.result = State.reset.result := rfl
@[simp] theorem State.resetBlock_status : s.resetBlock.status = State.reset.status := rfl
@[simp] theorem State.resetBlock_errcmd : s.resetBlock.errcmd = State.reset.errcmd := rfl
@[simp] theorem State.resetBlock_cmdLatch : s.resetBlock.cmdLatch = State.reset.cmdLatch := rfl
@[simp] theorem State.resetBlock_schedule : s.resetBlock.schedule = s.schedule := rfl
@[simp] theorem State.resetBlock_readData : s.resetBlock.readData = s.readData := rfl
@[simp] theorem State.resetBlock_draws : s.resetBlock.draws = s.draws := rfl

/-! ### writeSlot and writeTables: an index k ≥ NF changes nothing -/
@[simp] theorem State.writeSlot_p (k : SlotIx) (v : FieldSlot) : (s.writeSlot k v).p = s.p := by
  unfold State.writeSlot; split <;> rfl
@[simp] theorem State.writeSlot_e (k : SlotIx) (v : FieldSlot) : (s.writeSlot k v).e = s.e := by
  unfold State.writeSlot; split <;> rfl
@[simp] theorem State.writeSlot_alog (k : SlotIx) (v : FieldSlot) : (s.writeSlot k v).alog = s.alog := by
  unfold State.writeSlot; split <;> rfl
@[simp] theorem State.writeSlot_log (k : SlotIx) (v : FieldSlot) : (s.writeSlot k v).log = s.log := by
  unfold State.writeSlot; split <;> rfl
@[simp] theorem State.writeSlot_result (k : SlotIx) (v : FieldSlot) : (s.writeSlot k v).result = s.result := by
  unfold State.writeSlot; split <;> rfl
@[simp] theorem State.writeSlot_status (k : SlotIx) (v : FieldSlot) : (s.writeSlot k v).status = s.status := by
  unfold State.writeSlot; split <;> rfl
@[simp] theorem State.writeSlot_errcmd (k : SlotIx) (v : FieldSlot) : (s.writeSlot k v).errcmd = s.errcmd := by
  unfold State.writeSlot; split <;> rfl
@[simp] theorem State.writeSlot_cmdLatch (k : SlotIx) (v : FieldSlot) : (s.writeSlot k v).cmdLatch = s.cmdLatch := by
  unfold State.writeSlot; split <;> rfl
@[simp] theorem State.writeSlot_schedule (k : SlotIx) (v : FieldSlot) : (s.writeSlot k v).schedule = s.schedule := by
  unfold State.writeSlot; split <;> rfl
@[simp] theorem State.writeSlot_readData (k : SlotIx) (v : FieldSlot) : (s.writeSlot k v).readData = s.readData := by
  unfold State.writeSlot; split <;> rfl
@[simp] theorem State.writeSlot_draws (k : SlotIx) (v : FieldSlot) : (s.writeSlot k v).draws = s.draws := by
  unfold State.writeSlot; split <;> rfl
@[simp] theorem State.writeTables_p (k : SlotIx) (x y : TableMem) : (s.writeTables k x y).p = s.p := by
  unfold State.writeTables; split <;> rfl
@[simp] theorem State.writeTables_e (k : SlotIx) (x y : TableMem) : (s.writeTables k x y).e = s.e := by
  unfold State.writeTables; split <;> rfl
@[simp] theorem State.writeTables_fs (k : SlotIx) (x y : TableMem) : (s.writeTables k x y).fs = s.fs := by
  unfold State.writeTables; split <;> rfl
@[simp] theorem State.writeTables_result (k : SlotIx) (x y : TableMem) : (s.writeTables k x y).result = s.result := by
  unfold State.writeTables; split <;> rfl
@[simp] theorem State.writeTables_status (k : SlotIx) (x y : TableMem) : (s.writeTables k x y).status = s.status := by
  unfold State.writeTables; split <;> rfl
@[simp] theorem State.writeTables_errcmd (k : SlotIx) (x y : TableMem) : (s.writeTables k x y).errcmd = s.errcmd := by
  unfold State.writeTables; split <;> rfl
@[simp] theorem State.writeTables_cmdLatch (k : SlotIx) (x y : TableMem) : (s.writeTables k x y).cmdLatch = s.cmdLatch := by
  unfold State.writeTables; split <;> rfl
@[simp] theorem State.writeTables_schedule (k : SlotIx) (x y : TableMem) : (s.writeTables k x y).schedule = s.schedule := by
  unfold State.writeTables; split <;> rfl
@[simp] theorem State.writeTables_readData (k : SlotIx) (x y : TableMem) : (s.writeTables k x y).readData = s.readData := by
  unfold State.writeTables; split <;> rfl
@[simp] theorem State.writeTables_draws (k : SlotIx) (x y : TableMem) : (s.writeTables k x y).draws = s.draws := by
  unfold State.writeTables; split <;> rfl
/-! ### errclr: ignored while BUSY = 1 -/
@[simp] theorem State.errclr_p : s.errclr.p = s.p := by unfold State.errclr; split <;> rfl
@[simp] theorem State.errclr_e : s.errclr.e = s.e := by unfold State.errclr; split <;> rfl
@[simp] theorem State.errclr_fs : s.errclr.fs = s.fs := by unfold State.errclr; split <;> rfl
@[simp] theorem State.errclr_alog : s.errclr.alog = s.alog := by unfold State.errclr; split <;> rfl
@[simp] theorem State.errclr_log : s.errclr.log = s.log := by unfold State.errclr; split <;> rfl
@[simp] theorem State.errclr_result : s.errclr.result = s.result := by unfold State.errclr; split <;> rfl
@[simp] theorem State.errclr_cmdLatch : s.errclr.cmdLatch = s.cmdLatch := by unfold State.errclr; split <;> rfl
@[simp] theorem State.errclr_schedule : s.errclr.schedule = s.schedule := by unfold State.errclr; split <;> rfl
@[simp] theorem State.errclr_readData : s.errclr.readData = s.readData := by unfold State.errclr; split <;> rfl
@[simp] theorem State.errclr_draws : s.errclr.draws = s.draws := by unfold State.errclr; split <;> rfl

/-! ### STATUS -/
variable (st : Status) (c : Err) (w : Word)
@[simp] theorem Status.report_busy : (st.report c w).busy = false := rfl
@[simp] theorem Status.report_err : (st.report c w).err = true := rfl
@[simp] theorem Status.report_ovr : (st.report c w).ovr = st.ovr := rfl
@[simp] theorem Status.report_errcode : (st.report c w).errcode = c.code := rfl
@[simp] theorem Status.report_errop : (st.report c w).errop = w.extractLsb' 26 6 := rfl
@[simp] theorem Status.report_fatal : (st.report c w).fatal = (st.fatal || decide (c = .internalInvariant)) := rfl
@[simp] theorem Status.errclr_busy : st.errclr.busy = st.busy := rfl
@[simp] theorem Status.errclr_err : st.errclr.err = false := rfl
@[simp] theorem Status.errclr_fatal : st.errclr.fatal = st.fatal := rfl
@[simp] theorem Status.errclr_ovr : st.errclr.ovr = false := rfl
@[simp] theorem Status.errclr_errcode : st.errclr.errcode = 0 := rfl
@[simp] theorem Status.errclr_errop : st.errclr.errop = 0 := rfl

/-! ### Registers read after a write -/

theorem State.readP_writeP (i j : PReg) (v : PolyWord) :
    (s.writeP i v).readP j = if i = j then v else s.readP j := by
  simp only [State.readP, State.writeP_p, Fin.getElem_fin, Vector.getElem_set, Fin.ext_iff]
theorem State.readE_writeE (i j : EReg) (v : ElemReg) :
    (s.writeE i v).readE j = if i = j then v else s.readE j := by
  simp only [State.readE, State.writeE_e, Fin.getElem_fin, Vector.getElem_set, Fin.ext_iff]
@[simp] theorem State.readP_writeP_self (i : PReg) (v : PolyWord) : (s.writeP i v).readP i = v := by
  simp [State.readP_writeP]
@[simp] theorem State.readE_writeE_self (i : EReg) (v : ElemReg) : (s.writeE i v).readE i = v := by
  simp [State.readE_writeE]
theorem State.readE_clearOwned (k : SlotIx) (j : EReg) :
    (s.clearOwned k).readE j =
      if (s.readE j).wr = true ∧ (s.readE j).fs = k then { s.readE j with wr := false } else s.readE j := by
  simp only [State.readE, State.clearOwned, Fin.getElem_fin, Vector.getElem_ofFn]
  rfl

/-! ### Slots and tables read after a write -/

theorem State.slot_writeSlot (k j : SlotIx) (v : FieldSlot) :
    (s.writeSlot k v).slot j = if k = j ∧ k.val < Config.NF then v else s.slot j := by
  unfold State.writeSlot State.slot
  by_cases hk : k.val < Config.NF
  · by_cases h : k = j
    · subst h; simp only [hk, dite_true, Vector.getElem_set_self, true_and, ite_true]
    · have h' : k.val ≠ j.val := fun e => h (Fin.ext e)
      simp only [hk, h, h', dite_true, Vector.getElem_set_ne, ne_eq, not_false_eq_true, false_and, ite_false]
  · simp only [hk, dite_false, and_false, ite_false]
theorem State.alogOf_writeTables (k j : SlotIx) (x y : TableMem) :
    (s.writeTables k x y).alogOf j = if k = j ∧ k.val < Config.NF then x else s.alogOf j := by
  unfold State.writeTables State.alogOf
  by_cases hk : k.val < Config.NF
  · by_cases h : k = j
    · subst h; simp only [hk, dite_true, Vector.getElem_set_self, true_and, ite_true]
    · have h' : k.val ≠ j.val := fun e => h (Fin.ext e)
      simp only [hk, h, h', dite_true, Vector.getElem_set_ne, ne_eq, not_false_eq_true, false_and, ite_false]
  · simp only [hk, dite_false, and_false, ite_false]
theorem State.logOf_writeTables (k j : SlotIx) (x y : TableMem) :
    (s.writeTables k x y).logOf j = if k = j ∧ k.val < Config.NF then y else s.logOf j := by
  unfold State.writeTables State.logOf
  by_cases hk : k.val < Config.NF
  · by_cases h : k = j
    · subst h; simp only [hk, dite_true, Vector.getElem_set_self, true_and, ite_true]
    · have h' : k.val ≠ j.val := fun e => h (Fin.ext e)
      simp only [hk, h, h', dite_true, Vector.getElem_set_ne, ne_eq, not_false_eq_true, false_and, ite_false]
  · simp only [hk, dite_false, and_false, ite_false]

/-! ### A reader depends on its own part of the state only -/

variable {s} {t : State}
theorem State.readP_congr (h : t.p = s.p) (i : PReg) : t.readP i = s.readP i := by rw [State.readP, State.readP, h]
theorem State.readE_congr (h : t.e = s.e) (i : EReg) : t.readE i = s.readE i := by rw [State.readE, State.readE, h]
theorem State.slot_congr (h : t.fs = s.fs) (k : SlotIx) : t.slot k = s.slot k := by rw [State.slot, State.slot, h]
theorem State.alogOf_congr (h : t.alog = s.alog) (k : SlotIx) : t.alogOf k = s.alogOf k := by
  rw [State.alogOf, State.alogOf, h]
theorem State.logOf_congr (h : t.log = s.log) (k : SlotIx) : t.logOf k = s.logOf k := by
  rw [State.logOf, State.logOf, h]

/-! ### What a reader sees of an update that does not concern it -/

@[simp] theorem State.readE_writeP (s : State) (i : PReg) (v : PolyWord) (j : EReg) : (s.writeP i v).readE j = s.readE j := rfl
@[simp] theorem State.slot_writeP (s : State) (i : PReg) (v : PolyWord) (j : SlotIx) : (s.writeP i v).slot j = s.slot j := rfl
@[simp] theorem State.alogOf_writeP (s : State) (i : PReg) (v : PolyWord) (j : SlotIx) : (s.writeP i v).alogOf j = s.alogOf j := rfl
@[simp] theorem State.logOf_writeP (s : State) (i : PReg) (v : PolyWord) (j : SlotIx) : (s.writeP i v).logOf j = s.logOf j := rfl
@[simp] theorem State.readP_writeE (s : State) (i : EReg) (v : ElemReg) (j : PReg) : (s.writeE i v).readP j = s.readP j := rfl
@[simp] theorem State.slot_writeE (s : State) (i : EReg) (v : ElemReg) (j : SlotIx) : (s.writeE i v).slot j = s.slot j := rfl
@[simp] theorem State.alogOf_writeE (s : State) (i : EReg) (v : ElemReg) (j : SlotIx) : (s.writeE i v).alogOf j = s.alogOf j := rfl
@[simp] theorem State.logOf_writeE (s : State) (i : EReg) (v : ElemReg) (j : SlotIx) : (s.writeE i v).logOf j = s.logOf j := rfl
@[simp] theorem State.readP_writeResult (s : State) (v : Word) (j : PReg) : (s.writeResult v).readP j = s.readP j := rfl
@[simp] theorem State.readE_writeResult (s : State) (v : Word) (j : EReg) : (s.writeResult v).readE j = s.readE j := rfl
@[simp] theorem State.slot_writeResult (s : State) (v : Word) (j : SlotIx) : (s.writeResult v).slot j = s.slot j := rfl
@[simp] theorem State.alogOf_writeResult (s : State) (v : Word) (j : SlotIx) : (s.writeResult v).alogOf j = s.alogOf j := rfl
@[simp] theorem State.logOf_writeResult (s : State) (v : Word) (j : SlotIx) : (s.writeResult v).logOf j = s.logOf j := rfl
@[simp] theorem State.readP_draw (s : State) (j : PReg) : s.draw.readP j = s.readP j := rfl
@[simp] theorem State.readE_draw (s : State) (j : EReg) : s.draw.readE j = s.readE j := rfl
@[simp] theorem State.slot_draw (s : State) (j : SlotIx) : s.draw.slot j = s.slot j := rfl
@[simp] theorem State.alogOf_draw (s : State) (j : SlotIx) : s.draw.alogOf j = s.alogOf j := rfl
@[simp] theorem State.logOf_draw (s : State) (j : SlotIx) : s.draw.logOf j = s.logOf j := rfl
@[simp] theorem State.readP_clearOwned (s : State) (k : SlotIx) (j : PReg) : (s.clearOwned k).readP j = s.readP j :=
  State.readP_congr (State.clearOwned_p s k) j
@[simp] theorem State.slot_clearOwned (s : State) (k : SlotIx) (j : SlotIx) : (s.clearOwned k).slot j = s.slot j :=
  State.slot_congr (State.clearOwned_fs s k) j
@[simp] theorem State.alogOf_clearOwned (s : State) (k : SlotIx) (j : SlotIx) : (s.clearOwned k).alogOf j = s.alogOf j :=
  State.alogOf_congr (State.clearOwned_alog s k) j
@[simp] theorem State.logOf_clearOwned (s : State) (k : SlotIx) (j : SlotIx) : (s.clearOwned k).logOf j = s.logOf j :=
  State.logOf_congr (State.clearOwned_log s k) j
@[simp] theorem State.readP_issue (s : State) (v : Word) (j : PReg) : (s.issue v).readP j = s.readP j := rfl
@[simp] theorem State.readE_issue (s : State) (v : Word) (j : EReg) : (s.issue v).readE j = s.readE j := rfl
@[simp] theorem State.slot_issue (s : State) (v : Word) (j : SlotIx) : (s.issue v).slot j = s.slot j := rfl
@[simp] theorem State.alogOf_issue (s : State) (v : Word) (j : SlotIx) : (s.issue v).alogOf j = s.alogOf j := rfl
@[simp] theorem State.logOf_issue (s : State) (v : Word) (j : SlotIx) : (s.issue v).logOf j = s.logOf j := rfl
@[simp] theorem State.readP_retire (s : State) (j : PReg) : s.retire.readP j = s.readP j := rfl
@[simp] theorem State.readE_retire (s : State) (j : EReg) : s.retire.readE j = s.readE j := rfl
@[simp] theorem State.slot_retire (s : State) (j : SlotIx) : s.retire.slot j = s.slot j := rfl
@[simp] theorem State.alogOf_retire (s : State) (j : SlotIx) : s.retire.alogOf j = s.alogOf j := rfl
@[simp] theorem State.logOf_retire (s : State) (j : SlotIx) : s.retire.logOf j = s.logOf j := rfl
@[simp] theorem State.readP_errorEntry (s : State) (c : Err) (j : PReg) : (s.errorEntry c).readP j = s.readP j := rfl
@[simp] theorem State.readE_errorEntry (s : State) (c : Err) (j : EReg) : (s.errorEntry c).readE j = s.readE j := rfl
@[simp] theorem State.slot_errorEntry (s : State) (c : Err) (j : SlotIx) : (s.errorEntry c).slot j = s.slot j := rfl
@[simp] theorem State.alogOf_errorEntry (s : State) (c : Err) (j : SlotIx) : (s.errorEntry c).alogOf j = s.alogOf j := rfl
@[simp] theorem State.logOf_errorEntry (s : State) (c : Err) (j : SlotIx) : (s.errorEntry c).logOf j = s.logOf j := rfl
@[simp] theorem State.readP_overrun (s : State) (j : PReg) : s.overrun.readP j = s.readP j := rfl
@[simp] theorem State.readE_overrun (s : State) (j : EReg) : s.overrun.readE j = s.readE j := rfl
@[simp] theorem State.slot_overrun (s : State) (j : SlotIx) : s.overrun.slot j = s.slot j := rfl
@[simp] theorem State.alogOf_overrun (s : State) (j : SlotIx) : s.overrun.alogOf j = s.alogOf j := rfl
@[simp] theorem State.logOf_overrun (s : State) (j : SlotIx) : s.overrun.logOf j = s.logOf j := rfl
@[simp] theorem State.readP_writeSlot (s : State) (k : SlotIx) (v : FieldSlot) (j : PReg) : (s.writeSlot k v).readP j = s.readP j := by
  rw [State.readP, State.writeSlot_p]; rfl
@[simp] theorem State.readE_writeSlot (s : State) (k : SlotIx) (v : FieldSlot) (j : EReg) : (s.writeSlot k v).readE j = s.readE j := by
  rw [State.readE, State.writeSlot_e]; rfl
@[simp] theorem State.alogOf_writeSlot (s : State) (k : SlotIx) (v : FieldSlot) (j : SlotIx) : (s.writeSlot k v).alogOf j = s.alogOf j := by
  rw [State.alogOf, State.writeSlot_alog]; rfl
@[simp] theorem State.logOf_writeSlot (s : State) (k : SlotIx) (v : FieldSlot) (j : SlotIx) : (s.writeSlot k v).logOf j = s.logOf j := by
  rw [State.logOf, State.writeSlot_log]; rfl
@[simp] theorem State.readP_writeTables (s : State) (k : SlotIx) (x y : TableMem) (j : PReg) : (s.writeTables k x y).readP j = s.readP j := by
  rw [State.readP, State.writeTables_p]; rfl
@[simp] theorem State.readE_writeTables (s : State) (k : SlotIx) (x y : TableMem) (j : EReg) : (s.writeTables k x y).readE j = s.readE j := by
  rw [State.readE, State.writeTables_e]; rfl
@[simp] theorem State.slot_writeTables (s : State) (k : SlotIx) (x y : TableMem) (j : SlotIx) : (s.writeTables k x y).slot j = s.slot j := by
  rw [State.slot, State.writeTables_fs]; rfl
@[simp] theorem State.readP_errclr (s : State) (j : PReg) : s.errclr.readP j = s.readP j := by
  rw [State.readP, State.errclr_p]; rfl
@[simp] theorem State.readE_errclr (s : State) (j : EReg) : s.errclr.readE j = s.readE j := by
  rw [State.readE, State.errclr_e]; rfl
@[simp] theorem State.slot_errclr (s : State) (j : SlotIx) : s.errclr.slot j = s.slot j := by
  rw [State.slot, State.errclr_fs]; rfl
@[simp] theorem State.alogOf_errclr (s : State) (j : SlotIx) : s.errclr.alogOf j = s.alogOf j := by
  rw [State.alogOf, State.errclr_alog]; rfl
@[simp] theorem State.logOf_errclr (s : State) (j : SlotIx) : s.errclr.logOf j = s.logOf j := by
  rw [State.logOf, State.errclr_log]; rfl

end Sys2Proof.Machine
end

