-- ==== Sys2Proof/Laws/Ops.lean ====
section
/-! SUPPORT. What the shared operations do, said once: the table memories (their contents and their canonical form),
the operand checks, the end of a command (complete), issue, error entry, and the host port. -/

namespace Sys2Proof.Machine

/-! ### Table memories -/

/-- Sorting reorders the entries. -/
theorem sortByIndex_perm : ∀ (b : Nat) (t : TableMem), (sortByIndex b t).Perm t := by
  intro b
  induction b with
  | zero => intro t; exact List.Perm.refl t
  | succ b ih =>
    intro t
    refine ((ih _).append (ih _)).trans ?_
    exact (List.perm_append_comm).trans (List.filter_append_perm _ t)

/-- Sorted by b bits, entries that agree above them and have distinct indices rise strictly. -/
theorem sortByIndex_sorted : ∀ (b : Nat) (t : TableMem),
    (t.map (·.1)).Nodup → (∀ c ∈ t, ∀ d ∈ t, c.1 / 2 ^ b = d.1 / 2 ^ b) →
    (sortByIndex b t).Pairwise (fun c d => c.1 < d.1) := by
  intro b
  induction b with
  | zero =>
    intro t h1 h2
    match t, h1, h2 with
    | [], _, _ => exact List.Pairwise.nil
    | [c], _, _ => exact List.pairwise_singleton _ _
    | c :: d :: r, h1, h2 =>
      have := h2 c (by simp) d (by simp)
      simp at this h1
      omega
  | succ b ih =>
    intro t h1 h2
    have hbit : ∀ c : Nat × Entry, c.1 / 2 ^ b = 2 * (c.1 / 2 ^ (b + 1)) + (c.1.testBit b).toNat := by
      intro c
      rw [Nat.toNat_testBit, Nat.pow_succ, ← Nat.div_div_eq_div_mul]; omega
    have hsub : ∀ p : Nat × Entry → Bool, ((t.filter p).map (·.1)).Nodup := fun p =>
      h1.sublist (List.filter_sublist.map _)
    rw [sortByIndex, List.pairwise_append]
    refine ⟨ih _ (hsub _) ?_, ih _ (hsub _) ?_, ?_⟩
    · intro c hc d hd
      simp only [List.mem_filter, Bool.not_eq_true'] at hc hd
      rw [hbit c, hbit d, hc.2, hd.2, h2 c hc.1 d hd.1]
    · intro c hc d hd
      simp only [List.mem_filter] at hc hd
      rw [hbit c, hbit d, hc.2, hd.2, h2 c hc.1 d hd.1]
    · intro c hc d hd
      rw [(sortByIndex_perm _ _).mem_iff, List.mem_filter] at hc hd
      simp only [Bool.not_eq_true'] at hc
      have e := h2 c hc.1 d hd.1
      have h3 := hbit c; have h4 := hbit d
      rw [hc.2] at h3; rw [hd.2] at h4
      simp only [Bool.toNat_false, Bool.toNat_true] at h3 h4
      by_contra hlt
      have := Nat.div_le_div_right (c := 2 ^ b) (not_lt.1 hlt)
      omega

/-- In a memory with strictly rising indices, a listed entry is the one looked up. -/
theorem lookup_of_mem {t : TableMem} (h : t.Pairwise (fun c d => c.1 < d.1)) {i : Nat} {x : Entry} (hm : (i, x) ∈ t) :
    TableMem.lookup t i = some x := by
  induction t with
  | nil => simp at hm
  | cons c t ih =>
    rw [List.pairwise_cons] at h
    unfold TableMem.lookup at ih ⊢
    rw [List.find?_cons]
    rcases List.mem_cons.1 hm with rfl | hm
    · simp
    · have := h.1 _ hm
      have hne : (c.1 == i) = false := by simp; intro e; simp [e] at this
      rw [hne]
      exact ih h.2 hm

/-- enumFrom pairs every power with its exponent. -/
theorem enumFrom_eq (l : List Poly) : ∀ i, enumFrom i l = l.mapIdx (fun j t => (i + j, BitVec.ofNat 16 t)) := by
  induction l with
  | nil => intro i; rfl
  | cons t ts ih =>
    intro i
    rw [enumFrom, ih, List.mapIdx_cons]
    simp [Nat.add_assoc, Nat.add_comm 1]

/-- The recurrence of R162 gives the successive powers. -/
theorem powersFrom_eq (g f : Poly) : ∀ n i, powersFrom g f n (genPow g f i) = (List.range n).map (fun j => genPow g f (i + j)) := by
  intro n
  induction n with
  | zero => intro i; rfl
  | succ n ih =>
    intro i
    rw [powersFrom, List.range_succ_eq_map, List.map_cons, List.map_map]
    have := ih (i + 1)
    rw [genPow] at this
    rw [this]
    simp [Function.comp_def, Nat.add_assoc, Nat.add_comm 1]

/-- powers lists pow(g, 0), …, pow(g, N − 1). -/
theorem powers_eq (g f : Poly) (m : Nat) : powers g f m = (List.range (groupOrder m)).map (genPow g f) := by
  have := powersFrom_eq g f (groupOrder m) 0
  simpa [powers, genPow] using this

/-- The entries of ALOG_k after a construction (R162). -/
theorem mem_buildAlog {g f : Poly} {m : Nat} {i : Nat} {x : Entry} :
    (i, x) ∈ buildAlog g f m ↔ i < groupOrder m ∧ x = BitVec.ofNat 16 (genPow g f i) := by
  rw [buildAlog, enumFrom_eq, powers_eq, List.mem_mapIdx]
  constructor
  · rintro ⟨j, hj, he⟩
    simp at hj he
    obtain ⟨rfl, rfl⟩ := he
    exact ⟨hj, rfl⟩
  · rintro ⟨h, rfl⟩
    exact ⟨i, by simpa using h, by simp⟩

/-- ALOG_k's indices rise strictly. -/
theorem buildAlog_sorted (g f : Poly) (m : Nat) : (buildAlog g f m).Pairwise (fun c d => c.1 < d.1) := by
  rw [buildAlog, enumFrom_eq, List.pairwise_iff_getElem]
  intro i j hi hj hij
  simpa using hij

/-- ALOG_k[i] = pow(g, i) (R162). -/
theorem lookup_buildAlog (g f : Poly) {m i : Nat} (h : i < groupOrder m) :
    TableMem.lookup (buildAlog g f m) i = some (BitVec.ofNat 16 (genPow g f i)) :=
  lookup_of_mem (buildAlog_sorted g f m) (mem_buildAlog.2 ⟨h, rfl⟩)

/-- ALOG_k is built in canonical form. -/
theorem wf_buildAlog (g f : Poly) {m : Nat} (hm : m ≤ 16) : Memory.wf (buildAlog g f m) = true := by
  unfold Memory.wf
  rw [Bool.and_eq_true, decide_eq_true_iff, List.all_eq_true]
  refine ⟨buildAlog_sorted g f m, fun c hc => ?_⟩
  obtain ⟨h, -⟩ := (mem_buildAlog (i := c.1) (x := c.2)).1 hc
  have : groupOrder m < 2 ^ 16 := by
    have := Nat.pow_le_pow_right (n := 2) (by decide) hm
    have := Nat.two_pow_pos m
    unfold groupOrder; omega
  simp; omega

/-- The contents of LOG_k, in order, when the powers are distinct 16-bit values. -/
theorem buildLog_sorted {g f : Poly} {m : Nat} (hm : m ≤ 16) (hlt : ∀ i, i < groupOrder m → genPow g f i < 2 ^ m)
    (hinj : ∀ i j, i < groupOrder m → j < groupOrder m → genPow g f i = genPow g f j → i = j) :
    (buildLog g f m).Pairwise (fun c d => c.1 < d.1) := by
  have hpow := Nat.pow_le_pow_right (n := 2) (by decide) hm
  have hval : ∀ i, i < groupOrder m → (BitVec.ofNat 16 (genPow g f i)).toNat = genPow g f i := fun i hi => by
    have := hlt i hi
    rw [BitVec.toNat_ofNat]; exact Nat.mod_eq_of_lt (Nat.lt_of_lt_of_le this hpow)
  have hn : ((buildAlog g f m).map (fun c => (c.2.toNat, BitVec.ofNat 16 c.1))).map (·.1) =
      (List.range (groupOrder m)).map (genPow g f) := by
    rw [buildAlog, enumFrom_eq, powers_eq]
    apply List.ext_getElem
    · simp
    · intro i h1 h2
      simp at h1 h2 ⊢
      have := hval i h1
      simpa using this
  refine sortByIndex_sorted m _ ?_ ?_
  · rw [hn]
    refine List.Nodup.map_on ?_ List.nodup_range
    intro i hi j hj h
    exact hinj i j (List.mem_range.1 hi) (List.mem_range.1 hj) h
  · have hz : ∀ c ∈ (buildAlog g f m).map (fun c => (c.2.toNat, BitVec.ofNat 16 c.1)), c.1 / 2 ^ m = 0 := by
      intro c hc
      have : c.1 ∈ ((buildAlog g f m).map (fun c => (c.2.toNat, BitVec.ofNat 16 c.1))).map (·.1) := List.mem_map_of_mem hc
      rw [hn, List.mem_map] at this
      obtain ⟨i, hi, he⟩ := this
      rw [Nat.div_eq_zero_iff, ← he]
      exact Or.inr (hlt i (List.mem_range.1 hi))
    intro c hc d hd
    rw [hz c hc, hz d hd]

/-- The entries of LOG_k after a construction (R162). -/
theorem mem_buildLog {g f : Poly} {m v : Nat} {x : Entry} :
    (v, x) ∈ buildLog g f m ↔ ∃ i, i < groupOrder m ∧ v = (BitVec.ofNat 16 (genPow g f i)).toNat ∧ x = BitVec.ofNat 16 i := by
  rw [buildLog, (sortByIndex_perm _ _).mem_iff, List.mem_map]
  constructor
  · rintro ⟨⟨i, y⟩, hc, he⟩
    obtain ⟨h1, rfl⟩ := mem_buildAlog.1 hc
    simp only [Prod.mk.injEq] at he
    exact ⟨i, h1, he.1.symm, he.2.symm⟩
  · rintro ⟨i, h, rfl, rfl⟩
    exact ⟨(i, _), mem_buildAlog.2 ⟨h, rfl⟩, rfl⟩

/-- LOG_k is built in canonical form, when the powers are distinct 16-bit values. -/
theorem wf_buildLog {g f : Poly} {m : Nat} (hm : m ≤ 16) (hlt : ∀ i, i < groupOrder m → genPow g f i < 2 ^ m)
    (hinj : ∀ i j, i < groupOrder m → j < groupOrder m → genPow g f i = genPow g f j → i = j) :
    Memory.wf (buildLog g f m) = true := by
  unfold Memory.wf
  rw [Bool.and_eq_true, decide_eq_true_iff, List.all_eq_true]
  refine ⟨buildLog_sorted hm hlt hinj, fun c hc => ?_⟩
  obtain ⟨i, -, h, -⟩ := (mem_buildLog (v := c.1) (x := c.2)).1 hc
  have := (BitVec.ofNat 16 (genPow g f i)).isLt
  simp; omega

/-- LOG_k is built in canonical form for a table field: an irreducible modulus of degree m ≤ 16, a primitive generator. -/
theorem wf_buildLog_of_primitive {g f : Poly} {m : Nat} (hm : 1 ≤ m) (hm16 : m ≤ 16) (h : deg f = (m : Int))
    (hI : IRRED f m) (hp : PRIMITIVE g f m) : Memory.wf (buildLog g f m) = true := by
  have hI := (irred_iff hm h).1 hI
  exact wf_buildLog hm16 (fun i _ => deg_lt_iff.1 (deg_genPow_lt g hm h i)) (fun i j hi hj => genPow_inj hm h hI hp hi hj)

/-- LOG_k[v] is the exponent of v (R162), for a table field. -/
theorem lookup_buildLog {g f : Poly} {m v : Nat} (hm : 1 ≤ m) (hm16 : m ≤ 16) (h : deg f = (m : Int))
    (hI : IRRED f m) (hp : PRIMITIVE g f m) (h1 : 1 ≤ v) (h2 : v ≤ groupOrder m) :
    ∃ i, i < groupOrder m ∧ TableMem.lookup (buildLog g f m) v = some (BitVec.ofNat 16 i) ∧ genPow g f i = v := by
  have hI := (irred_iff hm h).1 hI
  obtain ⟨i, hi, he⟩ := exists_genPow hm h hI hp h1 h2
  have hlt : ∀ i, genPow g f i < 2 ^ m := fun i => deg_lt_iff.1 (deg_genPow_lt g hm h i)
  refine ⟨i, hi, lookup_of_mem (buildLog_sorted hm16 (fun i _ => hlt i)
    (fun i j hi hj => genPow_inj hm h hI hp hi hj)) (mem_buildLog.2 ⟨i, hi, ?_, rfl⟩), he⟩
  have := Nat.pow_le_pow_right (n := 2) (by decide) hm16
  rw [he, BitVec.toNat_ofNat, Nat.mod_eq_of_lt]
  rw [← he]; exact Nat.lt_of_lt_of_le (hlt i) this

/-- An empty table memory is in canonical form: what reset and FREL leave. -/
theorem wf_nil : Memory.wf [] = true := rfl

/-! ### Operand checks -/

variable {s t : State}

/-- A slot index at or above NF names no slot. -/
theorem State.slot_of_le {k : SlotIx} (h : Config.NF ≤ k.val) : s.slot k = FieldSlot.reset := by
  rw [State.slot, dif_neg (by omega)]

/-- validSlot answers the slot exactly when it exists and holds a field. -/
theorem State.validSlot_of_holds {k : SlotIx} (h : Holds s k) : s.validSlot k = .ok (s.slot k) := by
  simp only [State.validSlot, legalSlot, if_pos h.1, if_pos h.2]; rfl
/-- An index at or above NF is illegal, whatever the state. -/
theorem State.validSlot_illegal {k : SlotIx} (h : Config.NF ≤ k.val) : s.validSlot k = .error .illegalCmd := by
  simp only [State.validSlot, legalSlot, if_neg (Nat.not_lt.2 h)]; rfl
/-- A slot that holds no field is refused. -/
theorem State.validSlot_invalid {k : SlotIx} (h : k.val < Config.NF) (h2 : (s.slot k).valid = false) :
    s.validSlot k = .error .slotInvalid := by
  simp only [State.validSlot, legalSlot, if_pos h, h2]; rfl
/-- What validSlot answers. -/
theorem State.validSlot_eq_ok {k : SlotIx} {f : FieldSlot} (h : s.validSlot k = .ok f) : Holds s k ∧ f = s.slot k := by
  by_cases h1 : k.val < Config.NF
  · cases h2 : (s.slot k).valid
    · rw [State.validSlot_invalid h1 h2] at h; cases h
    · rw [State.validSlot_of_holds ⟨h1, h2⟩] at h; cases h; exact ⟨⟨h1, h2⟩, rfl⟩
  · rw [State.validSlot_illegal (by omega)] at h; cases h

/-- A written register is read. -/
theorem State.element_of_written {a : EReg} (h : Written s a) : s.element a = .ok (s.readE a) := by
  exact if_pos h
/-- An unwritten register ends the command with UNINIT_ELEMENT. -/
theorem State.element_of_unwritten {a : EReg} (h : ¬ Written s a) : s.element a = .error .uninitElement := by
  exact if_neg h
/-- What element answers. -/
theorem State.element_eq_ok {a : EReg} {x : ElemReg} (h : s.element a = .ok x) : Written s a ∧ x = s.readE a := by
  by_cases h1 : Written s a
  · rw [State.element_of_written h1] at h; cases h; exact ⟨h1, rfl⟩
  · rw [State.element_of_unwritten h1] at h; cases h

/-- sameField decides SameField. -/
theorem State.sameField_iff {j k : SlotIx} : s.sameField j k = true ↔ SameField s j k := by
  simp only [State.sameField, SameField, decide_eq_true_iff]

/-- Two written registers of one field are read. -/
theorem State.elementPair_ok {a b : EReg} (ha : Written s a) (hb : Written s b)
    (h : SameField s (s.ownerOf a) (s.ownerOf b)) : s.elementPair a b = .ok (s.readE a, s.readE b) := by
  have h' : s.sameField (s.readE a).fs (s.readE b).fs = true := State.sameField_iff.2 h
  simp only [State.elementPair, State.element_of_written ha, State.element_of_written hb]
  change (if s.sameField (s.readE a).fs (s.readE b).fs = true then _ else _) = _
  rw [if_pos h']
/-- An unwritten operand is reported first. -/
theorem State.elementPair_uninit {a b : EReg} (h : ¬ (Written s a ∧ Written s b)) :
    s.elementPair a b = .error .uninitElement := by
  by_cases ha : Written s a
  · simp only [State.elementPair, State.element_of_written ha, State.element_of_unwritten (fun hb => h ⟨ha, hb⟩)]; rfl
  · simp only [State.elementPair, State.element_of_unwritten ha]; rfl
/-- Then a mismatch of fields. -/
theorem State.elementPair_mismatch {a b : EReg} (ha : Written s a) (hb : Written s b)
    (h : ¬ SameField s (s.ownerOf a) (s.ownerOf b)) : s.elementPair a b = .error .fieldMismatch := by
  have h' : ¬ s.sameField (s.readE a).fs (s.readE b).fs = true := fun e => h (State.sameField_iff.1 e)
  simp only [State.elementPair, State.element_of_written ha, State.element_of_written hb]
  change (if s.sameField (s.readE a).fs (s.readE b).fs = true then _ else _) = _
  rw [if_neg h']
/-- What elementPair answers. -/
theorem State.elementPair_eq_ok {a b : EReg} {p : ElemReg × ElemReg} (h : s.elementPair a b = .ok p) :
    Written s a ∧ Written s b ∧ SameField s (s.ownerOf a) (s.ownerOf b) ∧ p = (s.readE a, s.readE b) := by
  by_cases h1 : Written s a ∧ Written s b
  · by_cases h2 : SameField s (s.ownerOf a) (s.ownerOf b)
    · rw [State.elementPair_ok h1.1 h1.2 h2] at h; cases h; exact ⟨h1.1, h1.2, h2, rfl⟩
    · rw [State.elementPair_mismatch h1.1 h1.2 h2] at h; cases h
  · rw [State.elementPair_uninit h1] at h; cases h

/-! ### The end of a command -/

/-- Every command ends in a next state: its own, with BUSY cleared, or error entry. -/
theorem complete_cases (s : State) (r : Except Err State) :
    (∃ u, r = .ok u ∧ complete s r = .next u.retire) ∨ (∃ c, r = .error c ∧ complete s r = .next (s.errorEntry c)) := by
  cases r with
  | ok u => exact .inl ⟨u, rfl, rfl⟩
  | error c => exact .inr ⟨c, rfl, rfl⟩

/-- What complete answers. -/
theorem complete_eq_next {r : Except Err State} (h : complete s r = .next t) :
    (∃ u, r = .ok u ∧ t = u.retire) ∨ (∃ c, r = .error c ∧ t = s.errorEntry c) := by
  cases r with
  | ok u => cases h; exact .inl ⟨u, rfl, rfl⟩
  | error c => cases h; exact .inr ⟨c, rfl, rfl⟩

/-- Every command ends in complete. -/
theorem exec_eq_complete (i : Instr) (s : State) : ∃ r, exec i s = complete s r := by
  cases i <;> simp only [exec, execNop, execPxor, execClmul, execPdeg, execPdivmod, execPmod, execPshl, execPshr,
    execPbtst, execPext, execPldi, execFcfgEuclid, execFcfgTable, execFcfgTableGen, execFrel, execTlog, execTalog,
    execElem, execEval, execEadd, execEsub, execEneg, execEmul, execEdiv, execEinv, execEeq] <;> exact ⟨_, rfl⟩

/-- Error entry writes the report of R305 and nothing else. -/
theorem endedWith_errorEntry (s : State) (c : Err) : EndedWith c s (s.errorEntry c) :=
  ⟨rfl, rfl, rfl, rfl, rfl, rfl, rfl, fun _ _ => rfl, fun _ _ => rfl, fun _ _ => rfl, fun _ _ _ => ⟨rfl, rfl⟩,
    fun _ => rfl, fun _ => rfl, rfl, rfl, rfl⟩

/-- A command that writes nothing. -/
theorem succeeded_retire (s : State) : Succeeded s s.retire {} :=
  ⟨rfl, rfl, fun _ _ => rfl, fun _ _ => rfl, fun _ _ => rfl, fun _ _ _ => ⟨rfl, rfl⟩, fun _ => rfl, fun _ => rfl, rfl,
    rfl, rfl⟩
/-- A command that writes one P register. -/
theorem succeeded_writeP (s : State) (d : PReg) (v : PolyWord) : Succeeded s (s.writeP d v).retire { p := [d] } :=
  ⟨rfl, rfl, fun j hj => by
      have : d ≠ j := fun e => hj (by simp [e])
      exact (State.readP_writeP s d j v).trans (if_neg this),
    fun _ _ => rfl, fun _ _ => rfl, fun _ _ _ => ⟨rfl, rfl⟩, fun _ => rfl, fun _ => rfl, rfl, rfl, rfl⟩
/-- A command that writes one E register. -/
theorem succeeded_writeE (s : State) (d : EReg) (v : ElemReg) : Succeeded s (s.writeE d v).retire { e := [d] } :=
  ⟨rfl, rfl, fun _ _ => rfl, fun j hj => by
      have : d ≠ j := fun e => hj (by simp [e])
      exact (State.readE_writeE s d j v).trans (if_neg this),
    fun _ _ => rfl, fun _ _ _ => ⟨rfl, rfl⟩, fun _ => rfl, fun _ => rfl, rfl, rfl, rfl⟩
/-- A command that writes RESULT. -/
theorem succeeded_writeResult (s : State) (v : Word) : Succeeded s (s.writeResult v).retire { result := true } :=
  ⟨rfl, rfl, fun _ _ => rfl, fun _ _ => rfl, fun _ _ => rfl, fun _ _ _ => ⟨rfl, rfl⟩, fun h => by simp at h,
    fun _ => rfl, rfl, rfl, rfl⟩

/-! ### The host port -/

/-- The offsets of the P window name the words of P, and are aligned (R62, R63). -/
theorem mapReg_window (n : PReg) (j : Fin 8) :
    mapReg (BitVec.ofNat 12 (0x200 + 32 * n.val + 4 * j.val)) = .pword n j ∧
      legalAccess (BitVec.ofNat 12 (0x200 + 32 * n.val + 4 * j.val)) 4 = true := by
  revert n j; decide
/-- The offsets of FINFO name it, and are aligned (R36, R62). -/
theorem mapReg_finfo (k : Fin 16) :
    mapReg (BitVec.ofNat 12 (0x040 + 4 * k.val)) = .finfo k ∧
      legalAccess (BitVec.ofNat 12 (0x040 + 4 * k.val)) 4 = true := by
  revert k; decide
/-- The gaps of the register map are reserved (R62, R67). -/
theorem mapReg_reserved {off : Offset}
    (h : (0x01C ≤ off.toNat ∧ off.toNat < 0x040) ∨ (0x080 ≤ off.toNat ∧ off.toNat < 0x200) ∨ 0x400 ≤ off.toNat) :
    mapReg off = .reserved := by
  unfold mapReg
  simp only
  repeat rw [if_neg (by omega)]

/-- Only offset 0x010 is CTRL. -/
theorem mapReg_eq_ctrl {off : Offset} (h : mapReg off = .ctrl) : off = 0x010 := by
  simp only [mapReg] at h
  split_ifs at h with h1 h2 h3 h4 h5
  exact BitVec.eq_of_toNat_eq h5
/-- The words of P stand from 0x200 to 0x3FF. -/
theorem mapReg_eq_pword {off : Offset} {n : PReg} {j : Fin 8} (h : mapReg off = .pword n j) :
    0x200 ≤ off.toNat ∧ off.toNat < 0x400 := by
  simp only [mapReg] at h
  split_ifs at h with h1 h2 h3 h4 h5 h6 h7 h8 h9
  exact h9

/-- What a host read answers. -/
theorem hostRead_eq_next {off : Offset} {n : Nat} (h : hostRead off n s = .next t) :
    legalAccess off n = true ∧ t = { s.draw with readData := some (s.portRead (mapReg off)) } := by
  unfold hostRead at h
  split at h
  · cases h; exact ⟨‹_›, rfl⟩
  · cases h
/-- What a host write answers. -/
theorem hostWrite_eq_next {off : Offset} {n : Nat} {v : Word} (h : hostWrite off n v s = .next t) :
    legalAccess off n = true ∧ t = s.portWrite v (mapReg off) := by
  unfold hostWrite at h
  split at h
  · cases h; exact ⟨‹_›, rfl⟩
  · cases h
/-- What a write can do to the block: nothing, an issue, an overrun, a word of P, ERRCLR, or SRST. -/
theorem State.portWrite_cases (s : State) (v : Word) (r : MapReg) :
    s.portWrite v r = s ∨
    (r = .cmd ∧ s.status.busy = false ∧ s.status.inErrorState = false ∧ s.portWrite v r = s.issue v) ∨
    ((r = .cmd ∨ ∃ n j, r = .pword n j) ∧ s.status.busy = true ∧ s.portWrite v r = s.overrun) ∨
    (∃ n j, r = .pword n j ∧ s.status.busy = false ∧ s.portWrite v r = s.writeP n (setPWord (s.readP n) j v)) ∨
    (r = .ctrl ∧ v.getLsbD 1 = false ∧ s.portWrite v r = s.errclr) ∨
    (r = .ctrl ∧ v.getLsbD 1 = true ∧ s.portWrite v r = s.resetBlock) := by
  have nt : ∀ {c : Bool}, ¬ c = true → c = false := fun h => by simpa using h
  cases r with
  | cmd =>
    by_cases hb : s.status.busy = true
    · exact .inr (.inr (.inl ⟨.inl rfl, hb, if_pos hb⟩))
    · by_cases he : s.status.inErrorState = true
      · exact .inl ((if_neg hb).trans (if_pos he))
      · exact .inr (.inl ⟨rfl, nt hb, nt he, (if_neg hb).trans (if_neg he)⟩)
  | ctrl =>
    by_cases h1 : v.getLsbD 1 = true
    · exact .inr (.inr (.inr (.inr (.inr ⟨rfl, h1, if_pos h1⟩))))
    · by_cases h0 : v.getLsbD 0 = true
      · exact .inr (.inr (.inr (.inr (.inl ⟨rfl, nt h1, (if_neg h1).trans (if_pos h0)⟩))))
      · exact .inl ((if_neg h1).trans (if_neg h0))
  | pword n j =>
    by_cases hb : s.status.busy = true
    · exact .inr (.inr (.inl ⟨.inr ⟨n, j, rfl⟩, hb, if_pos hb⟩))
    · exact .inr (.inr (.inr (.inl ⟨n, j, rfl, nt hb, if_neg hb⟩)))
  | id => exact .inl rfl
  | status => exact .inl rfl
  | result => exact .inl rfl
  | param => exact .inl rfl
  | errcmd => exact .inl rfl
  | finfo k => exact .inl rfl
  | reserved => exact .inl rfl

/-- While BUSY = 1 a write without SRST changes nothing but, at most, OVR (R63, R66, R72). -/
theorem State.portWrite_of_busy (hb : s.status.busy = true) (v : Word) (r : MapReg)
    (h : r = .ctrl → v.getLsbD 1 = false) :
    ∃ o, s.portWrite v r = { s with status := { s.status with ovr := o } } := by
  rcases State.portWrite_cases s v r with e | ⟨_, h1, _, _⟩ | ⟨_, _, e⟩ | ⟨_, _, _, h1, _⟩ | ⟨_, _, e⟩ | ⟨h1, h2, _⟩
  · exact ⟨s.status.ovr, e⟩
  · rw [hb] at h1; cases h1
  · exact ⟨true, e⟩
  · rw [hb] at h1; cases h1
  · exact ⟨s.status.ovr, e.trans (if_pos hb)⟩
  · rw [h h1] at h2; cases h2

/-- A write leaves the schedule, what the host has read and the counter of draws. -/
theorem State.portWrite_own (s : State) (v : Word) (r : MapReg) :
    (s.portWrite v r).schedule = s.schedule ∧ (s.portWrite v r).readData = s.readData ∧
      (s.portWrite v r).draws = s.draws := by
  rcases State.portWrite_cases s v r with h | ⟨_, _, _, h⟩ | ⟨_, _, h⟩ | ⟨_, _, _, _, h⟩ | ⟨_, _, h⟩ | ⟨_, _, h⟩ <;>
    rw [h] <;> simp

/-! ### One step of the block -/

/-- What the core's turn answers. -/
theorem coreTurn_eq_next (h : coreTurn s = .next t) :
    (s.status.busy = false ∧ t = s) ∨
    (s.status.busy = true ∧ ((∃ e, decode s.cmdLatch = .error e ∧ t = s.errorEntry .illegalCmd) ∨
      ∃ i, decode s.cmdLatch = .ok i ∧ exec i s = .next t)) := by
  unfold coreTurn at h
  split at h
  · rename_i hb
    unfold completeCommand State.fetchWord at h
    split at h
    · cases h; exact .inr ⟨hb, .inl ⟨_, ‹_›, rfl⟩⟩
    · exact .inr ⟨hb, .inr ⟨_, ‹_›, h⟩⟩
  · rename_i hb
    cases h; exact .inl ⟨by simpa using hb, rfl⟩

/-- What a step does: it removes the next event and performs it; with nothing scheduled the core takes its turn. -/
theorem step_eq_next (h : step s = .next t) :
    (s.schedule = [] ∧ coreTurn s = .next t) ∨
    (∃ rest, s.schedule = .coreTurn :: rest ∧ coreTurn { s with schedule := rest } = .next t) ∨
    (∃ rest, s.schedule = .resetInput :: rest ∧ t = State.resetBlock { s with schedule := rest }) ∨
    (∃ off n rest, s.schedule = .read off n :: rest ∧ hostRead off n { s with schedule := rest } = .next t) ∨
    (∃ off n v rest, s.schedule = .write off n v :: rest ∧ hostWrite off n v { s with schedule := rest } = .next t) := by
  unfold step at h
  split at h
  · exact .inl ⟨‹_›, h⟩
  · exact .inr (.inl ⟨_, ‹_›, h⟩)
  · cases h; exact .inr (.inr (.inl ⟨_, ‹_›, rfl⟩))
  · exact .inr (.inr (.inr (.inl ⟨_, _, _, ‹_›, h⟩)))
  · exact .inr (.inr (.inr (.inr ⟨_, _, _, _, ‹_›, h⟩)))

end Sys2Proof.Machine
end

