-- ==== Sys2Proof/Laws/Exec.lean ====
section
/-! SUPPORT. What a command can do, said once: constructionChecks, construct and tableSlot in closed form, and exec_cases,
the inversion of exec: a next state is a success with one of the effects listed in Effect, or error entry. -/

namespace Sys2Proof.Machine

variable {s t u : State}

/-! ### The error monad -/

/-- A sequence that succeeds succeeds in both parts. -/
theorem bind_eq_ok {α β : Type} {x : Except Err α} {f : α → Except Err β} {y : β} (h : (x >>= f) = .ok y) :
    ∃ a, x = .ok a ∧ f a = .ok y := by
  cases x with
  | error c => cases h
  | ok a => exact ⟨a, rfl, h⟩
/-- A sequence that fails fails in its first part, or in its second. -/
theorem bind_eq_error {α β : Type} {x : Except Err α} {f : α → Except Err β} {c : Err} (h : (x >>= f) = .error c) :
    x = .error c ∨ ∃ a, x = .ok a ∧ f a = .error c := by
  cases x with
  | error d => cases h; exact .inl rfl
  | ok a => exact .inr ⟨a, rfl, h⟩
/-- A check that is passed. -/
theorem check_eq_ok {α : Type} {p : Prop} [Decidable p] {c : Err} {x : Except Err α} {y : α}
    (h : (if p then .error c else x) = .ok y) : ¬ p ∧ x = .ok y := by
  split at h
  · cases h
  · exact ⟨‹_›, h⟩
/-- A check that is failed, or a later one. -/
theorem check_eq_error {α : Type} {p : Prop} [Decidable p] {c d : Err} {x : Except Err α}
    (h : (if p then .error c else x) = .error d) : p ∧ d = c ∨ ¬ p ∧ x = .error d := by
  split at h
  · cases h; exact .inl ⟨‹_›, rfl⟩
  · exact .inr ⟨‹_›, h⟩

/-! ### Operand checks: the errors they give -/

/-- legalSlot fails with ILLEGAL_CMD only. -/
theorem legalSlot_eq_error {k : SlotIx} {c : Err} (h : legalSlot k = .error c) : c = .illegalCmd := by
  unfold legalSlot at h
  split at h
  · cases h
  · cases h; rfl
/-- validSlot fails with ILLEGAL_CMD or SLOT_INVALID. -/
theorem State.validSlot_eq_error {k : SlotIx} {c : Err} (h : s.validSlot k = .error c) :
    c = .illegalCmd ∨ c = .slotInvalid := by
  by_cases h1 : k.val < Config.NF
  · cases h2 : (s.slot k).valid
    · rw [State.validSlot_invalid h1 h2] at h; cases h; exact .inr rfl
    · rw [State.validSlot_of_holds ⟨h1, h2⟩] at h; cases h
  · rw [State.validSlot_illegal (by omega)] at h; cases h; exact .inl rfl
/-- element fails with UNINIT_ELEMENT only. -/
theorem State.element_eq_error {a : EReg} {c : Err} (h : s.element a = .error c) : c = .uninitElement := by
  by_cases hw : Written s a
  · rw [State.element_of_written hw] at h; cases h
  · rw [State.element_of_unwritten hw] at h; cases h; rfl
/-- elementPair fails with UNINIT_ELEMENT or FIELD_MISMATCH. -/
theorem State.elementPair_eq_error {a b : EReg} {c : Err} (h : s.elementPair a b = .error c) :
    c = .uninitElement ∨ c = .fieldMismatch := by
  by_cases hw : Written s a ∧ Written s b
  · by_cases hf : SameField s (s.ownerOf a) (s.ownerOf b)
    · rw [State.elementPair_ok hw.1 hw.2 hf] at h; cases h
    · rw [State.elementPair_mismatch hw.1 hw.2 hf] at h; cases h; exact .inr rfl
  · rw [State.elementPair_uninit hw] at h; cases h; exact .inl rfl

/-! ### Field construction -/

/-- The construction checks pass exactly under the conditions of R164. -/
theorem constructionChecks_eq_ok {k : SlotIx} {m : Nat} {f : Poly} {e : Engine} {g : Poly} :
    constructionChecks s k m f e g = .ok () ↔
      k.val < Config.NF ∧ (s.slot k).valid = false ∧ 2 ≤ m ∧ deg f = m ∧ ¬ (e = .table ∧ m > Config.MT) ∧
      ¬ (e = .table ∧ deg g ≥ m) ∧ irreducible f m = true ∧ ¬ (e = .table ∧ primitive g f m = false) := by
  constructor
  · intro h
    obtain ⟨_, h0, h⟩ := bind_eq_ok h
    have hk : k.val < Config.NF := by
      by_contra hk
      rw [legalSlot, if_neg hk] at h0; cases h0
    obtain ⟨h1, h⟩ := check_eq_ok h
    obtain ⟨h2, h⟩ := check_eq_ok h
    obtain ⟨h3, h⟩ := check_eq_ok h
    obtain ⟨h4, h⟩ := check_eq_ok h
    obtain ⟨h5, h⟩ := check_eq_ok h
    obtain ⟨h6, h⟩ := check_eq_ok h
    obtain ⟨h7, h⟩ := check_eq_ok h
    exact ⟨hk, by simpa using h1, by omega, by simpa using h3, h4, h5, by simpa using h6, h7⟩
  · rintro ⟨hk, h1, h2, h3, h4, h5, h6, h7⟩
    have h0 : legalSlot k = .ok () := if_pos hk
    rw [constructionChecks, h0]
    change (if (s.slot k).valid = true then _ else _) = _
    rw [if_neg (by simp [h1]), if_neg (by omega), if_neg (by simp [h3]), if_neg h4, if_neg h5, if_neg (by simp [h6]),
      if_neg h7]
/-- The construction checks never report INTERNAL_INVARIANT. -/
theorem constructionChecks_ne_internal {k : SlotIx} {m : Nat} {f : Poly} {e : Engine} {g : Poly} {c : Err}
    (h : constructionChecks s k m f e g = .error c) : c ≠ .internalInvariant := by
  rcases bind_eq_error h with h | ⟨_, _, h⟩
  · rw [legalSlot_eq_error h]; decide
  · repeat
      rcases check_eq_error h with ⟨_, rfl⟩ | ⟨_, h⟩
      · decide
    cases h
/-- A construction whose checks pass. -/
theorem construct_of_checks {k : SlotIx} {m : BitVec 7} {f : Poly} {e : Engine} {genx : Bool} {g : Poly}
    (h : constructionChecks s k m.toNat f e g = .ok ()) :
    construct s k m f e genx g =
      .ok ((if e = .table then s.writeTables k (buildAlog g f m.toNat) (buildLog g f m.toNat) else s).writeSlot k
        (constructedSlot m f e genx g)) := by
  rw [construct, h]; rfl
/-- A construction one of whose checks fails. -/
theorem construct_of_error {k : SlotIx} {m : BitVec 7} {f : Poly} {e : Engine} {genx : Bool} {g : Poly} {c : Err}
    (h : constructionChecks s k m.toNat f e g = .error c) : construct s k m f e genx g = .error c := by
  rw [construct, h]; rfl
/-- The three forms of FCFG are one construction each. -/
theorem exec_fcfg {i : Instr} {k : SlotIx} {m : BitVec 7} {pm : PReg} {e : Engine} {genx : Bool} {g : Poly}
    (h : fcfgOperands s i = some (k, m, pm, e, genx, g)) :
    exec i s = complete s (construct s k m (s.poly pm) e genx g) := by
  cases i <;> simp only [fcfgOperands, Option.some.injEq, Prod.mk.injEq, reduceCtorEq] at h
  · obtain ⟨rfl, rfl, rfl, rfl, rfl, rfl⟩ := h; rfl
  · obtain ⟨rfl, rfl, rfl, rfl, rfl, rfl⟩ := h; rfl
  · obtain ⟨rfl, rfl, rfl, rfl, rfl, rfl⟩ := h; rfl

/-! ### Table reads -/

/-- tableSlot answers the slot when it holds a table field. -/
theorem State.tableSlot_of_table {k : SlotIx} (h : Holds s k) (he : (s.slot k).eng = .table) :
    s.tableSlot k = .ok (s.slot k) := by
  simp only [State.tableSlot, State.validSlot_of_holds h]
  change (if (s.slot k).eng = .euclidean then _ else _) = _
  rw [if_neg (by simp [he])]
/-- A Euclidean slot has no table. -/
theorem State.tableSlot_of_euclidean {k : SlotIx} (h : Holds s k) (he : (s.slot k).eng = .euclidean) :
    s.tableSlot k = .error .noTable := by
  simp only [State.tableSlot, State.validSlot_of_holds h]
  change (if (s.slot k).eng = .euclidean then _ else _) = _
  rw [if_pos he]
/-- The errors of validSlot come first. -/
theorem State.tableSlot_of_error {k : SlotIx} {c : Err} (h : s.validSlot k = .error c) : s.tableSlot k = .error c := by
  simp only [State.tableSlot, h]; rfl
/-- tableSlot fails with ILLEGAL_CMD, SLOT_INVALID or NO_TABLE. -/
theorem State.tableSlot_eq_error {k : SlotIx} {c : Err} (h : s.tableSlot k = .error c) :
    c = .illegalCmd ∨ c = .slotInvalid ∨ c = .noTable := by
  rcases bind_eq_error h with h | ⟨f, _, h⟩
  · rcases State.validSlot_eq_error h with rfl | rfl <;> simp
  · rcases check_eq_error h with ⟨_, rfl⟩ | ⟨_, h⟩
    · simp
    · cases h

/-! ### What exec can do -/

/-- The effects of a command that succeeds, before BUSY is cleared. -/
inductive Effect (s : State) : Instr → State → Prop where
  /-- NOP. -/
  | nothing : Effect s .nop s
  /-- The commands that write one P register. -/
  | writeP (i : Instr) (d : PReg) (v : PolyWord) (h : touchedBy i = { p := [d] }) : Effect s i (s.writeP d v)
  /-- PDIVMOD. -/
  | divmod (q r a b : PReg) (v w : PolyWord) : Effect s (.pdivmod q r a b) ((s.writeP q v).writeP r w)
  /-- The commands that write RESULT. -/
  | writeResult (i : Instr) (v : Word) (h : touchedBy i = { result := true }) : Effect s i (s.writeResult v)
  /-- FCFG. -/
  | construct (i : Instr) (k : SlotIx) (m : BitVec 7) (pm : PReg) (e : Engine) (genx : Bool) (g : Poly)
      (ho : fcfgOperands s i = some (k, m, pm, e, genx, g))
      (hc : constructionChecks s k m.toNat (s.poly pm) e g = .ok ()) :
      Effect s i ((if e = .table then s.writeTables k (buildAlog g (s.poly pm) m.toNat) (buildLog g (s.poly pm) m.toNat)
        else s).writeSlot k (constructedSlot m (s.poly pm) e genx g))
  /-- FREL. -/
  | release (k : SlotIx) (h : Holds s k) :
      Effect s (.frel k) (((s.clearOwned k).writeSlot k (freedSlot s.draws)).writeTables k [] []).draw
  /-- ELEM. -/
  | elem (d : EReg) (a : PReg) (k : SlotIx) (h : Holds s k) (hd : deg (s.poly a) < (s.degreeOf k : Int)) :
      Effect s (.elem d a k) (s.writeE d (mkElem k (s.poly a)))
  /-- EADD and ESUB. -/
  | add (i : Instr) (d a b : EReg) (h : i = .eadd d a b ∨ i = .esub d a b) (ha : Written s a) (hb : Written s b)
      (hf : SameField s (s.ownerOf a) (s.ownerOf b)) : Effect s i (s.writeE d (addElem (s.readE a) (s.readE b)))
  /-- ENEG. -/
  | neg (d a : EReg) (ha : Written s a) : Effect s (.eneg d a) (s.writeE d (s.readE a))
  /-- EMUL. -/
  | mul (d a b : EReg) (ha : Written s a) (hb : Written s b) (hf : SameField s (s.ownerOf a) (s.ownerOf b)) :
      Effect s (.emul d a b)
        (s.writeE d (mkElem (s.ownerOf a) (fieldMul s (s.ownerOf a) (s.valOf a) (s.valOf b))))
  /-- EDIV. -/
  | div (d a b : EReg) (v : Poly) (ha : Written s a) (hb : Written s b)
      (hf : SameField s (s.ownerOf a) (s.ownerOf b)) (h0 : s.valOf b ≠ 0)
      (hv : fieldDiv s (s.ownerOf a) (s.valOf a) (s.valOf b) = .ok v) :
      Effect s (.ediv d a b) (s.writeE d (mkElem (s.ownerOf a) v))
  /-- EINV. -/
  | inv (d a : EReg) (v : Poly) (ha : Written s a) (h0 : s.valOf a ≠ 0)
      (hv : fieldInv s (s.ownerOf a) (s.valOf a) = .ok v) :
      Effect s (.einv d a) (s.writeE d (mkElem (s.ownerOf a) v))

/-- The command's engine reported c: the only way INTERNAL_INVARIANT arises. -/
def EngineError (s : State) (i : Instr) (c : Err) : Prop :=
  (∃ d a b, i = .ediv d a b ∧ Written s a ∧ Written s b ∧ SameField s (s.ownerOf a) (s.ownerOf b) ∧ s.valOf b ≠ 0 ∧
    fieldDiv s (s.ownerOf a) (s.valOf a) (s.valOf b) = .error c) ∨
  (∃ d a, i = .einv d a ∧ Written s a ∧ s.valOf a ≠ 0 ∧ fieldInv s (s.ownerOf a) (s.valOf a) = .error c)

/-- A value of an element register is 0 exactly when its polynomial is. -/
theorem valOf_eq_zero {a : EReg} : s.valOf a = 0 ↔ (s.readE a).val = 0 := by
  constructor
  · intro h; exact BitVec.eq_of_toNat_eq h
  · intro h; rw [State.valOf, h]; rfl

/-- How a command's computation ends: in one of its effects, or in an error that only an engine makes fatal. -/
def Outcomes (s : State) (i : Instr) (r : Except Err State) : Prop :=
  (∀ u, r = .ok u → Effect s i u) ∧ (∀ c, r = .error c → c = .internalInvariant → EngineError s i c)

/-- The computation of every command, and how it ends. -/
theorem exec_eq_complete_outcomes (i : Instr) (s : State) : ∃ r, exec i s = complete s r ∧ Outcomes s i r := by
  have ne : ∀ {c d : Err}, c = d → d ≠ .internalInvariant → c = .internalInvariant → EngineError s i c :=
    fun h1 h2 h3 => absurd (h1 ▸ h3) h2
  have fcfg : ∀ {k m pm e genx g}, fcfgOperands s i = some (k, m, pm, e, genx, g) →
      ∃ r, exec i s = complete s r ∧ Outcomes s i r := fun {k m pm e genx g} ho => by
    refine ⟨_, exec_fcfg ho, fun u h => ?_, fun c h hi => ?_⟩
    · obtain ⟨_, h1, h2⟩ := bind_eq_ok h
      cases h2
      exact .construct i k m pm e genx g ho h1
    · rcases bind_eq_error h with h | ⟨_, _, h⟩
      · exact absurd hi (constructionChecks_ne_internal h)
      · cases h
  cases i with
  | nop => exact ⟨.ok s, rfl, fun u h => by cases h; exact .nothing, fun c h => by cases h⟩
  | pxor d a b =>
    exact ⟨.ok (s.writeP d (s.readP a ^^^ s.readP b)), rfl, fun u h => by cases h; exact .writeP _ d _ rfl,
      fun c h => by cases h⟩
  | clmul d a b =>
    refine ⟨_, by simp only [exec, execClmul]; rfl, fun u h => ?_, fun c h => ?_⟩
    · obtain ⟨_, h⟩ := check_eq_ok h; cases h; exact .writeP _ d _ rfl
    · rcases check_eq_error h with ⟨_, h⟩ | ⟨_, h⟩
      · exact ne h (by decide)
      · cases h
  | pdeg a =>
    exact ⟨.ok (s.writeResult (degWord (s.poly a))), rfl, fun u h => by cases h; exact .writeResult _ _ rfl,
      fun c h => by cases h⟩
  | pdivmod q r a b =>
    refine ⟨_, by simp only [exec, execPdivmod]; rfl, fun u h => ?_, fun c h => ?_⟩
    · obtain ⟨_, h⟩ := check_eq_ok h; cases h; exact .divmod q r a b _ _
    · rcases check_eq_error h with ⟨_, h⟩ | ⟨_, h⟩
      · exact ne h (by decide)
      · cases h
  | pmod d a b =>
    refine ⟨_, by simp only [exec, execPmod]; rfl, fun u h => ?_, fun c h => ?_⟩
    · obtain ⟨_, h⟩ := check_eq_ok h; cases h; exact .writeP _ d _ rfl
    · rcases check_eq_error h with ⟨_, h⟩ | ⟨_, h⟩
      · exact ne h (by decide)
      · cases h
  | pshl d a n =>
    exact ⟨.ok (s.writeP d (toP (s.poly a <<< n.toNat))), rfl, fun u h => by cases h; exact .writeP _ d _ rfl,
      fun c h => by cases h⟩
  | pshr d a n =>
    exact ⟨.ok (s.writeP d (toP (s.poly a >>> n.toNat))), rfl, fun u h => by cases h; exact .writeP _ d _ rfl,
      fun c h => by cases h⟩
  | pbtst a n =>
    exact ⟨.ok (s.writeResult ((BitVec.ofBool ((s.poly a).testBit n.toNat)).setWidth 32)), rfl,
      fun u h => by cases h; exact .writeResult _ _ rfl, fun c h => by cases h⟩
  | pext d a lo len =>
    exact ⟨.ok (s.writeP d (toP ((s.poly a >>> lo.toNat) &&& ((1 <<< len.toNat) - 1)))), rfl,
      fun u h => by cases h; exact .writeP _ d _ rfl, fun c h => by cases h⟩
  | pldi d imm =>
    exact ⟨.ok (s.writeP d (imm.setWidth 256)), rfl, fun u h => by cases h; exact .writeP _ d _ rfl,
      fun c h => by cases h⟩
  | fcfgEuclid k m pm => exact fcfg rfl
  | fcfgTable k m pm => exact fcfg rfl
  | fcfgTableGen k m pm pg => exact fcfg rfl
  | frel k =>
    refine ⟨_, by simp only [exec, execFrel]; rfl, fun u h => ?_, fun c h => ?_⟩
    · obtain ⟨f, h1, h2⟩ := bind_eq_ok h; cases h2; exact .release k (State.validSlot_eq_ok h1).1
    · rcases bind_eq_error h with h | ⟨_, _, h⟩
      · rcases State.validSlot_eq_error h with h | h <;> exact ne h (by decide)
      · cases h
  | tlog k v =>
    refine ⟨_, by simp only [exec, execTlog]; rfl, fun u h => ?_, fun c h => ?_⟩
    · obtain ⟨f, h1, h2⟩ := bind_eq_ok h; obtain ⟨_, h⟩ := check_eq_ok h2; cases h; exact .writeResult _ _ rfl
    · rcases bind_eq_error h with h | ⟨_, _, h⟩
      · rcases State.tableSlot_eq_error h with h | h | h <;> exact ne h (by decide)
      · rcases check_eq_error h with ⟨_, h⟩ | ⟨_, h⟩
        · exact ne h (by decide)
        · cases h
  | talog k v =>
    refine ⟨_, by simp only [exec, execTalog]; rfl, fun u h => ?_, fun c h => ?_⟩
    · obtain ⟨f, h1, h2⟩ := bind_eq_ok h; obtain ⟨_, h⟩ := check_eq_ok h2; cases h; exact .writeResult _ _ rfl
    · rcases bind_eq_error h with h | ⟨_, _, h⟩
      · rcases State.tableSlot_eq_error h with h | h | h <;> exact ne h (by decide)
      · rcases check_eq_error h with ⟨_, h⟩ | ⟨_, h⟩
        · exact ne h (by decide)
        · cases h
  | elem d a k =>
    refine ⟨_, by simp only [exec, execElem]; rfl, fun u h => ?_, fun c h => ?_⟩
    · obtain ⟨f, h1, h2⟩ := bind_eq_ok h; obtain ⟨h3, h⟩ := check_eq_ok h2; cases h
      obtain ⟨h4, rfl⟩ := State.validSlot_eq_ok h1
      exact .elem d a k h4 (not_le.1 h3)
    · rcases bind_eq_error h with h | ⟨_, _, h⟩
      · rcases State.validSlot_eq_error h with h | h <;> exact ne h (by decide)
      · rcases check_eq_error h with ⟨_, h⟩ | ⟨_, h⟩
        · exact ne h (by decide)
        · cases h
  | eval d a =>
    refine ⟨_, by simp only [exec, execEval]; rfl, fun u h => ?_, fun c h => ?_⟩
    · obtain ⟨f, h1, h2⟩ := bind_eq_ok h; cases h2; exact .writeP _ d _ rfl
    · rcases bind_eq_error h with h | ⟨_, _, h⟩
      · exact ne (State.element_eq_error h) (by decide)
      · cases h
  | eadd d a b =>
    refine ⟨_, by simp only [exec, execEadd]; rfl, fun u h => ?_, fun c h => ?_⟩
    · obtain ⟨f, h1, h2⟩ := bind_eq_ok h; obtain ⟨ha, hb, hf, rfl⟩ := State.elementPair_eq_ok h1
      cases h2; exact .add _ d a b (.inl rfl) ha hb hf
    · rcases bind_eq_error h with h | ⟨_, _, h⟩
      · rcases State.elementPair_eq_error h with h | h <;> exact ne h (by decide)
      · cases h
  | esub d a b =>
    refine ⟨_, by simp only [exec, execEsub]; rfl, fun u h => ?_, fun c h => ?_⟩
    · obtain ⟨f, h1, h2⟩ := bind_eq_ok h; obtain ⟨ha, hb, hf, rfl⟩ := State.elementPair_eq_ok h1
      cases h2; exact .add _ d a b (.inr rfl) ha hb hf
    · rcases bind_eq_error h with h | ⟨_, _, h⟩
      · rcases State.elementPair_eq_error h with h | h <;> exact ne h (by decide)
      · cases h
  | eneg d a =>
    refine ⟨_, by simp only [exec, execEneg]; rfl, fun u h => ?_, fun c h => ?_⟩
    · obtain ⟨f, h1, h2⟩ := bind_eq_ok h; obtain ⟨ha, rfl⟩ := State.element_eq_ok h1; cases h2; exact .neg d a ha
    · rcases bind_eq_error h with h | ⟨_, _, h⟩
      · exact ne (State.element_eq_error h) (by decide)
      · cases h
  | emul d a b =>
    refine ⟨_, by simp only [exec, execEmul]; rfl, fun u h => ?_, fun c h => ?_⟩
    · obtain ⟨f, h1, h2⟩ := bind_eq_ok h; obtain ⟨ha, hb, hf, rfl⟩ := State.elementPair_eq_ok h1
      cases h2; exact .mul d a b ha hb hf
    · rcases bind_eq_error h with h | ⟨_, _, h⟩
      · rcases State.elementPair_eq_error h with h | h <;> exact ne h (by decide)
      · cases h
  | ediv d a b =>
    refine ⟨_, by simp only [exec, execEdiv]; rfl, fun u h => ?_, fun c h => ?_⟩
    · obtain ⟨f, h1, h2⟩ := bind_eq_ok h; obtain ⟨ha, hb, hf, rfl⟩ := State.elementPair_eq_ok h1
      obtain ⟨h3, h4⟩ := check_eq_ok h2; obtain ⟨v, h5, h6⟩ := bind_eq_ok h4; cases h6
      exact .div d a b v ha hb hf (fun h => h3 (valOf_eq_zero.1 h)) h5
    · rcases bind_eq_error h with h | ⟨f, h1, h⟩
      · rcases State.elementPair_eq_error h with h | h <;> exact ne h (by decide)
      · obtain ⟨ha, hb, hf, rfl⟩ := State.elementPair_eq_ok h1
        rcases check_eq_error h with ⟨_, h⟩ | ⟨h0, h⟩
        · exact ne h (by decide)
        · rcases bind_eq_error h with h | ⟨_, _, h⟩
          · exact fun _ => .inl ⟨d, a, b, rfl, ha, hb, hf, fun e => h0 (valOf_eq_zero.1 e), h⟩
          · cases h
  | einv d a =>
    refine ⟨_, by simp only [exec, execEinv]; rfl, fun u h => ?_, fun c h => ?_⟩
    · obtain ⟨f, h1, h2⟩ := bind_eq_ok h; obtain ⟨ha, rfl⟩ := State.element_eq_ok h1
      obtain ⟨h3, h4⟩ := check_eq_ok h2; obtain ⟨v, h5, h6⟩ := bind_eq_ok h4; cases h6
      exact .inv d a v ha (fun h => h3 (valOf_eq_zero.1 h)) h5
    · rcases bind_eq_error h with h | ⟨f, h1, h⟩
      · exact ne (State.element_eq_error h) (by decide)
      · obtain ⟨ha, rfl⟩ := State.element_eq_ok h1
        rcases check_eq_error h with ⟨_, h⟩ | ⟨h0, h⟩
        · exact ne h (by decide)
        · rcases bind_eq_error h with h | ⟨_, _, h⟩
          · exact fun _ => .inr ⟨d, a, rfl, ha, fun e => h0 (valOf_eq_zero.1 e), h⟩
          · cases h
  | eeq a b =>
    refine ⟨_, by simp only [exec, execEeq]; rfl, fun u h => ?_, fun c h => ?_⟩
    · obtain ⟨f, h1, h2⟩ := bind_eq_ok h; obtain ⟨g, h3, h4⟩ := bind_eq_ok h2; cases h4; exact .writeResult _ _ rfl
    · rcases bind_eq_error h with h | ⟨f, _, h⟩
      · exact ne (State.element_eq_error h) (by decide)
      · rcases bind_eq_error h with h | ⟨g, _, h⟩
        · exact ne (State.element_eq_error h) (by decide)
        · cases h

/-- What exec answers: an effect of the command with BUSY cleared, or error entry. -/
theorem exec_cases {i : Instr} (h : exec i s = .next t) :
    (∃ u, Effect s i u ∧ t = u.retire) ∨
    (∃ c, t = s.errorEntry c ∧ (c = .internalInvariant → EngineError s i c)) := by
  obtain ⟨r, hr, h1, h2⟩ := exec_eq_complete_outcomes i s
  rw [hr] at h
  rcases complete_eq_next h with ⟨u, h3, rfl⟩ | ⟨c, h3, rfl⟩
  · exact .inl ⟨u, h1 u h3, rfl⟩
  · exact .inr ⟨c, rfl, h2 c h3⟩

end Sys2Proof.Machine
end

