-- ==== Sys2Proof/Laws/PerInstr.lean ====
section
/-! SUPPORT. Facts about every command as syntax, one lemma per constructor. Family OpField: the opcode field of a
command's word is the opcode of R106. -/

namespace Sys2Proof

/-- The opcode of a command (R106). -/
def Instr.opcode : Instr → BitVec 6
  | .nop => 0x00
  | .pxor _ _ _ => 0x01
  | .clmul _ _ _ => 0x02
  | .pdeg _ => 0x03
  | .pdivmod _ _ _ _ => 0x04
  | .pmod _ _ _ => 0x05
  | .pshl _ _ _ => 0x06
  | .pshr _ _ _ => 0x07
  | .pbtst _ _ => 0x08
  | .pext _ _ _ _ => 0x09
  | .pldi _ _ => 0x0A
  | .fcfgEuclid _ _ _ => 0x10
  | .fcfgTable _ _ _ => 0x10
  | .fcfgTableGen _ _ _ _ => 0x10
  | .frel _ => 0x11
  | .tlog _ _ => 0x12
  | .talog _ _ => 0x13
  | .elem _ _ _ => 0x18
  | .eval _ _ => 0x19
  | .eadd _ _ _ => 0x20
  | .esub _ _ _ => 0x21
  | .eneg _ _ => 0x22
  | .emul _ _ _ => 0x23
  | .ediv _ _ _ => 0x24
  | .einv _ _ => 0x25
  | .eeq _ _ => 0x26

/-- Dividing by the lower part's size gives the upper part of a concatenation. -/
theorem toNat_append_div {n m : Nat} (x : BitVec n) (y : BitVec m) : (x ++ y).toNat / 2 ^ m = x.toNat := by
  rw [BitVec.toNat_append, ← Nat.shiftLeft_add_eq_or_of_lt y.isLt, Nat.shiftLeft_eq, Nat.mul_comm,
    Nat.mul_add_div (Nat.two_pow_pos m), Nat.div_eq_of_lt y.isLt, Nat.add_zero]

/-- The opcode field as a quotient. -/
theorem opOf_eq_of_div {w : Word} {op : BitVec 6} (h : w.toNat / 2 ^ 26 = op.toNat) : opOf w = op := by
  apply BitVec.eq_of_toNat_eq
  rw [opOf, BitVec.extractLsb'_toNat, Nat.shiftRight_eq_div_pow, h]
  exact Nat.mod_eq_of_lt op.isLt

namespace Laws.OpField

/-- The opcode field of the word of i is i's opcode. -/
def Statement (i : Instr) : Prop := opOf (encode i) = i.opcode

/-- nop -/
theorem nop : Statement .nop := rfl
/-- pxor -/
theorem pxor (d a b : PReg) : Statement (.pxor d a b) := by
  refine opOf_eq_of_div ?_
  rw [show 2 ^ 26 = 2 ^ 14 * 2 ^ 4 * 2 ^ 4 * 2 ^ 4 from rfl]
  simp only [← Nat.div_div_eq_div_mul]
  dsimp only [encode, formatN, formatR3, formatR2, formatS1, formatS2, formatR4, formatRI8, formatSI8, formatRX, formatI16,
    formatFC, formatF1]
  simp only [toNat_append_div]
  rfl
/-- clmul -/
theorem clmul (d a b : PReg) : Statement (.clmul d a b) := by
  refine opOf_eq_of_div ?_
  rw [show 2 ^ 26 = 2 ^ 14 * 2 ^ 4 * 2 ^ 4 * 2 ^ 4 from rfl]
  simp only [← Nat.div_div_eq_div_mul]
  dsimp only [encode, formatN, formatR3, formatR2, formatS1, formatS2, formatR4, formatRI8, formatSI8, formatRX, formatI16,
    formatFC, formatF1]
  simp only [toNat_append_div]
  rfl
/-- pdeg -/
theorem pdeg (a : PReg) : Statement (.pdeg a) := by
  refine opOf_eq_of_div ?_
  rw [show 2 ^ 26 = 2 ^ 18 * 2 ^ 4 * 2 ^ 4 from rfl]
  simp only [← Nat.div_div_eq_div_mul]
  dsimp only [encode, formatN, formatR3, formatR2, formatS1, formatS2, formatR4, formatRI8, formatSI8, formatRX, formatI16,
    formatFC, formatF1]
  simp only [toNat_append_div]
  rfl
/-- pdivmod -/
theorem pdivmod (q r a b : PReg) : Statement (.pdivmod q r a b) := by
  refine opOf_eq_of_div ?_
  rw [show 2 ^ 26 = 2 ^ 10 * 2 ^ 4 * 2 ^ 4 * 2 ^ 4 * 2 ^ 4 from rfl]
  simp only [← Nat.div_div_eq_div_mul]
  dsimp only [encode, formatN, formatR3, formatR2, formatS1, formatS2, formatR4, formatRI8, formatSI8, formatRX, formatI16,
    formatFC, formatF1]
  simp only [toNat_append_div]
  rfl
/-- pmod -/
theorem pmod (d a b : PReg) : Statement (.pmod d a b) := by
  refine opOf_eq_of_div ?_
  rw [show 2 ^ 26 = 2 ^ 14 * 2 ^ 4 * 2 ^ 4 * 2 ^ 4 from rfl]
  simp only [← Nat.div_div_eq_div_mul]
  dsimp only [encode, formatN, formatR3, formatR2, formatS1, formatS2, formatR4, formatRI8, formatSI8, formatRX, formatI16,
    formatFC, formatF1]
  simp only [toNat_append_div]
  rfl
/-- pshl -/
theorem pshl (d a : PReg) (n : BitVec 8) : Statement (.pshl d a n) := by
  refine opOf_eq_of_div ?_
  rw [show 2 ^ 26 = 2 ^ 8 * 2 ^ 10 * 2 ^ 4 * 2 ^ 4 from rfl]
  simp only [← Nat.div_div_eq_div_mul]
  dsimp only [encode, formatN, formatR3, formatR2, formatS1, formatS2, formatR4, formatRI8, formatSI8, formatRX, formatI16,
    formatFC, formatF1]
  simp only [toNat_append_div]
  rfl
/-- pshr -/
theorem pshr (d a : PReg) (n : BitVec 8) : Statement (.pshr d a n) := by
  refine opOf_eq_of_div ?_
  rw [show 2 ^ 26 = 2 ^ 8 * 2 ^ 10 * 2 ^ 4 * 2 ^ 4 from rfl]
  simp only [← Nat.div_div_eq_div_mul]
  dsimp only [encode, formatN, formatR3, formatR2, formatS1, formatS2, formatR4, formatRI8, formatSI8, formatRX, formatI16,
    formatFC, formatF1]
  simp only [toNat_append_div]
  rfl
/-- pbtst -/
theorem pbtst (a : PReg) (n : BitVec 8) : Statement (.pbtst a n) := by
  refine opOf_eq_of_div ?_
  rw [show 2 ^ 26 = 2 ^ 8 * 2 ^ 10 * 2 ^ 4 * 2 ^ 4 from rfl]
  simp only [← Nat.div_div_eq_div_mul]
  dsimp only [encode, formatN, formatR3, formatR2, formatS1, formatS2, formatR4, formatRI8, formatSI8, formatRX, formatI16,
    formatFC, formatF1]
  simp only [toNat_append_div]
  rfl
/-- pext -/
theorem pext (d a : PReg) (lo len : BitVec 8) : Statement (.pext d a lo len) := by
  refine opOf_eq_of_div ?_
  rw [show 2 ^ 26 = 2 ^ 8 * 2 ^ 8 * 2 ^ 2 * 2 ^ 4 * 2 ^ 4 from rfl]
  simp only [← Nat.div_div_eq_div_mul]
  dsimp only [encode, formatN, formatR3, formatR2, formatS1, formatS2, formatR4, formatRI8, formatSI8, formatRX, formatI16,
    formatFC, formatF1]
  simp only [toNat_append_div]
  rfl
/-- pldi -/
theorem pldi (d : PReg) (imm : BitVec 16) : Statement (.pldi d imm) := by
  refine opOf_eq_of_div ?_
  rw [show 2 ^ 26 = 2 ^ 16 * 2 ^ 6 * 2 ^ 4 from rfl]
  simp only [← Nat.div_div_eq_div_mul]
  dsimp only [encode, formatN, formatR3, formatR2, formatS1, formatS2, formatR4, formatRI8, formatSI8, formatRX, formatI16,
    formatFC, formatF1]
  simp only [toNat_append_div]
  rfl
/-- fcfgEuclid -/
theorem fcfgEuclid (k : SlotIx) (m : BitVec 7) (pm : PReg) : Statement (.fcfgEuclid k m pm) := by
  refine opOf_eq_of_div ?_
  rw [show 2 ^ 26 = 2 ^ 4 * 2 ^ 4 * 2 ^ 4 * 2 ^ 1 * 2 ^ 1 * 2 ^ 1 * 2 ^ 7 * 2 ^ 4 from rfl]
  simp only [← Nat.div_div_eq_div_mul]
  dsimp only [encode, formatN, formatR3, formatR2, formatS1, formatS2, formatR4, formatRI8, formatSI8, formatRX, formatI16,
    formatFC, formatF1]
  simp only [toNat_append_div]
  rfl
/-- fcfgTable -/
theorem fcfgTable (k : SlotIx) (m : BitVec 7) (pm : PReg) : Statement (.fcfgTable k m pm) := by
  refine opOf_eq_of_div ?_
  rw [show 2 ^ 26 = 2 ^ 4 * 2 ^ 4 * 2 ^ 4 * 2 ^ 1 * 2 ^ 1 * 2 ^ 1 * 2 ^ 7 * 2 ^ 4 from rfl]
  simp only [← Nat.div_div_eq_div_mul]
  dsimp only [encode, formatN, formatR3, formatR2, formatS1, formatS2, formatR4, formatRI8, formatSI8, formatRX, formatI16,
    formatFC, formatF1]
  simp only [toNat_append_div]
  rfl
/-- fcfgTableGen -/
theorem fcfgTableGen (k : SlotIx) (m : BitVec 7) (pm pg : PReg) : Statement (.fcfgTableGen k m pm pg) := by
  refine opOf_eq_of_div ?_
  rw [show 2 ^ 26 = 2 ^ 4 * 2 ^ 4 * 2 ^ 4 * 2 ^ 1 * 2 ^ 1 * 2 ^ 1 * 2 ^ 7 * 2 ^ 4 from rfl]
  simp only [← Nat.div_div_eq_div_mul]
  dsimp only [encode, formatN, formatR3, formatR2, formatS1, formatS2, formatR4, formatRI8, formatSI8, formatRX, formatI16,
    formatFC, formatF1]
  simp only [toNat_append_div]
  rfl
/-- frel -/
theorem frel (k : SlotIx) : Statement (.frel k) := by
  refine opOf_eq_of_div ?_
  rw [show 2 ^ 26 = 2 ^ 22 * 2 ^ 4 from rfl]
  simp only [← Nat.div_div_eq_div_mul]
  dsimp only [encode, formatN, formatR3, formatR2, formatS1, formatS2, formatR4, formatRI8, formatSI8, formatRX, formatI16,
    formatFC, formatF1]
  simp only [toNat_append_div]
  rfl
/-- tlog -/
theorem tlog (k : SlotIx) (v : BitVec 16) : Statement (.tlog k v) := by
  refine opOf_eq_of_div ?_
  rw [show 2 ^ 26 = 2 ^ 16 * 2 ^ 6 * 2 ^ 4 from rfl]
  simp only [← Nat.div_div_eq_div_mul]
  dsimp only [encode, formatN, formatR3, formatR2, formatS1, formatS2, formatR4, formatRI8, formatSI8, formatRX, formatI16,
    formatFC, formatF1]
  simp only [toNat_append_div]
  rfl
/-- talog -/
theorem talog (k : SlotIx) (i : BitVec 16) : Statement (.talog k i) := by
  refine opOf_eq_of_div ?_
  rw [show 2 ^ 26 = 2 ^ 16 * 2 ^ 6 * 2 ^ 4 from rfl]
  simp only [← Nat.div_div_eq_div_mul]
  dsimp only [encode, formatN, formatR3, formatR2, formatS1, formatS2, formatR4, formatRI8, formatSI8, formatRX, formatI16,
    formatFC, formatF1]
  simp only [toNat_append_div]
  rfl
/-- elem -/
theorem elem (d : EReg) (a : PReg) (k : SlotIx) : Statement (.elem d a k) := by
  refine opOf_eq_of_div ?_
  rw [show 2 ^ 26 = 2 ^ 14 * 2 ^ 4 * 2 ^ 4 * 2 ^ 4 from rfl]
  simp only [← Nat.div_div_eq_div_mul]
  dsimp only [encode, formatN, formatR3, formatR2, formatS1, formatS2, formatR4, formatRI8, formatSI8, formatRX, formatI16,
    formatFC, formatF1]
  simp only [toNat_append_div]
  rfl
/-- eval -/
theorem eval (d : PReg) (a : EReg) : Statement (.eval d a) := by
  refine opOf_eq_of_div ?_
  rw [show 2 ^ 26 = 2 ^ 18 * 2 ^ 4 * 2 ^ 4 from rfl]
  simp only [← Nat.div_div_eq_div_mul]
  dsimp only [encode, formatN, formatR3, formatR2, formatS1, formatS2, formatR4, formatRI8, formatSI8, formatRX, formatI16,
    formatFC, formatF1]
  simp only [toNat_append_div]
  rfl
/-- eadd -/
theorem eadd (d a b : EReg) : Statement (.eadd d a b) := by
  refine opOf_eq_of_div ?_
  rw [show 2 ^ 26 = 2 ^ 14 * 2 ^ 4 * 2 ^ 4 * 2 ^ 4 from rfl]
  simp only [← Nat.div_div_eq_div_mul]
  dsimp only [encode, formatN, formatR3, formatR2, formatS1, formatS2, formatR4, formatRI8, formatSI8, formatRX, formatI16,
    formatFC, formatF1]
  simp only [toNat_append_div]
  rfl
/-- esub -/
theorem esub (d a b : EReg) : Statement (.esub d a b) := by
  refine opOf_eq_of_div ?_
  rw [show 2 ^ 26 = 2 ^ 14 * 2 ^ 4 * 2 ^ 4 * 2 ^ 4 from rfl]
  simp only [← Nat.div_div_eq_div_mul]
  dsimp only [encode, formatN, formatR3, formatR2, formatS1, formatS2, formatR4, formatRI8, formatSI8, formatRX, formatI16,
    formatFC, formatF1]
  simp only [toNat_append_div]
  rfl
/-- eneg -/
theorem eneg (d a : EReg) : Statement (.eneg d a) := by
  refine opOf_eq_of_div ?_
  rw [show 2 ^ 26 = 2 ^ 18 * 2 ^ 4 * 2 ^ 4 from rfl]
  simp only [← Nat.div_div_eq_div_mul]
  dsimp only [encode, formatN, formatR3, formatR2, formatS1, formatS2, formatR4, formatRI8, formatSI8, formatRX, formatI16,
    formatFC, formatF1]
  simp only [toNat_append_div]
  rfl
/-- emul -/
theorem emul (d a b : EReg) : Statement (.emul d a b) := by
  refine opOf_eq_of_div ?_
  rw [show 2 ^ 26 = 2 ^ 14 * 2 ^ 4 * 2 ^ 4 * 2 ^ 4 from rfl]
  simp only [← Nat.div_div_eq_div_mul]
  dsimp only [encode, formatN, formatR3, formatR2, formatS1, formatS2, formatR4, formatRI8, formatSI8, formatRX, formatI16,
    formatFC, formatF1]
  simp only [toNat_append_div]
  rfl
/-- ediv -/
theorem ediv (d a b : EReg) : Statement (.ediv d a b) := by
  refine opOf_eq_of_div ?_
  rw [show 2 ^ 26 = 2 ^ 14 * 2 ^ 4 * 2 ^ 4 * 2 ^ 4 from rfl]
  simp only [← Nat.div_div_eq_div_mul]
  dsimp only [encode, formatN, formatR3, formatR2, formatS1, formatS2, formatR4, formatRI8, formatSI8, formatRX, formatI16,
    formatFC, formatF1]
  simp only [toNat_append_div]
  rfl
/-- einv -/
theorem einv (d a : EReg) : Statement (.einv d a) := by
  refine opOf_eq_of_div ?_
  rw [show 2 ^ 26 = 2 ^ 18 * 2 ^ 4 * 2 ^ 4 from rfl]
  simp only [← Nat.div_div_eq_div_mul]
  dsimp only [encode, formatN, formatR3, formatR2, formatS1, formatS2, formatR4, formatRI8, formatSI8, formatRX, formatI16,
    formatFC, formatF1]
  simp only [toNat_append_div]
  rfl
/-- eeq -/
theorem eeq (a b : EReg) : Statement (.eeq a b) := by
  refine opOf_eq_of_div ?_
  rw [show 2 ^ 26 = 2 ^ 14 * 2 ^ 4 * 2 ^ 4 * 2 ^ 4 from rfl]
  simp only [← Nat.div_div_eq_div_mul]
  dsimp only [encode, formatN, formatR3, formatR2, formatS1, formatS2, formatR4, formatRI8, formatSI8, formatRX, formatI16,
    formatFC, formatF1]
  simp only [toNat_append_div]
  rfl

end Laws.OpField

end Sys2Proof
end

