-- ==== Sys2Proof/Tests/Slice0.lean ====
section
/-! SUPPORT. Tests and witnesses. The expected value of every test is a worked example of the spec (the vector's number in
95_test_vectors.md, or the rule whose example it is, stands in its docstring) or follows by hand from the rule named. The
witnesses show, for every obligation with hypotheses, states and operands that meet them. -/

namespace Sys2Proof.Tests

open Sys2Proof.Machine

/-! ### Small states -/

/-- s with P[i] = v. -/
def putP (s : State) (i : PReg) (v : Nat) : State := s.writeP i (BitVec.ofNat 256 v)
/-- s with a Euclidean field of degree m and modulus f in slot k. -/
def putEuclid (s : State) (k : SlotIx) (m : Nat) (f : Nat) : State :=
  s.writeSlot k ⟨true, BitVec.ofNat 7 m, BitVec.ofNat 128 f, .euclidean, false, 0⟩
/-- s with an element of slot k in E[i]. -/
def putE (s : State) (i : EReg) (k : SlotIx) (v : Nat) : State := s.writeE i ⟨true, k, BitVec.ofNat 127 v⟩
/-- The state after the one command word w, run by step. -/
def after (w : Nat) (s : State) : Option State :=
  match step (s.withFetchWord 32 w) with
  | .next t => some t
  | .fault _ => none
  | .refused _ => none
/-- P[i] after the command word w. -/
def pAfter (w : Nat) (i : PReg) (s : State) : Option Nat := (after w s).map (·.poly i)
/-- E[i] after the command word w, as owner and value, none where it holds no element. -/
def eAfter (w : Nat) (i : EReg) (s : State) : Option (Option (Nat × Nat)) :=
  (after w s).map fun t => if (t.readE i).wr then some ((t.readE i).fs.val, (t.readE i).val.toNat) else none
/-- RESULT after the command word w. -/
def resultAfter (w : Nat) (s : State) : Option Nat := (after w s).map (·.result.toNat)
/-- STATUS after the command word w. -/
def statusAfter (w : Nat) (s : State) : Option Nat := (after w s).map (·.status.word.toNat)

/-- P1 = a and P2 = b after reset. -/
def twoP (a b : Nat) : State := putP (putP State.reset 1 a) 2 b
/-- P0 = 0x11B, the AES field in slot 0, E0 = 0x53, E1 = 0xCA, E6 = 0. -/
def aes : State :=
  putE (putE (putE (putEuclid (putP State.reset 0 0x11B) 0 8 0x11B) 0 0 0x53) 1 0 0xCA) 6 0 0
/-- P0 = 0x13. -/
def p13 : State := putP State.reset 0 0x13
/-- GF(16) with the table engine in slot 1 and the Euclidean engine in slot 2 (program 2), E0 = 7 of slot 1, E1 = 0xB of
slot 2. -/
def gf16 : State :=
  let t := (p13.writeTables 1 (buildAlog 2 0x13 4) (buildLog 2 0x13 4)).writeSlot 1 ⟨true, 4, 0x13, .table, false, 2⟩
  putE (putE (putEuclid t 2 4 0x13) 0 1 7) 1 2 0xB

/-! ### Well-formedness: the one check, and an ill-formed term it refuses in every command that names a slot -/

/-- R107 item 5: K = 4 names no slot. -/
theorem test_wf_refuses_slot_4 :
    (Instr.fcfgEuclid 4 8 0).wf = false ∧ (Instr.fcfgTable 4 8 0).wf = false ∧ (Instr.fcfgTableGen 4 8 0 1).wf = false ∧
    (Instr.frel 4).wf = false ∧ (Instr.tlog 4 1).wf = false ∧ (Instr.talog 4 1).wf = false ∧
    (Instr.elem 0 0 4).wf = false := by decide
/-- K = 3 names the last slot. -/
theorem test_wf_admits_slot_3 : (Instr.frel 3).wf = true ∧ (Instr.elem 15 15 3).wf = true := by decide

/-! ### Decoding: one word per constructor, written out field by field from the formats of R92 to R103 -/

/-- NOP: 26 zeros (R92). -/
theorem test_decode_nop : decode 0b00000000000000000000000000000000 = .ok .nop := by decide
/-- PXOR p3, p1, p2: 000001 0011 0001 0010 and 14 zeros (R93). -/
theorem test_decode_pxor : decode 0b00000100110001001000000000000000 = .ok (.pxor 3 1 2) := by decide
/-- CLMUL p3, p1, p2: 000010 0011 0001 0010 (R93). -/
theorem test_decode_clmul : decode 0b00001000110001001000000000000000 = .ok (.clmul 3 1 2) := by decide
/-- PDEG p5: 000011 0000 0101 and 18 zeros (R95). -/
theorem test_decode_pdeg : decode 0b00001100000101000000000000000000 = .ok (.pdeg 5) := by decide
/-- PDIVMOD p3, p4, p1, p2: 000100 0011 0001 0010 0100 and 10 zeros (R96). -/
theorem test_decode_pdivmod : decode 0b00010000110001001001000000000000 = .ok (.pdivmod 3 4 1 2) := by decide
/-- PMOD p3, p1, p2: 000101 0011 0001 0010 (R93). -/
theorem test_decode_pmod : decode 0b00010100110001001000000000000000 = .ok (.pmod 3 1 2) := by decide
/-- PSHL p2, p1, 255: 000110 0010 0001, 10 zeros, 11111111 (R97). -/
theorem test_decode_pshl : decode 0b00011000100001000000000011111111 = .ok (.pshl 2 1 255) := by decide
/-- PSHR p2, p1, 4: 000111 0010 0001, 10 zeros, 00000100 (R97). -/
theorem test_decode_pshr : decode 0b00011100100001000000000000000100 = .ok (.pshr 2 1 4) := by decide
/-- PBTST p9, 8: 001000 0000 1001, 10 zeros, 00001000 (R97). -/
theorem test_decode_pbtst : decode 0b00100000001001000000000000001000 = .ok (.pbtst 9 8) := by decide
/-- PEXT p2, p1, 250, 10: 001001 0010 0001 00 00001010 11111010 (R98: L, then N). -/
theorem test_decode_pext : decode 0b00100100100001000000101011111010 = .ok (.pext 2 1 250 10) := by decide
/-- PLDI p15, 0xFFFF: 001010 1111 000000 1111111111111111 (R99). -/
theorem test_decode_pldi : decode 0b00101011110000001111111111111111 = .ok (.pldi 15 0xFFFF) := by decide
/-- FCFG f3, 127, p5, EUCLID: 010000 0011 1111111 0 0 0 0101 0000 0000 (R100). -/
theorem test_decode_fcfg_euclid : decode 0b01000000111111111000010100000000 = .ok (.fcfgEuclid 3 127 5) := by decide
/-- FCFG f1, 4, p0, TABLE: 010000 0001 0000100 1 0 0 0000 0000 0000 (R100, R170's example). -/
theorem test_decode_fcfg_table : decode 0b01000000010000100100000000000000 = .ok (.fcfgTable 1 4 0) := by decide
/-- FCFG f3, 4, p5, TABLE, p6: 010000 0011 0000100 1 1 0 0101 0110 0000 (R100). -/
theorem test_decode_fcfg_table_gen : decode 0b01000000110000100110010101100000 = .ok (.fcfgTableGen 3 4 5 6) := by decide
/-- FREL f3: 010001 0011 and 22 zeros (R101). -/
theorem test_decode_frel : decode 0b01000100110000000000000000000000 = .ok (.frel 3) := by decide
/-- TLOG f1, 9: 010010 0001 000000 0000000000001001 (R102). -/
theorem test_decode_tlog : decode 0b01001000010000000000000000001001 = .ok (.tlog 1 9) := by decide
/-- TALOG f1, 7: 010011 0001 000000 0000000000000111 (R102). -/
theorem test_decode_talog : decode 0b01001100010000000000000000000111 = .ok (.talog 1 7) := by decide
/-- ELEM e5, p3, f2: 011000 0101 0011 0010 and 14 zeros (R103). -/
theorem test_decode_elem : decode 0b01100001010011001000000000000000 = .ok (.elem 5 3 2) := by decide
/-- EVAL p3, e2: 011001 0011 0010 and 18 zeros (R94). -/
theorem test_decode_eval : decode 0b01100100110010000000000000000000 = .ok (.eval 3 2) := by decide
/-- EADD e2, e0, e1: 100000 0010 0000 0001 (R93). -/
theorem test_decode_eadd : decode 0b10000000100000000100000000000000 = .ok (.eadd 2 0 1) := by decide
/-- ESUB e2, e0, e1: 100001 0010 0000 0001 (R93). -/
theorem test_decode_esub : decode 0b10000100100000000100000000000000 = .ok (.esub 2 0 1) := by decide
/-- ENEG e4, e1: 100010 0100 0001 and 18 zeros (R94). -/
theorem test_decode_eneg : decode 0b10001001000001000000000000000000 = .ok (.eneg 4 1) := by decide
/-- EMUL e2, e0, e1: 100011 0010 0000 0001 (R93). -/
theorem test_decode_emul : decode 0b10001100100000000100000000000000 = .ok (.emul 2 0 1) := by decide
/-- EDIV e2, e0, e1: 100100 0010 0000 0001 (R93). -/
theorem test_decode_ediv : decode 0b10010000100000000100000000000000 = .ok (.ediv 2 0 1) := by decide
/-- EINV e3, e1: 100101 0011 0001 and 18 zeros (R94). -/
theorem test_decode_einv : decode 0b10010100110001000000000000000000 = .ok (.einv 3 1) := by decide
/-- EEQ e3, e1: 100110 0000 0011 0001 and 14 zeros (R95). -/
theorem test_decode_eeq : decode 0b10011000000011000100000000000000 = .ok (.eeq 3 1) := by decide

/-- L2.6 rows 1 to 5 and L2.2 rows 14 to 17: the five kinds of illegal words (R107). -/
theorem test_decode_illegal :
    decode 0x2C000000 = .error .reservedOpcode ∧ decode 0xFC000000 = .error .reservedOpcode ∧
    decode 0x00000001 = .error .reservedBits ∧ decode 0x0C400001 = .error .reservedBits ∧
    decode 0x98400000 = .error .reservedBits ∧ decode 0x40C22560 = .error .generatorForEuclid ∧
    decode 0x40C24560 = .error .generatorRegisterUnused ∧ decode 0x41020500 = .error .slotOutOfRange ∧
    decode 0x40C20501 = .error .reservedBits := by decide
/-- The encoder gives the words of the spec's examples (R170, R171, R210, R260, R264, R268). -/
theorem test_encode :
    encode (.fcfgTable 1 4 0) = 0x40424000 ∧ encode (.fcfgTableGen 0 8 0 1) = 0x40046010 ∧
    encode (.frel 0) = 0x44000000 ∧ encode (.tlog 1 9) = 0x48400009 ∧ encode (.elem 0 1 0) = 0x60040000 ∧
    encode (.eneg 4 0) = 0x89000000 ∧ encode (.eeq 3 1) = 0x980C4000 ∧ encode (.pext 2 1 250 10) = 0x24840AFA ∧
    encode (.pdivmod 3 4 1 2) = 0x10C49000 := by decide

/-! ### Bit-polynomial commands (L2.1) -/

/-- L2.1 row 37: NOP. -/
theorem test_nop : statusAfter 0x00000000 State.reset = some 0 := by decide
/-- L2.1 row 1: PXOR p3, p1, p2. -/
theorem test_pxor : pAfter 0x04C48000 3 (twoP 0x11B 0x1B) = some 0x100 := by decide
/-- L2.1 row 3: CLMUL p3, p1, p2. -/
theorem test_clmul : pAfter 0x08C48000 3 (twoP 0x53 0xCA) = some 0x3F7E := by decide
/-- L2.1 rows 6 and 7: the degree sums 255 and 256. -/
theorem test_clmul_width :
    pAfter 0x08C48000 3 (twoP (2 ^ 200) (2 ^ 55)) = some (2 ^ 255) ∧
    statusAfter 0x08C48000 (twoP (2 ^ 200) (2 ^ 56)) = some 0x00021602 := by decide
/-- L2.1 row 10: PDEG of 0. -/
theorem test_pdeg_zero : resultAfter 0x0C000000 State.reset = some 0xFFFFFFFF := by decide
/-- L2.1 rows 9 and 12: PDEG. -/
theorem test_pdeg :
    resultAfter 0x0C000000 (putP State.reset 0 0x11B) = some 8 ∧
    resultAfter 0x0C000000 (putP State.reset 0 (2 ^ 255)) = some 255 := by decide
/-- L2.1 row 13: PDIVMOD p3, p4, p1, p2. -/
theorem test_pdivmod :
    pAfter 0x10C49000 3 (twoP 0x3F7E 0x11B) = some 0x3D ∧ pAfter 0x10C49000 4 (twoP 0x3F7E 0x11B) = some 1 := by decide
/-- L2.1 rows 17 and 18: one register named twice, and a zero divisor. -/
theorem test_pdivmod_corners :
    pAfter 0x10C48C00 3 (twoP 0x3F7E 0x11B) = some 1 ∧
    statusAfter 0x10C49000 (twoP 0x3F7E 0) = some 0x00040802 ∧
    (after 0x10C49000 (twoP 0x3F7E 0)).map (·.errcmd) = some 0x10C49000 := by decide
/-- L2.1 row 20: PMOD. -/
theorem test_pmod : pAfter 0x14C48000 3 (twoP (2 ^ 127 + 2 ^ 64 + 5) 0x11B) = some 0x35 := by decide
/-- L2.1 row 21: PMOD by 0. -/
theorem test_pmod_zero : statusAfter 0x14C48000 (twoP 0x3F7E 0) = some 0x00050802 := by decide
/-- L2.1 rows 22 and 23: PSHL onto its own source, and the loss of bit 255. -/
theorem test_pshl :
    pAfter 0x1844007F 1 (twoP 1 0) = some (2 ^ 127) ∧ pAfter 0x18840001 2 (twoP (2 ^ 255 + 1) 0) = some 2 := by decide
/-- L2.1 row 27: PSHR by 255. -/
theorem test_pshr : pAfter 0x1C8400FF 2 (twoP (2 ^ 255 + 2 ^ 254) 0) = some 1 := by decide
/-- L2.1 rows 28 and 29: PBTST. -/
theorem test_pbtst :
    resultAfter 0x20000008 (putP State.reset 0 0x11B) = some 1 ∧
    resultAfter 0x20000002 (putP State.reset 0 0x11B) = some 0 := by decide
/-- L2.1 rows 31 and 33: PEXT inside, and over the top of the register. -/
theorem test_pext :
    pAfter 0x24840303 2 (twoP 0x11B 0) = some 3 ∧ pAfter 0x24840AFA 2 (twoP (2 ^ 256 - 1) 0) = some 0x3F := by decide
/-- L2.1 row 36: PLDI clears the upper bits. -/
theorem test_pldi : pAfter 0x2BC0FFFF 15 (putP State.reset 15 (2 ^ 200)) = some 0xFFFF := by decide

/-! ### Field commands (L1.2, L2.2) -/

/-- L1.2: FCFG f1, 4, p0, TABLE: FINFO and the antilog table. -/
theorem test_fcfg_table :
    (after 0x40424000 p13).map (fun t => (t.finfo 1, (t.alogOf 1).map (fun c => c.2.toNat))) =
      some (0x00028104, [1, 2, 4, 8, 3, 6, 0xC, 0xB, 5, 0xA, 7, 0xE, 0xF, 0xD, 9]) := by decide
/-- L1.2: the log table of the same field. -/
theorem test_fcfg_log_table :
    (after 0x40424000 p13).map (fun t => (t.logOf 1).map (fun c => (c.1, c.2.toNat))) =
      some [(1, 0), (2, 1), (3, 4), (4, 2), (5, 8), (6, 5), (7, 10), (8, 3), (9, 14), (10, 9), (11, 7), (12, 6), (13, 13),
        (14, 11), (15, 12)] := by decide
/-- L2.2 row 10: FCFG f3, 4, p5, TABLE, p6 with the generator x + 1. -/
theorem test_fcfg_table_gen :
    (after 0x40C26560 (putP (putP State.reset 5 0x1F) 6 3)).map
      (fun t => (t.finfo 3, (t.alogOf 3).map (fun c => c.2.toNat))) =
      some (0x00038304, [1, 3, 5, 0xF, 0xE, 0xD, 8, 7, 9, 4, 0xC, 0xB, 2, 6, 0xA]) := by decide
/-- L2.2 rows 11 to 13: generators that are refused. -/
theorem test_fcfg_bad_generator :
    statusAfter 0x40C26560 (putP (putP State.reset 5 0x1F) 6 0x10) = some 0x00100602 ∧
    statusAfter 0x40C26560 (putP (putP State.reset 5 0x1F) 6 1) = some 0x00100402 ∧
    statusAfter 0x40C26560 (putP (putP State.reset 5 0x1F) 6 0) = some 0x00100402 := by decide
/-- L2.2 row 2: FCFG f2, 4, p0, EUCLID. -/
theorem test_fcfg_euclid : (after 0x40820000 p13).map (·.finfo 2) = some 0x00008004 := by decide
/-- L2.2 rows 3, 5, 7, 8 and 9: what a construction refuses. -/
theorem test_fcfg_checks :
    statusAfter 0x40C00000 p13 = some 0x00100102 ∧
    statusAfter 0x40C20500 State.reset = some 0x00100202 ∧
    statusAfter 0x40C20500 (putP State.reset 5 0x15) = some 0x00100302 ∧
    statusAfter 0x40C8C500 (putP State.reset 5 0x20009) = some 0x00100502 ∧
    statusAfter 0x40C24500 (putP State.reset 5 0x1F) = some 0x00100402 := by decide
/-- L2.2 rows 21 and 22: FREL of a slot that holds a field (its element goes, an element of another slot stays), and of a
free one. -/
theorem test_frel :
    eAfter 0x44400000 0 gf16 = some none ∧ eAfter 0x44400000 1 gf16 = some (some (2, 0xB)) ∧
    (after 0x44400000 gf16).map (·.finfo 1) = some 0 ∧ statusAfter 0x44C00000 gf16 = some 0x00111202 := by decide

/-! ### Table reads (L2.3) -/

/-- L2.3 row 3: TLOG f1, 9. -/
theorem test_tlog : resultAfter 0x48400009 gf16 = some 14 := by decide
/-- L2.3 rows 8, 9 and 11: TLOG refused. -/
theorem test_tlog_errors :
    statusAfter 0x48400000 gf16 = some 0x00121502 ∧ statusAfter 0x48400010 gf16 = some 0x00121502 ∧
    statusAfter 0x48800001 gf16 = some 0x00121402 := by decide
/-- L2.3 row 6: TALOG f1, 7. -/
theorem test_talog : resultAfter 0x4C400007 gf16 = some 0xB := by decide
/-- L2.3 rows 10 and 12: TALOG refused. -/
theorem test_talog_errors :
    statusAfter 0x4C40000F gf16 = some 0x00131502 ∧ statusAfter 0x4C000001 gf16 = some 0x00131202 := by decide

/-! ### Element commands (L2.3 to L2.5) -/

/-- L2.5 row 5: ELEM e5, p3, f0 with the largest legal value. -/
theorem test_elem : eAfter 0x614C0000 5 (putP aes 3 0xFF) = some (some (0, 0xFF)) := by decide
/-- L2.5 rows 3, 4 and 7: ELEM refused. -/
theorem test_elem_errors :
    statusAfter 0x614C0000 (putP aes 3 0x100) = some 0x00180602 ∧
    statusAfter 0x614C0000 (putP aes 3 (2 ^ 255)) = some 0x00180602 ∧
    statusAfter 0x61CC8000 aes = some 0x00181202 := by decide
/-- L2.5 row 10: EVAL p3, e1. -/
theorem test_eval : pAfter 0x64C40000 3 aes = some 0xCA := by decide
/-- L2.5 row 11: EVAL of an unwritten register. -/
theorem test_eval_unwritten : statusAfter 0x64E40000 aes = some 0x00191102 := by decide
/-- L2.5 row 12: EADD e2, e0, e1. -/
theorem test_eadd : eAfter 0x80804000 2 aes = some (some (0, 0x99)) := by decide
/-- L2.5 rows 16 and 17: EADD of elements of different fields, and of an unwritten one. -/
theorem test_eadd_errors :
    statusAfter 0x80820000 (putE (putEuclid aes 1 4 0x13) 8 1 7) = some 0x00200702 ∧
    statusAfter 0x80824000 aes = some 0x00201102 := by decide
/-- L2.5 row 15: ESUB e2, e0, e1. -/
theorem test_esub : eAfter 0x84804000 2 aes = some (some (0, 0x99)) := by decide
/-- L2.5 row 19: ENEG e4, e0. -/
theorem test_eneg : eAfter 0x89000000 4 aes = some (some (0, 0x53)) := by decide
/-- L2.5 row 20: EMUL e2, e0, e1 by the Euclidean engine. -/
theorem test_emul : eAfter 0x8C804000 2 aes = some (some (0, 1)) := by decide
/-- Program 2 rows 8 and 9: EMUL by the table engine, and owned by the first operand's slot. -/
theorem test_emul_table :
    eAfter 0x8C804000 2 gf16 = some (some (1, 4)) ∧ eAfter 0x8CC40000 3 gf16 = some (some (2, 4)) := by decide
/-- L2.5 rows 23 and 24: EDIV, and EDIV by 0. -/
theorem test_ediv :
    eAfter 0x90804000 2 aes = some (some (0, 0xB5)) ∧ statusAfter 0x90818000 aes = some 0x00240802 := by decide
/-- L2.3: DIV(7, 0xB) = 8 by the table engine. -/
theorem test_ediv_table : eAfter 0x90804000 2 gf16 = some (some (1, 8)) := by decide
/-- L2.5 rows 26 and 27: EINV, and EINV of 0. -/
theorem test_einv :
    eAfter 0x94C00000 3 aes = some (some (0, 0xCA)) ∧ statusAfter 0x94D80000 aes = some 0x00250802 := by decide
/-- Program 2 row 11: EINV by the table engine; and L2.4: a reducible modulus, injected, sets FATAL. -/
theorem test_einv_table_and_fatal :
    eAfter 0x95000000 4 gf16 = some (some (1, 6)) ∧
    statusAfter 0x94C00000 (putE (putEuclid State.reset 0 4 0x15) 0 0 7) = some 0x00250906 := by decide
/-- L2.5 rows 28, 29 and 31: EEQ (the element 0xCA stands in E3), and zeros of different fields. -/
theorem test_eeq :
    resultAfter 0x980C4000 (putE aes 3 0 0xCA) = some 1 ∧ resultAfter 0x98004000 aes = some 0 ∧
    resultAfter 0x981A4000 (putE (putEuclid aes 1 4 0x13) 9 1 0) = some 0 := by decide

/-! ### The host port and the error state (L2.6) -/

/-- s with the error report of a CLMUL overflow, as after L2.6 row 6. -/
def overflowed : State := (twoP (2 ^ 200) (2 ^ 56)).issue 0x08C48000 |>.errorEntry .widthOverflow
/-- What the next host step leaves. -/
def stepped (e : PortEvent) (s : State) : Option State :=
  match step { s with schedule := [e] } with
  | .next t => some t
  | .fault _ => none
  | .refused _ => none

/-- L2.6 rows 7 and 8: a CMD write in the error state is dropped, ERRCLR ends it. -/
theorem test_error_state :
    (stepped (.write 0x004 4 0x29C00005) overflowed).map (fun t => (t.status.word, t.errcmd)) =
      some (0x00021602, 0x08C48000) ∧
    (stepped (.write 0x010 4 1) overflowed).map (fun t => (t.status.word, t.errcmd)) = some (0, 0) := by decide
/-- L2.6 rows 10 and 11: CMD and window writes while BUSY are dropped and set OVR. -/
theorem test_overrun :
    (stepped (.write 0x004 4 5) ((twoP 1 2).issue 0)).map (fun t => (t.status.word, t.cmdLatch)) = some (9, 0) ∧
    (stepped (.write 0x220 4 5) ((twoP 1 2).issue 0)).map (fun t => (t.status.word, t.poly 1)) = some (9, 1) := by decide
/-- R63, R64: word 7 of P1 holds the bits 255..224. -/
theorem test_window :
    (stepped (.write 0x23C 4 0x80000000) (twoP 1 2)).map (·.poly 1) = some (2 ^ 255 + 1) ∧
    (stepped (.read 0x240 4) (twoP 1 2)).map (·.readData) = some (some 2) := by decide
/-- L2.6 rows 15 and 16: ID and PARAM. -/
theorem test_id_and_param :
    (stepped (.read 0x000 4) State.reset).map (·.readData) = some (some 0x47463250) ∧
    (stepped (.read 0x014 4) State.reset).map (·.readData) = some (some 0x10041010) := by decide

/-! ### The irreducibility test against the rule's own trial division -/

/-- Trial division by every polynomial of degree 1 to ⌊m/2⌋, as R160 writes it. -/
def trialDivision (f : Poly) (m : Nat) : Bool :=
  (List.range (2 ^ (m / 2 + 1))).all (fun h => decide (h < 2) || decide (rmod f h ≠ 0))
/-- The two agree on every polynomial of degree 2 to 4. -/
theorem test_irreducible_is_trial_division :
    ([4, 5, 6, 7, 8, 9, 10, 11, 12, 13, 14, 15, 16, 17, 18, 19, 20, 21, 22, 23, 24, 25, 26, 27, 28, 29, 30, 31] : List Poly).all
      (fun f => irreducible f f.log2 == trialDivision f f.log2) = true := by decide +kernel
/-- R163: under 0x11B, which is irreducible, x has order 51. -/
theorem test_order_of_x_under_0x11B : irreducible 0x11B 8 = true ∧ genPow 2 0x11B 51 = 1 := by decide +kernel

/-! ### A state that meets every invariant: GF(4) in a Euclidean and in a table slot, with elements in both -/

/-- GF(4) over x^2 + x + 1: Euclidean in slot 0, table with generator x in slot 1; E0 = x of slot 0, E1 = x + 1 of
slot 1, E2 = 0 of slot 0; P0 = 7. -/
def gf4 : State :=
  let t := ((putP State.reset 0 7).writeTables 1 [(0, 1), (1, 2), (2, 3)] [(1, 0), (2, 1), (3, 2)]).writeSlot 1
    ⟨true, 2, 7, .table, false, 2⟩
  putE (putE (putE (putEuclid t 0 2 7) 0 0 2) 1 1 3) 2 0 0

/-- IRRED looks at finitely many divisors. -/
theorem irred_of_bounded {f m : Nat} (h : ∀ g < 2 ^ (m / 2 + 1), 2 ≤ g → rmod f g ≠ 0) : IRRED f m := by
  intro g h1 h2
  refine h g ?_ ?_
  · have : deg g < ((m / 2 + 1 : Nat) : Int) := by rw [Nat.cast_add]; exact Int.lt_add_one_of_le h2
    rw [deg] at this
    by_cases h0 : g = 0
    · rw [h0]; exact Nat.two_pow_pos _
    · rw [if_neg h0, Nat.cast_lt] at this; exact (Nat.log2_lt h0).1 this
  · by_contra hlt
    have : g = 0 ∨ g = 1 := Nat.le_one_iff_eq_zero_or_eq_one.1 (Nat.lt_succ_iff.1 (Nat.lt_of_not_le hlt))
    rcases this with rfl | rfl <;> revert h1 <;> decide
/-- x^2 + x + 1 is irreducible by the rule's own predicate. -/
theorem irred_7 : IRRED 7 2 := irred_of_bounded (by decide)
/-- x is primitive modulo x^2 + x + 1. -/
theorem primitive_7 : PRIMITIVE 2 7 2 := by
  refine ⟨by decide, by decide, fun i h1 h2 => ?_⟩
  have : i < 3 := Nat.lt_of_le_of_lt h2 (by decide)
  interval_cases i <;> decide
/-- The slots of gf4 meet R26. -/
theorem gf4_slotInv (k : SlotIx) : SlotInv gf4 k := by
  have h0 : ∀ j : SlotIx, 2 ≤ j.val → (gf4.slot j).valid = false := by decide
  by_cases hk : 2 ≤ k.val
  · intro h; rw [h0 k hk] at h; cases h
  · have : k = 0 ∨ k = 1 := by
      have : k.val = 0 ∨ k.val = 1 := by omega
      exact this.imp Fin.ext Fin.ext
    rcases this with rfl | rfl
    · intro _
      exact ⟨by decide, by decide, by decide, irred_7, fun _ => ⟨rfl, rfl⟩, fun h => absurd h (by decide)⟩
    · intro _
      refine ⟨by decide, by decide, by decide, irred_7, fun h => absurd h (by decide), fun _ => ⟨by decide, primitive_7, ?_, ?_⟩⟩
      · intro i hi
        have : i < 3 := hi
        interval_cases i <;> decide
      · intro v h1 h2
        have : v ≤ 3 := h2
        interval_cases v
        · exact ⟨0, by decide, by decide, by decide⟩
        · exact ⟨1, by decide, by decide, by decide⟩
        · exact ⟨2, by decide, by decide, by decide⟩
/-- The invariants of the spec's data hold of gf4: the witness for every statement that assumes DataInv. -/
theorem gf4_dataInv : DataInv gf4 := by
  refine ⟨gf4_slotInv, fun a => ?_⟩
  unfold ElemInv Written Holds
  revert a; decide

/-! ### Witnesses: states and operands that meet the hypotheses of each obligation, clause by clause -/

/-- DecodeOfEncodeIsTheCommand: a well-formed command. -/
theorem witness_DecodeOfEncodeIsTheCommand : (Instr.elem 15 15 3).wf = true := by decide
/-- DecodedWordEncodesBack: a word that decodes. -/
theorem witness_DecodedWordEncodesBack : decode 0x48400009 = .ok (.tlog 1 9) := by decide
/-- StepRunsTheDecodedCommand: a command in flight, with nothing scheduled and with a turn of the core. -/
theorem witness_StepRunsTheDecodedCommand :
    (gf4.issue 0x94C00000).status.busy = true ∧ decode (gf4.issue 0x94C00000).cmdLatch = .ok (.einv 3 0) ∧
      (gf4.issue 0x94C00000).schedule = [] ∧
      (gf4.withFetchWord 32 0x94C00000).schedule = .coreTurn :: [] := by decide
/-- CoreTurnWithoutALegalCommand: an illegal word in flight; and no command in flight. -/
theorem witness_CoreTurnWithoutALegalCommand :
    (gf4.issue 0x2C000000).status.busy = true ∧ decode (gf4.issue 0x2C000000).cmdLatch = .error .reservedOpcode ∧
      gf4.status.busy = false := by decide
/-- CmdWriteIssuesDropsOrOverruns: busy; in the error state by ERR, and by FATAL; ready; an illegal word. -/
theorem witness_CmdWriteIssuesDropsOrOverruns :
    (gf4.issue 0).status.busy = true ∧ (overflowed.status.busy = false ∧ overflowed.status.err = true) ∧
      ((gf4.errorEntry .internalInvariant).errclr.status.busy = false ∧
        (gf4.errorEntry .internalInvariant).errclr.status.err = false ∧
        (gf4.errorEntry .internalInvariant).errclr.status.fatal = true) ∧
      (gf4.status.busy = false ∧ gf4.status.err = false ∧ gf4.status.fatal = false) ∧
      decode 0xFC000000 = .error .reservedOpcode := by decide
/-- WindowReadsAndWritesTheWordsOfP and FinfoDescribesTheSlot: not busy (a slot that holds a field, one that does not, an
index past NF), and busy. -/
theorem witness_ports : gf4.status.busy = false ∧ (gf4.issue 0).status.busy = true ∧ Holds gf4 0 ∧ ¬ Holds gf4 3 ∧
    ¬ Holds gf4 4 := by
  unfold Holds; decide
/-- ReadsHaveNoSideEffect: reads that are answered, at the first and the last offset. -/
theorem witness_ReadsHaveNoSideEffect :
    (hostRead 0x000 4 gf4 = .next { gf4.draw with readData := some 0x47463250 }) ∧
      (hostRead 0xFFC 4 gf4 = .next { gf4.draw with readData := some 0 }) := ⟨rfl, rfl⟩
/-- ConstantAndReservedOffsets: the first and last reserved offset of each range; a read-only register. -/
theorem witness_ConstantAndReservedOffsets :
    (∀ off ∈ [0x01C#12, 0x03C#12, 0x080#12, 0x1FC#12, 0x400#12, 0xFFC#12], off.toNat % 4 = 0 ∧
      ((0x01C ≤ off.toNat ∧ off.toNat < 0x040) ∨ (0x080 ≤ off.toNat ∧ off.toNat < 0x200) ∨ 0x400 ≤ off.toNat)) ∧
    (0x018#12 : Offset) ∈ [0x000#12, 0x008#12, 0x00C#12, 0x014#12, 0x018#12] := by decide
/-- StatusResultAndErrcmdRead: not busy. -/
theorem witness_StatusResultAndErrcmdRead : overflowed.status.busy = false := by decide
/-- CtrlWriteClearsOrResets: the four kinds of value, busy and not. -/
theorem witness_CtrlWriteClearsOrResets :
    (3#32).getLsbD 1 = true ∧ ((1#32).getLsbD 1 = false ∧ (1#32).getLsbD 0 = true) ∧
      ((0xFFFFFFFC#32).getLsbD 1 = false ∧ (0xFFFFFFFC#32).getLsbD 0 = false) ∧
      overflowed.status.busy = false ∧ (gf4.issue 0).status.busy = true := by decide
/-- BusErrorExactlyOnIllegalAccesses: a byte access, a misaligned access, a legal access. -/
theorem witness_BusErrorExactlyOnIllegalAccesses :
    ¬ (1 = 4 ∧ (0#12).toNat % 4 = 0) ∧ ¬ (4 = 4 ∧ (0xFFD#12).toNat % 4 = 0) ∧ (0xFFC#12).toNat % 4 = 0 := by decide
/-- ResetLeavesTheResetState: the reset input comes while a command is in flight; a state with the reset values. -/
theorem witness_ResetLeavesTheResetState :
    ({ gf4.issue 0 with schedule := [.resetInput, .coreTurn] } : State).schedule = .resetInput :: [.coreTurn] ∧
      ResetValues State.reset := ⟨rfl, by unfold ResetValues; decide⟩
/-- EveryCommandCompletes: a command in flight behind a read and two writes that are legal, one of them an ERRCLR without
SRST, and no reset. -/
theorem witness_EveryCommandCompletes :
    let s : State := { gf4.issue 0 with schedule := [.read 8 4, .write 0x3FC 4 7, .write 0x010 4 1] }
    s.status.busy = true ∧ (∀ off bytes, PortEvent.read off bytes ∈ s.schedule → legalAccess off bytes = true) ∧
      (∀ off bytes v, PortEvent.write off bytes v ∈ s.schedule → legalAccess off bytes = true) ∧
      PortEvent.resetInput ∉ s.schedule ∧
      (∀ bytes v, PortEvent.write 0x010 bytes v ∈ s.schedule → v.getLsbD 1 = false) := by
  refine ⟨rfl, fun off bytes h => ?_, fun off bytes v h => ?_, by decide, fun bytes v h => ?_⟩ <;> simp at h
  · obtain ⟨rfl, rfl⟩ := h; decide
  · rcases h with ⟨rfl, rfl, rfl⟩ | ⟨rfl, rfl, rfl⟩ <;> decide
  · obtain ⟨rfl, rfl⟩ := h; decide
/-- EveryCommandCompletes, first clause: a scheduled SRST, which abandons the command. -/
theorem witness_EveryCommandCompletes_reset :
    let s : State := { gf4.issue 0 with schedule := [.write 0x010 4 2] }
    s.status.busy = true ∧ legalAccess 0x010 4 = true ∧ (match step s with
      | .next t => t.status.busy
      | .fault _ => true
      | .refused _ => true) = false := ⟨rfl, by decide, by decide⟩

/-- NopChangesNothing: a word of opcode 0 that is not 0. -/
theorem witness_NopChangesNothing : opOf 0x00000001 = 0x00 ∧ (0x00000001 : Word) ≠ 0 := by decide
/-- ClmulWritesTheExactProduct: a zero operand, degrees that add up to 255, degrees that add up to 256. -/
theorem witness_ClmulWritesTheExactProduct :
    (twoP 0 (2 ^ 255)).poly 1 = 0 ∧ deg ((twoP (2 ^ 200) (2 ^ 55)).poly 1) + deg ((twoP (2 ^ 200) (2 ^ 55)).poly 2) ≤ 255 ∧
      ((twoP (2 ^ 200) (2 ^ 56)).poly 1 ≠ 0 ∧ (twoP (2 ^ 200) (2 ^ 56)).poly 2 ≠ 0 ∧
        255 < deg ((twoP (2 ^ 200) (2 ^ 56)).poly 1) + deg ((twoP (2 ^ 200) (2 ^ 56)).poly 2)) := by decide
/-- PdegWritesTheDegree: the zero polynomial; a polynomial whose highest set bit is bit 255. -/
theorem witness_PdegWritesTheDegree :
    State.reset.poly 0 = 0 ∧ ((twoP (2 ^ 255) 0).poly 1).testBit 255 = true ∧
      (∀ j, 255 < j → ((twoP (2 ^ 255) 0).poly 1).testBit j = false) := by
  refine ⟨rfl, by decide, fun j hj => ?_⟩
  exact Nat.testBit_lt_two_pow (Nat.lt_of_lt_of_le ((twoP (2 ^ 255) 0).readP 1).isLt (Nat.pow_le_pow_right (by decide) hj))
/-- PdivmodWritesQuotientAndRemainder and PmodWritesTheRemainder: a nonzero and a zero divisor; two destinations. -/
theorem witness_Pdivmod : (twoP 5 1).poly 2 ≠ 0 ∧ (twoP 5 0).poly 2 = 0 ∧ (3 : PReg) ≠ 4 := by decide
/-- ClmulIsTheCarrylessProduct: nonzero operands; a zero operand. -/
theorem witness_ClmulIsTheCarrylessProduct : ((1 : Poly) ≠ 0 ∧ (3 : Poly) ≠ 0) ∧ ((0 : Poly) = 0 ∨ (3 : Poly) = 0) := by
  decide
/-- PdivmodIsTheUniqueDivision: a divisor, a decomposition, a dividend of smaller degree, one of the same degree, and the
divisor 1. -/
theorem witness_PdivmodIsTheUniqueDivision :
    (7 : Poly) ≠ 0 ∧ ((5 : Poly) = clmul 1 7 ^^^ 2 ∧ deg 2 < deg 7) ∧ deg 3 < deg 7 ∧ deg 7 ≤ deg 4 ∧ (1 : Poly) ≠ 0 := by
  decide
/-- IrreducibilityTestDecidesIrred: the least degree. -/
theorem witness_IrreducibilityTestDecidesIrred : 2 ≤ 2 ∧ deg 7 = ((2 : Nat) : Int) := by decide
/-- FcfgConstructsAEuclideanField: the last slot free, the least degree. -/
theorem witness_FcfgConstructsAEuclideanField :
    (3 : SlotIx).val < Config.NF ∧ (gf4.slot 3).valid = false ∧ 2 ≤ (2#7).toNat ∧
      deg (gf4.poly 0) = ((2#7).toNat : Int) ∧ IRRED (gf4.poly 0) (2#7).toNat :=
  ⟨by decide, by decide, by decide, by decide, irred_7⟩
/-- FcfgConstructsATableField: the same with the default generator. -/
theorem witness_FcfgConstructsATableField :
    fcfgOperands gf4 (.fcfgTable 3 2 0) = some (3, 2, 0, .table, false, 2) ∧ (3 : SlotIx).val < Config.NF ∧
      (gf4.slot 3).valid = false ∧ 2 ≤ (2#7).toNat ∧ deg (gf4.poly 0) = ((2#7).toNat : Int) ∧ (2#7).toNat ≤ 16 ∧
      deg 2 < ((2#7).toNat : Int) ∧ IRRED (gf4.poly 0) (2#7).toNat ∧ PRIMITIVE 2 (gf4.poly 0) (2#7).toNat :=
  ⟨rfl, by decide, by decide, by decide, by decide, by decide, by decide, irred_7, primitive_7⟩
/-- FcfgConstructsATableField: the same with the explicit generator x + 1 in P1. -/
theorem witness_FcfgConstructsATableField_explicit :
    fcfgOperands (putP gf4 1 3) (.fcfgTableGen 3 2 0 1) = some (3, 2, 0, .table, true, 3) ∧
      PRIMITIVE 3 ((putP gf4 1 3).poly 0) (2#7).toNat := by
  refine ⟨by decide, by decide, by decide, fun i h1 h2 => ?_⟩
  have : i < 3 := Nat.lt_of_le_of_lt h2 (by decide)
  interval_cases i <;> decide
/-- FcfgReportsTheFirstFailingCheck, in order: K = NF; a slot in use; M = 1; a modulus of another degree; M = 17 for the
table engine; a generator of degree M; a reducible modulus; a generator (1) that is not primitive. -/
theorem witness_FcfgReportsTheFirstFailingCheck :
    (fcfgOperands gf4 (.fcfgEuclid 4 2 0) = some (4, 2, 0, .euclidean, false, 0) ∧ Config.NF ≤ (4 : SlotIx).val) ∧
    (fcfgOperands gf4 (.fcfgEuclid 0 2 0) = some (0, 2, 0, .euclidean, false, 0) ∧ (gf4.slot 0).valid = true) ∧
    ((gf4.slot 3).valid = false ∧ (1#7).toNat < 2) ∧
    (2 ≤ (3#7).toNat ∧ deg (gf4.poly 0) ≠ ((3#7).toNat : Int)) ∧
    (deg ((putP gf4 1 (2 ^ 17)).poly 1) = ((17#7).toNat : Int) ∧ 16 < (17#7).toNat) ∧
    (¬ 16 < (2#7).toNat ∧ ((2#7).toNat : Int) ≤ deg 4) ∧
    (deg ((putP gf4 1 5).poly 1) = ((2#7).toNat : Int) ∧ ¬ IRRED 5 (2#7).toNat) ∧
    (IRRED (gf4.poly 0) (2#7).toNat ∧ ¬ ((2#7).toNat : Int) ≤ deg 1 ∧ ¬ PRIMITIVE 1 (gf4.poly 0) (2#7).toNat) := by
  refine ⟨by decide, by decide, by decide, by decide, by decide, by decide, ⟨by decide, fun h => ?_⟩,
    irred_7, by decide, fun h => ?_⟩
  · exact h 3 (by decide) (by decide) (by decide)
  · exact h.2.2 1 (by decide) (by decide) (by decide)
/-- FrelFreesTheSlotAndItsElements: a slot with an element, a free slot, K = NF. -/
theorem witness_FrelFreesTheSlotAndItsElements :
    Holds gf4 1 ∧ (Written gf4 1 ∧ gf4.ownerOf 1 = 1) ∧ ¬ (Written gf4 0 ∧ gf4.ownerOf 0 = 1) ∧
      ((3 : SlotIx).val < Config.NF ∧ (gf4.slot 3).valid = false) ∧ Config.NF ≤ (4 : SlotIx).val := by
  unfold Holds Written; decide
/-- TableReadsAndTheirErrors: the table slot 1 at the indices 1 and N = 3 (TLOG), 0 and N − 1 (TALOG) with their entries;
K = NF; a free slot; a Euclidean slot; the indices 0 and N + 1 (TLOG), N (TALOG). -/
theorem witness_TableReadsAndTheirErrors :
    (Holds gf4 1 ∧ (gf4.slot 1).eng = .table ∧ gf4.orderOf 1 = 3) ∧
    ((gf4.logOf 1).lookup 1 = some 0 ∧ (gf4.logOf 1).lookup 3 = some 2) ∧
    ((gf4.alogOf 1).lookup 0 = some 1 ∧ (gf4.alogOf 1).lookup 2 = some 3) ∧
    Config.NF ≤ (4 : SlotIx).val ∧ ((3 : SlotIx).val < Config.NF ∧ (gf4.slot 3).valid = false) ∧
    (Holds gf4 0 ∧ (gf4.slot 0).eng = .euclidean) ∧
    ((0#16).toNat = 0 ∧ gf4.orderOf 1 < (4#16).toNat ∧ gf4.orderOf 1 ≤ (3#16).toNat) := by
  unfold Holds; decide
/-- TableReadsAndTheirErrors (last clause), LogAndAntilogAreInverse and EnginesAgree: a table slot that meets its invariant, and operands up to the largest. -/
theorem witness_table_slot :
    SlotInv gf4 1 ∧ Holds gf4 1 ∧ (gf4.slot 1).eng = .table ∧ 1 ≤ (3#16).toNat ∧ (3#16).toNat ≤ gf4.orderOf 1 ∧
      (2#16).toNat < gf4.orderOf 1 ∧ deg 3 < (gf4.degreeOf 1 : Int) ∧ (3 : Poly) ≠ 0 :=
  ⟨gf4_slotInv 1, by unfold Holds; decide, by decide, by decide, by decide, by decide, by decide, by decide⟩
/-- ElemConstructsAnElement: the largest legal value, a value of degree M, a free slot, K = NF. -/
theorem witness_ElemConstructsAnElement :
    Holds gf4 0 ∧ deg ((putP gf4 1 3).poly 1) < (gf4.degreeOf 0 : Int) ∧
      (gf4.degreeOf 0 : Int) ≤ deg ((putP gf4 1 4).poly 1) ∧
      ((3 : SlotIx).val < Config.NF ∧ (gf4.slot 3).valid = false) ∧ Config.NF ≤ (4 : SlotIx).val := by
  unfold Holds; decide
/-- The element commands: written registers of one field in two slots (E0, E1), an unwritten register (E15), zero (E2). It
serves EvalReadsTheElement, EaddAndEsubWriteTheXor, EnegCopiesTheElement, EeqComparesFieldAndValue, ElementChecksInOrder,
EmulByTheOwnersEngine, EmulComputesTheFieldProduct, EinvComputesTheInverse and EdivComputesTheQuotient, the last three with
gf4_dataInv. -/
theorem witness_elements :
    Written gf4 0 ∧ Written gf4 1 ∧ Written gf4 2 ∧ ¬ Written gf4 15 ∧ SameField gf4 (gf4.ownerOf 0) (gf4.ownerOf 1) ∧
      gf4.valOf 0 ≠ 0 ∧ gf4.valOf 1 ≠ 0 ∧ gf4.valOf 2 = 0 ∧ (gf4.slot (gf4.ownerOf 0)).eng = .euclidean ∧
      (gf4.slot (gf4.ownerOf 1)).eng = .table := by
  unfold Written SameField; decide
/-- EeqComparesFieldAndValue: equal elements of one field in two slots. -/
theorem witness_EeqComparesFieldAndValue :
    let s := putE gf4 3 1 2
    Written s 0 ∧ Written s 3 ∧ SameField s (s.ownerOf 0) (s.ownerOf 3) ∧ s.valOf 0 = s.valOf 3 := by
  unfold Written SameField; decide
/-- EaddAndEsubWriteTheXor and ElementChecksInOrder: written registers of different fields. -/
theorem witness_ElementChecksInOrder :
    let s := putE (putEuclid gf4 2 4 0x13) 3 2 7
    Written s 0 ∧ Written s 3 ∧ ¬ SameField s (s.ownerOf 0) (s.ownerOf 3) := by
  unfold Written SameField; decide
/-- EmulByTheOwnersEngine: the entries of the table engine for x + 1 times x. -/
theorem witness_EmulByTheOwnersEngine :
    (gf4.slot (gf4.ownerOf 1)).eng = .table ∧ (gf4.logOf (gf4.ownerOf 1)).lookup (gf4.valOf 1) = some 2 ∧
      (gf4.logOf (gf4.ownerOf 1)).lookup (gf4.valOf 0) = some 1 ∧
      (gf4.alogOf (gf4.ownerOf 1)).lookup ((2 + 1) % gf4.orderOf (gf4.ownerOf 1)) = some 1 := by decide
/-- FieldProductLaws and EuclideanInverseIsTheInverse: a modulus of degree 2 and a nonzero value of degree below 2. -/
theorem witness_field_laws : 1 ≤ 2 ∧ deg 7 = ((2 : Nat) : Int) ∧ IRRED 7 2 ∧ (3 : Poly) ≠ 0 ∧ deg 3 < ((2 : Nat) : Int) :=
  ⟨by decide, by decide, irred_7, by decide, by decide⟩
/-- FieldsAreImmutableUntilFreed: a command that runs, beside a slot that holds a field and one that does not. -/
theorem witness_FieldsAreImmutableUntilFreed :
    exec .nop gf4 = .next gf4.retire ∧ (gf4.slot 0).valid = true ∧ Instr.nop ≠ .frel 0 ∧ (gf4.slot 3).valid = false ∧
      fcfgOperands gf4 (.fcfgEuclid 3 2 0) = some (3, 2, 0, .euclidean, false, 0) := ⟨rfl, by decide, by decide, by decide, rfl⟩
/-- FieldsAreImmutableUntilFreed, second clause: an FCFG fills the free slot 3. -/
theorem witness_FieldsAreImmutableUntilFreed_construct :
    (gf4.slot 3).valid = false ∧ (match exec (.fcfgEuclid 3 2 0) gf4 with
      | .next t => (t.slot 3).valid
      | .fault _ => false
      | .refused _ => false) = true := by decide
/-- The step invariants (EveryStepKeepsTheDataInvariant, EveryStepKeepsReportAndProtocol, EveryStepKeepsTheTablesCanonical,
NoStepSetsFatal): gf4 meets them, and a step from it is answered. -/
theorem witness_invariants : DataInv gf4 ∧ ReportInv gf4 ∧ ProtocolInv gf4 ∧ TablesCanonical gf4 ∧
    step gf4 = .next gf4 := by
  refine ⟨gf4_dataInv, ⟨fun _ => ⟨rfl, rfl, rfl⟩, fun h => absurd h (by decide)⟩, fun h => absurd h (by decide), ?_, rfl⟩
  unfold TablesCanonical; decide
/-- NoStepSetsFatal: a state of the data invariant with FATAL = 1, from which a step leaves it 1. -/
theorem witness_NoStepSetsFatal :
    DataInv (gf4.errorEntry .internalInvariant) ∧ (gf4.errorEntry .internalInvariant).status.fatal = true ∧
      step (gf4.errorEntry .internalInvariant) = .next (gf4.errorEntry .internalInvariant) :=
  ⟨gf4_dataInv, by decide, rfl⟩
/-- OnlyAResetClearsFatal: a write of SRST clears FATAL. -/
theorem witness_OnlyAResetClearsFatal :
    let s : State := { gf4.errorEntry .internalInvariant with schedule := [.write 0x010 4 2] }
    s.status.fatal = true ∧ (match step s with
      | .next t => t.status.fatal
      | .fault _ => true
      | .refused _ => true) = false := by decide
/-- ErrorStateIssuesNothing: a write of CMD, of the last offset below the P window, and of the first and last reserved
offset above it, in the error state. -/
theorem witness_ErrorStateIssuesNothing :
    overflowed.status.busy = false ∧ overflowed.status.err = true ∧
      step { overflowed with schedule := [.write 0x004 4 0] } = .next overflowed ∧
      (∀ off ∈ [0x004#12, 0x1FC#12, 0x400#12, 0xFFC#12], off.toNat < 0x200 ∨ 0x400 ≤ off.toNat) ∧
      step { overflowed with schedule := [.write 0xFFC 4 0] } = .next overflowed :=
  ⟨rfl, rfl, rfl, by decide, rfl⟩
/-- HostAccessesDoNotDisturbTheCommandInFlight: a command in flight, and a CTRL write without SRST. -/
theorem witness_HostAccessesDoNotDisturbTheCommandInFlight :
    (gf4.issue 0).status.busy = true ∧ hostWrite 0x010 4 1 (gf4.issue 0) = .next (gf4.issue 0) ∧
      (1#32).getLsbD 1 = false := ⟨rfl, rfl, rfl⟩

end Sys2Proof.Tests
end

section
/-! SUPPORT. The executable tests of field construction decide their predicates: irreducible (R160) through the factors
of x^(2^i) − x, and primitive (R161). -/

namespace Sys2Proof.Machine

open Polynomial

/-! ### The decision of IRRED (R160) -/

/-- pgcd answers 1 exactly for operands without a common factor. -/
theorem pgcd_eq_one_iff {a b : Poly} : pgcd a b = 1 ↔ IsRelPrime (toPoly a) (toPoly b) := by
  constructor
  · intro h d ha hb
    have hd : d ∣ toPoly (pgcd a b) := (pgcd_dvd a b d).2 ⟨ha, hb⟩
    rw [h, toPoly_one] at hd
    exact isUnit_of_dvd_one hd
  · intro h
    obtain ⟨ha, hb⟩ := (pgcd_dvd a b (toPoly (pgcd a b))).1 dvd_rfl
    have hu : IsUnit (toPoly (pgcd a b)) := h ha hb
    have h0 : pgcd a b ≠ 0 := fun e => hu.ne_zero (by rw [e, toPoly_zero])
    exact toPoly_injective (((leadingCoeff_toPoly h0).isUnit_iff.1 hu).trans toPoly_one.symm)

/-- Whether f and a have a common factor depends on a modulo f only. -/
theorem isRelPrime_congr_of_dvd_sub {f a b : (ZMod 2)[X]} (h : f ∣ a - b) : IsRelPrime f a ↔ IsRelPrime f b := by
  have hd : ∀ {d}, d ∣ f → (d ∣ a ↔ d ∣ b) := fun hf => dvd_iff_dvd_of_dvd_sub (hf.trans h)
  exact ⟨fun H d hf hb => H hf ((hd hf).2 hb), fun H d hf ha => H hf ((hd hf).1 ha)⟩

/-- Squaring modulo f takes x^(2^j) to x^(2^(j+1)). -/
theorem dvd_rmod_square_sub {f t : Poly} (hf : f ≠ 0) {j : Nat} (h : toPoly f ∣ toPoly t - X ^ 2 ^ j) :
    toPoly f ∣ toPoly (rmod (clmul t t) f) - X ^ 2 ^ (j + 1) := by
  have h1 := dvd_rmod_sub (clmul t t) hf
  rw [toPoly_clmul] at h1
  have h2 := h.mul_right (toPoly t + X ^ 2 ^ j)
  have e : toPoly (rmod (clmul t t) f) - X ^ 2 ^ (j + 1) = toPoly (rmod (clmul t t) f) - toPoly t * toPoly t +
      (toPoly t - X ^ 2 ^ j) * (toPoly t + X ^ 2 ^ j) := by ring
  rw [e]
  exact dvd_add h1 h2

/-- n rounds of the distinct-degree test, from x^(2^j): f has no common factor with x^(2^i) − x for the next n
exponents i. -/
theorem irredLoop_eq_true_iff {f : Poly} (hf : f ≠ 0) : ∀ (n j : Nat) (t : Poly), toPoly f ∣ toPoly t - X ^ 2 ^ j →
    (irredLoop f n t = true ↔ ∀ i, j < i → i ≤ j + n → IsRelPrime (toPoly f) (X ^ 2 ^ i - X)) := by
  intro n
  induction n with
  | zero =>
    intro j t _
    exact ⟨fun _ i h1 h2 => by omega, fun _ => rfl⟩
  | succ n ih =>
    intro j t ht
    have ht' := dvd_rmod_square_sub hf ht
    have hround : pgcd f (rmod (clmul t t) f ^^^ 0b10) = 1 ↔ IsRelPrime (toPoly f) (X ^ 2 ^ (j + 1) - X) := by
      rw [pgcd_eq_one_iff, toPoly_xor, toPoly_two, ← CharTwo.sub_eq_add]
      exact isRelPrime_congr_of_dvd_sub (by simpa using ht')
    have hstep : irredLoop f (n + 1) t = true ↔
        pgcd f (rmod (clmul t t) f ^^^ 0b10) = 1 ∧ irredLoop f n (rmod (clmul t t) f) = true := by
      rw [irredLoop, Bool.ite_eq_true_distrib]; simp
    rw [hstep, hround, ih (j + 1) _ ht']
    constructor
    · rintro ⟨h1, h2⟩ i hi1 hi2
      rcases Nat.eq_or_lt_of_le hi1 with rfl | hlt
      · exact h1
      · exact h2 i hlt (by omega)
    · intro h
      exact ⟨h _ (by omega) (by omega), fun i h1 h2 => h i (by omega) (by omega)⟩

/-- The test says that f has no common factor with x^(2^i) − x for i = 1..⌊m/2⌋. -/
theorem irreducible_eq_true_iff {f : Poly} {m : Nat} (hf : f ≠ 0) :
    irreducible f m = true ↔ ∀ i, 1 ≤ i → i ≤ m / 2 → IsRelPrime (toPoly f) (X ^ 2 ^ i - X) := by
  rw [irreducible, irredLoop_eq_true_iff hf (m / 2) 0 0b10 (by simp [toPoly_two])]
  simp only [Nat.zero_add, Nat.succ_le_iff]

/-- A polynomial that passes the test is irreducible in the sense of R160: a divisor of degree 1..⌊m/2⌋ would have an
irreducible factor, and one of degree d divides x^(2^d) − x. -/
theorem irred_of_irreducible {f : Poly} {m : Nat} (hf : f ≠ 0) (h : irreducible f m = true) : IRRED f m := by
  rw [irreducible_eq_true_iff hf] at h
  intro q hq1 hq2 h0
  have hq : q ≠ 0 := by rintro rfl; rw [deg_zero] at hq1; omega
  rw [deg_of_ne_zero hq] at hq1 hq2
  have hqf : toPoly q ∣ toPoly f := (rmod_eq_zero_iff hq).1 h0
  have hq0 : toPoly q ≠ 0 := by rwa [Ne, toPoly_eq_zero]
  have hqu : ¬ IsUnit (toPoly q) := fun hu => by
    have := natDegree_eq_zero_of_isUnit hu
    rw [natDegree_toPoly hq] at this; omega
  obtain ⟨p, hp, hpq⟩ := WfDvdMonoid.exists_irreducible_factor hqu hq0
  have hle : p.natDegree ≤ m / 2 := by
    have := natDegree_le_of_dvd hpq hq0
    rw [natDegree_toPoly hq] at this; omega
  have hpX : p ∣ X ^ 2 ^ p.natDegree - X := by
    simpa using hp.natDegree_dvd_iff_dvd_X_pow_card_pow_sub_X.1 dvd_rfl
  exact hp.not_isUnit (h _ hp.natDegree_pos hle (hpq.trans hqf) hpX)

/-! ### The decision of PRIMITIVE (R161) -/

/-- The test of the powers pow(g, 1), …, pow(g, N − 1) decides PRIMITIVE. -/
theorem primitive_eq_true_iff {g f : Poly} {m : Nat} : primitive g f m = true ↔ PRIMITIVE g f m := by
  have hpow : (∀ t ∈ (powers g f m).drop 1, t ≠ 1) ↔ ∀ i, 1 ≤ i → i ≤ groupOrder m - 1 → genPow g f i ≠ 1 := by
    rw [powers_eq, ← List.map_drop, List.forall_mem_map, List.range_eq_range', List.drop_range']
    simp only [List.mem_range'_1]
    exact ⟨fun h i h1 h2 => h i (by omega), fun h i hi => h i (by omega) (by omega)⟩
  simp only [primitive, PRIMITIVE, Bool.and_eq_true, List.all_eq_true, decide_eq_true_eq, and_assoc, hpow]

end Sys2Proof.Machine
end

section
/-! SUPPORT. What a step of the block can do to elements, slots and tables, and from it what a step keeps: an invariant
of these parts needs a proof for the reset state and for every effect of a command, and no more. -/

namespace Sys2Proof.Machine

variable {s t u : State} {i : Instr} {k : SlotIx}

/-! ### The two effects that write a slot: their states by name, and what stands in them -/

/-- The state a successful FCFG leaves, before BUSY is cleared (R170). -/
def State.constructed (s : State) (k : SlotIx) (m : BitVec 7) (f : Poly) (e : Engine) (genx : Bool) (g : Poly) : State :=
  (if e = .table then s.writeTables k (buildAlog g f m.toNat) (buildLog g f m.toNat) else s).writeSlot k
    (constructedSlot m f e genx g)

/-- The state a successful FREL leaves, before BUSY is cleared (R171). -/
def State.released (s : State) (k : SlotIx) : State :=
  (((s.clearOwned k).writeSlot k (freedSlot s.draws)).writeTables k [] []).draw

section Constructed
variable (s) (k j : SlotIx) (m : BitVec 7) (f : Poly) (e : Engine) (genx : Bool) (g : Poly)

theorem State.slot_constructed : (s.constructed k m f e genx g).slot j =
    if k = j ∧ k.val < Config.NF then constructedSlot m f e genx g else s.slot j := by
  rw [State.constructed, State.slot_writeSlot]
  cases e <;> simp
theorem State.alogOf_constructed : (s.constructed k m f e genx g).alogOf j =
    if e = .table ∧ k = j ∧ k.val < Config.NF then buildAlog g f m.toNat else s.alogOf j := by
  rw [State.constructed, State.alogOf_writeSlot]
  cases e <;> simp [State.alogOf_writeTables]
theorem State.logOf_constructed : (s.constructed k m f e genx g).logOf j =
    if e = .table ∧ k = j ∧ k.val < Config.NF then buildLog g f m.toNat else s.logOf j := by
  rw [State.constructed, State.logOf_writeSlot]
  cases e <;> simp [State.logOf_writeTables]
@[simp] theorem State.readE_constructed (a : EReg) : (s.constructed k m f e genx g).readE a = s.readE a := by
  rw [State.constructed, State.readE_writeSlot]
  cases e <;> simp
end Constructed

section Released
variable (s) (k j : SlotIx)

theorem State.slot_released :
    (s.released k).slot j = if k = j ∧ k.val < Config.NF then freedSlot s.draws else s.slot j := by
  simp [State.released, State.slot_writeSlot]
theorem State.alogOf_released : (s.released k).alogOf j = if k = j ∧ k.val < Config.NF then [] else s.alogOf j := by
  simp [State.released, State.alogOf_writeTables]
theorem State.logOf_released : (s.released k).logOf j = if k = j ∧ k.val < Config.NF then [] else s.logOf j := by
  simp [State.released, State.logOf_writeTables]
theorem State.readE_released (a : EReg) : (s.released k).readE a =
    if (s.readE a).wr = true ∧ (s.readE a).fs = k then { s.readE a with wr := false } else s.readE a := by
  simp [State.released, State.readE_clearOwned]
end Released

/-- What a command can do to the slots and tables: nothing, construct a field, or release one (R25). -/
theorem Effect.slot_cases (h : Effect s i u) :
    (u.fs = s.fs ∧ u.alog = s.alog ∧ u.log = s.log) ∨
    (∃ k m pm e genx g, fcfgOperands s i = some (k, m, pm, e, genx, g) ∧
      constructionChecks s k m.toNat (s.poly pm) e g = .ok () ∧ u = s.constructed k m (s.poly pm) e genx g) ∨
    (∃ k, i = .frel k ∧ Holds s k ∧ u = s.released k) := by
  cases h with
  | construct i k m pm e genx g ho hc => exact .inr (.inl ⟨k, m, pm, e, genx, g, ho, hc, rfl⟩)
  | release k h => exact .inr (.inr ⟨k, rfl, h, rfl⟩)
  | _ => exact .inl ⟨rfl, rfl, rfl⟩

/-! ### What a step keeps -/

/-- t has the element registers, the slots and the tables of s. -/
def SameData (s t : State) : Prop := t.e = s.e ∧ t.fs = s.fs ∧ t.alog = s.alog ∧ t.log = s.log

theorem sameData_retire (s : State) : SameData s s.retire := ⟨rfl, rfl, rfl, rfl⟩
theorem sameData_errorEntry (s : State) (c : Err) : SameData s (s.errorEntry c) := ⟨rfl, rfl, rfl, rfl⟩
theorem sameData_schedule (s : State) (l : List PortEvent) : SameData s { s with schedule := l } := ⟨rfl, rfl, rfl, rfl⟩
theorem sameData_read (s : State) (x : Option Word) : SameData s { s.draw with readData := x } := ⟨rfl, rfl, rfl, rfl⟩
theorem sameData_resetBlock (s : State) : SameData State.reset s.resetBlock := ⟨rfl, rfl, rfl, rfl⟩

/-- A write of the host port keeps elements, slots and tables, unless it resets the block. -/
theorem State.portWrite_sameData_or_reset (s : State) (v : Word) (r : MapReg) :
    SameData s (s.portWrite v r) ∨ s.portWrite v r = s.resetBlock := by
  rcases s.portWrite_cases v r with e | ⟨_, _, _, e⟩ | ⟨_, _, e⟩ | ⟨_, _, _, _, e⟩ | ⟨_, _, e⟩ | ⟨_, _, e⟩ <;> rw [e]
  case inr.inr.inr.inr.inr => exact .inr rfl
  all_goals exact .inl (by simp [SameData])

section StepKeeps
variable {I : State → Prop} (hdata : ∀ {s t}, SameData s t → I s → I t) (heffect : ∀ {s i u}, I s → Effect s i u → I u)
include hdata heffect

/-- The core's turn keeps an invariant of elements, slots and tables that every effect of a command keeps: an error or
an idle turn changes none of them. -/
theorem coreTurn_keeps (hs : I s) (h : coreTurn s = .next t) : I t := by
  rcases coreTurn_eq_next h with ⟨_, rfl⟩ | ⟨_, ⟨_, _, rfl⟩ | ⟨i, _, h⟩⟩
  · exact hs
  · exact hdata (sameData_errorEntry s _) hs
  · rcases exec_cases h with ⟨u, hu, rfl⟩ | ⟨c, rfl, _⟩
    · exact hdata (sameData_retire u) (heffect hs hu)
    · exact hdata (sameData_errorEntry s c) hs

/-- An invariant of elements, slots and tables that holds after reset and that every effect of a command keeps is kept
by every step of the block. -/
theorem step_keeps (hreset : I State.reset) (hs : I s) (h : step s = .next t) : I t := by
  have hsched : ∀ rest, I { s with schedule := rest } := fun rest => hdata (sameData_schedule s rest) hs
  have hblock : ∀ s : State, I s.resetBlock := fun s => hdata (sameData_resetBlock s) hreset
  rcases step_eq_next h with ⟨_, h⟩ | ⟨rest, _, h⟩ | ⟨_, _, rfl⟩ | ⟨_, _, rest, _, h⟩ | ⟨_, _, v, rest, _, h⟩
  · exact coreTurn_keeps hdata heffect hs h
  · exact coreTurn_keeps hdata heffect (hsched rest) h
  · exact hblock _
  · obtain ⟨_, rfl⟩ := hostRead_eq_next h
    exact hdata (sameData_read _ _) (hsched rest)
  · obtain ⟨_, rfl⟩ := hostWrite_eq_next h
    rcases State.portWrite_sameData_or_reset { s with schedule := rest } v _ with h | h
    · exact hdata h (hsched rest)
    · rw [h]; exact hblock _

end StepKeeps

end Sys2Proof.Machine
end

section
/-! SUPPORT. The invariants of slots, elements and tables: the parts of the state they depend on, and the reset state. -/

namespace Sys2Proof.Machine

variable {s t u : State} {i : Instr} {k : SlotIx}

/-! ### The invariants depend on elements, slots and tables only -/

/-- The field-slot invariant of k depends on slot k and its tables only. -/
theorem slotInv_congr (hslot : t.slot k = s.slot k) (halog : t.alogOf k = s.alogOf k) (hlog : t.logOf k = s.logOf k)
    (h : SlotInv s k) : SlotInv t k := by
  simp only [SlotInv, TablesHold, State.modulus, State.degreeOf, State.orderOf, hslot, halog, hlog] at h ⊢
  exact h

/-- The element invariant of a depends on E[a] and the slot of its owner only. -/
theorem elemInv_congr {a : EReg} (hread : t.readE a = s.readE a)
    (hslot : Written s a → t.slot (s.ownerOf a) = s.slot (s.ownerOf a)) (h : ElemInv s a) : ElemInv t a := by
  intro hw
  have hw' : Written s a := by rwa [Written, hread] at hw
  have hslot := hslot hw'
  have h := h hw'
  simp only [Holds, State.degreeOf, State.valOf, State.ownerOf, hread] at h hslot ⊢
  rw [hslot]
  exact h

theorem dataInv_of_sameData (h : SameData s t) (hs : DataInv s) : DataInv t := by
  obtain ⟨he, hfs, halog, hlog⟩ := h
  exact ⟨fun k => slotInv_congr (State.slot_congr hfs k) (State.alogOf_congr halog k) (State.logOf_congr hlog k) (hs.1 k),
    fun a => elemInv_congr (State.readE_congr he a) (fun _ => State.slot_congr hfs _) (hs.2 a)⟩

theorem tablesCanonical_of_sameData (h : SameData s t) (hs : TablesCanonical s) : TablesCanonical t := by
  obtain ⟨_, _, halog, hlog⟩ := h
  intro k
  rw [State.alogOf_congr halog, State.logOf_congr hlog]
  exact hs k

/-! ### The reset state -/

theorem State.slot_reset (k : SlotIx) : State.reset.slot k = FieldSlot.reset := by
  simp [State.slot, State.reset]
theorem State.readE_reset (a : EReg) : State.reset.readE a = ElemReg.reset := by
  simp [State.readE, State.reset]
theorem State.alogOf_reset (k : SlotIx) : State.reset.alogOf k = [] := by
  simp [State.alogOf, State.reset]
theorem State.logOf_reset (k : SlotIx) : State.reset.logOf k = [] := by
  simp [State.logOf, State.reset]

/-- A slot that holds no field meets the field-slot invariant. -/
theorem slotInv_of_invalid (h : (s.slot k).valid = false) : SlotInv s k := fun hv => by simp [h] at hv
/-- An unwritten register meets the element invariant. -/
theorem elemInv_of_unwritten {a : EReg} (h : ¬ Written s a) : ElemInv s a := fun hw => absurd hw h

theorem dataInv_reset : DataInv State.reset :=
  ⟨fun k => slotInv_of_invalid (by rw [State.slot_reset]; rfl),
    fun a => elemInv_of_unwritten (by rw [Written, State.readE_reset]; decide)⟩

theorem tablesCanonical_reset : TablesCanonical State.reset := fun k => by
  rw [State.alogOf_reset, State.logOf_reset]
  exact ⟨wf_nil, wf_nil⟩

end Sys2Proof.Machine
end

section
/-! SUPPORT. What the field-slot invariant gives the table reads and the two engines: log and antilog are inverse (R162),
and every product, quotient and inverse is an element of the field. -/

namespace Sys2Proof.Machine

variable {s t u : State} {i : Instr} {k : SlotIx}

/-! ### What a slot that meets the invariant gives the engines -/

section SlotInvariant
variable (h : SlotInv s k) (hk : Holds s k)
include h hk

/-- The degree of the modulus is M, and M is at least 1. -/
theorem SlotInv.deg_modulus : deg (s.modulus k) = (s.degreeOf k : Int) ∧ 1 ≤ s.degreeOf k := by
  obtain ⟨hdeg, hmin, -⟩ := h hk.2
  exact ⟨hdeg, le_trans (by decide) hmin⟩

/-- The multiplicative group of a field is not empty. -/
theorem SlotInv.orderOf_pos : 0 < s.orderOf k := by
  obtain ⟨-, hm⟩ := h.deg_modulus hk
  exact Nat.sub_pos_of_lt (Nat.one_lt_two_pow (Nat.one_le_iff_ne_zero.1 hm))

/-- A power of any g modulo the modulus fits in M bits. -/
theorem SlotInv.genPow_lt (g : Poly) (i : Nat) : genPow g (s.modulus k) i < 2 ^ s.degreeOf k := by
  obtain ⟨hdeg, hm⟩ := h.deg_modulus hk
  exact deg_lt_iff.1 (deg_genPow_lt g hm hdeg i)

/-- A remainder by the modulus is an element of the field. -/
theorem SlotInv.rmod_lt (a : Poly) : rmod a (s.modulus k) < 2 ^ s.degreeOf k := by
  obtain ⟨hdeg, -⟩ := h.deg_modulus hk
  rw [← deg_lt_iff, ← hdeg]
  exact deg_rmod_lt a (natDegree_eq_of_deg hdeg).2

variable (he : (s.slot k).eng = .table)
include he

/-- ALOG[i] of a table slot reads as pow(g, i) for i < N (R162). -/
theorem SlotInv.readAlog_toNat {i : Nat} (hi : i < s.orderOf k) :
    (s.readAlog k i).toNat = genPow (s.slot k).gen.toNat (s.modulus k) i := by
  obtain ⟨-, -, -, -, -, htable⟩ := h hk.2
  obtain ⟨hMT, -, halog, -⟩ := htable he
  rw [State.readAlog, halog i hi, Option.getD_some, BitVec.toNat_ofNat, Nat.mod_eq_of_lt]
  exact (h.genPow_lt hk _ i).trans_le (Nat.pow_le_pow_right (by decide) hMT)

/-- The antilogs of a table slot are elements of the field. -/
theorem SlotInv.readAlog_lt {i : Nat} (hi : i < s.orderOf k) : (s.readAlog k i).toNat < 2 ^ s.degreeOf k := by
  rw [h.readAlog_toNat hk he hi]
  exact h.genPow_lt hk _ i

/-- LOG[v] of a table slot reads as the exponent of v, for 1 ≤ v ≤ N (R162). -/
theorem SlotInv.readLog_spec {v : Nat} (h1 : 1 ≤ v) (h2 : v ≤ s.orderOf k) :
    (s.readLog k v).toNat < s.orderOf k ∧ genPow (s.slot k).gen.toNat (s.modulus k) (s.readLog k v).toNat = v := by
  obtain ⟨-, -, -, -, -, htable⟩ := h hk.2
  obtain ⟨hMT, -, -, hlog⟩ := htable he
  obtain ⟨i, hi, hv, hpow⟩ := hlog v h1 h2
  have hN : s.orderOf k < 2 ^ 16 :=
    (Nat.sub_lt (Nat.two_pow_pos _) Nat.one_pos).trans_le (Nat.pow_le_pow_right (by decide) hMT)
  rw [State.readLog, hv, Option.getD_some, BitVec.toNat_ofNat, Nat.mod_eq_of_lt (hi.trans hN)]
  exact ⟨hi, hpow⟩

/-- The antilog of the log of v is v (R162). -/
theorem SlotInv.readAlog_readLog {v : Nat} (h1 : 1 ≤ v) (h2 : v ≤ s.orderOf k) :
    (s.readAlog k (s.readLog k v).toNat).toNat = v := by
  obtain ⟨hi, hpow⟩ := h.readLog_spec hk he h1 h2
  rw [h.readAlog_toNat hk he hi, hpow]

/-- The antilog of i is an index of the log table, and its log is i (R162). -/
theorem SlotInv.readLog_readAlog {i : Nat} (hi : i < s.orderOf k) :
    1 ≤ (s.readAlog k i).toNat ∧ (s.readAlog k i).toNat ≤ s.orderOf k ∧
      (s.readLog k (s.readAlog k i).toNat).toNat = i := by
  obtain ⟨hdeg, hm⟩ := h.deg_modulus hk
  obtain ⟨-, -, -, hirr, -, htable⟩ := h hk.2
  obtain ⟨-, hprim, -⟩ := htable he
  have hI := (irred_iff hm hdeg).1 hirr
  have hpos : 1 ≤ (s.readAlog k i).toNat := by
    rw [h.readAlog_toNat hk he hi]
    exact Nat.one_le_iff_ne_zero.2 (genPow_ne_zero hdeg hI hprim.1 hprim.2.1 i)
  have hle : (s.readAlog k i).toNat ≤ s.orderOf k := Nat.le_sub_one_of_lt (h.readAlog_lt hk he hi)
  obtain ⟨hj, hpow⟩ := h.readLog_spec hk he hpos hle
  refine ⟨hpos, hle, genPow_inj hm hdeg hI hprim hj hi ?_⟩
  rw [hpow, h.readAlog_toNat hk he hi]

end SlotInvariant

/-! ### The engines stay in the field -/

/-- The Euclidean inverse, where it answers, is a remainder by the modulus. -/
theorem eeaLoop_eq_rmod {f v : Poly} : ∀ {n : Nat} {rPrev sPrev rCur sCur : Poly},
    eeaLoop f n rPrev sPrev rCur sCur = .ok v → ∃ a, v = rmod a f := by
  intro n
  induction n with
  | zero => intro _ _ _ _ h; cases h; exact ⟨_, rfl⟩
  | succ n ih =>
    intro _ _ _ _ h
    rw [eeaLoop] at h
    split at h
    · exact ih (check_eq_ok h).2
    · cases h; exact ⟨_, rfl⟩

/-- An integer remainder by the group order is an exponent below it. -/
theorem toNat_emod_lt {n : Nat} (hn : 0 < n) (a : Int) : (a % (n : Int)).toNat < n := by
  have := Int.emod_lt_of_pos a (Int.natCast_pos.2 hn)
  have := Int.emod_nonneg a (Int.natCast_ne_zero.2 hn.ne')
  omega

section EngineBounds
variable (h : SlotInv s k) (hk : Holds s k)
include h hk

/-- A product by either engine is an element of the field. -/
theorem fieldMul_lt (a b : Poly) : fieldMul s k a b < 2 ^ s.degreeOf k := by
  cases he : (s.slot k).eng with
  | euclidean =>
    simp only [fieldMul, he]
    exact h.rmod_lt hk _
  | table =>
    simp only [fieldMul, he, tblMul]
    split
    · exact Nat.two_pow_pos _
    · exact h.readAlog_lt hk he (Nat.mod_lt _ (h.orderOf_pos hk))

/-- A quotient by either engine is an element of the field. -/
theorem fieldDiv_lt {a b v : Poly} (hv : fieldDiv s k a b = .ok v) : v < 2 ^ s.degreeOf k := by
  cases he : (s.slot k).eng with
  | euclidean =>
    simp only [fieldDiv, he] at hv
    obtain ⟨_, -, hv⟩ := bind_eq_ok hv
    cases hv
    exact h.rmod_lt hk _
  | table =>
    simp only [fieldDiv, he, tblDiv] at hv
    cases hv
    split
    · exact Nat.two_pow_pos _
    · exact h.readAlog_lt hk he (toNat_emod_lt (h.orderOf_pos hk) _)

/-- An inverse by either engine is an element of the field. -/
theorem fieldInv_lt {a v : Poly} (hv : fieldInv s k a = .ok v) : v < 2 ^ s.degreeOf k := by
  cases he : (s.slot k).eng with
  | euclidean =>
    simp only [fieldInv, he] at hv
    obtain ⟨b, rfl⟩ := eeaLoop_eq_rmod hv
    exact h.rmod_lt hk b
  | table =>
    simp only [fieldInv, he, tblInv] at hv
    cases hv
    exact h.readAlog_lt hk he (toNat_emod_lt (h.orderOf_pos hk) _)

end EngineBounds

/-! ### The table reads of a table slot -/

section TableReads
variable (hk : Holds s k) (he : (s.slot k).eng = .table)
include hk he

/-- TLOG of an index 1..N of a table slot reads the log entry (R210). -/
theorem exec_tlog_of_table {v : BitVec 16} (h1 : 1 ≤ v.toNat) (h2 : v.toNat ≤ s.orderOf k) :
    exec (.tlog k v) s = .next (s.writeResult ((s.readLog k v.toNat).setWidth 32)).retire := by
  simp only [exec, execTlog, State.tableSlot_of_table hk he]
  change complete s (if v.toNat = 0 ∨ v.toNat > s.orderOf k then _ else _) = _
  rw [if_neg (by omega)]
  rfl

/-- TALOG of an index below N of a table slot reads the antilog entry (R211). -/
theorem exec_talog_of_table {j : BitVec 16} (hj : j.toNat < s.orderOf k) :
    exec (.talog k j) s = .next (s.writeResult ((s.readAlog k j.toNat).setWidth 32)).retire := by
  simp only [exec, execTalog, State.tableSlot_of_table hk he]
  change complete s (if j.toNat ≥ s.orderOf k then _ else _) = _
  rw [if_neg (by omega)]
  rfl

end TableReads

end Sys2Proof.Machine
end

section
/-! SUPPORT. Every effect of a command keeps the invariants of the data and of the tables' form. -/

namespace Sys2Proof.Machine

variable {s t u : State} {i : Instr} {k : SlotIx}

/-! ### Effects keep the data invariant -/

/-- Writing an element of a field that stands in its slot keeps the data invariant. -/
theorem dataInv_writeE (h : DataInv s) (d : EReg) {v : ElemReg} (hk : Holds s v.fs)
    (hv : v.val.toNat < 2 ^ s.degreeOf v.fs) : DataInv (s.writeE d v) := by
  refine ⟨fun k => slotInv_congr rfl rfl rfl (h.1 k), fun a => ?_⟩
  by_cases hd : d = a
  · subst hd
    intro _
    rw [State.ownerOf, State.valOf, State.readE_writeE_self]
    exact ⟨hk, deg_lt_iff.2 hv⟩
  · exact elemInv_congr ((State.readE_writeE s d a v).trans (if_neg hd)) (fun _ => rfl) (h.2 a)

/-- The result of an engine or of ELEM, a value below 2^M, keeps the data invariant. -/
theorem dataInv_writeE_mkElem (h : DataInv s) (d : EReg) (hk : Holds s k) {v : Poly} (hv : v < 2 ^ s.degreeOf k) :
    DataInv (s.writeE d (mkElem k v)) :=
  dataInv_writeE h d hk ((BitVec.toNat_ofNat v 127).trans_le (Nat.mod_le _ _) |>.trans_lt hv)

/-- A written element stands in a field and fits in its degree. -/
theorem DataInv.element_spec (h : DataInv s) {a : EReg} (ha : Written s a) :
    Holds s (s.ownerOf a) ∧ s.valOf a < 2 ^ s.degreeOf (s.ownerOf a) := by
  obtain ⟨hk, hv⟩ := h.2 a ha
  exact ⟨hk, deg_lt_iff.1 hv⟩

/-- The sum of two elements of one field is an element of it. -/
theorem dataInv_writeE_addElem (h : DataInv s) (d : EReg) {a b : EReg} (ha : Written s a) (hb : Written s b)
    (hf : SameField s (s.ownerOf a) (s.ownerOf b)) : DataInv (s.writeE d (addElem (s.readE a) (s.readE b))) := by
  obtain ⟨hk, hva⟩ := h.element_spec ha
  obtain ⟨-, hvb⟩ := h.element_spec hb
  have hm : s.degreeOf (s.ownerOf b) = s.degreeOf (s.ownerOf a) := by rw [State.degreeOf, ← hf.1]; rfl
  refine dataInv_writeE h d hk ?_
  rw [addElem, BitVec.toNat_xor]
  exact Nat.xor_lt_two_pow hva (hm ▸ hvb)

/-- FREL clears the elements of the slot it frees, so no element is left without its field. -/
theorem dataInv_released (h : DataInv s) : DataInv (s.released k) := by
  refine ⟨fun j => ?_, fun a => ?_⟩
  · by_cases hj : k = j ∧ k.val < Config.NF
    · exact slotInv_of_invalid (by rw [State.slot_released, if_pos hj]; rfl)
    · exact slotInv_congr (by rw [State.slot_released, if_neg hj]) (by rw [State.alogOf_released, if_neg hj])
        (by rw [State.logOf_released, if_neg hj]) (h.1 j)
  · by_cases ho : (s.readE a).wr = true ∧ (s.readE a).fs = k
    · exact elemInv_of_unwritten (by rw [Written, State.readE_released, if_pos ho]; exact Bool.false_ne_true)
    · refine elemInv_congr (by rw [State.readE_released, if_neg ho]) (fun hw => ?_) (h.2 a)
      rw [State.slot_released, if_neg fun hj => ho ⟨hw, hj.1.symm⟩]

/-- What the construction checks establish, in the terms of R160 and R161: an irreducible modulus of degree m, and for
the table engine a degree within MT and a primitive generator. -/
theorem constructionChecks_field {m : Nat} {f : Poly} {e : Engine} {g : Poly}
    (hc : constructionChecks s k m f e g = .ok ()) :
    2 ≤ m ∧ deg f = (m : Int) ∧ IRRED f m ∧ (e = .table → m ≤ 16 ∧ PRIMITIVE g f m) := by
  obtain ⟨-, -, hm, hdeg, hMT, -, hirr, hprim⟩ := constructionChecks_eq_ok.1 hc
  refine ⟨hm, hdeg, irred_of_irreducible (natDegree_eq_of_deg hdeg).2 hirr, fun he => ⟨?_, ?_⟩⟩
  · simpa [Config.MT, he] using hMT
  · exact primitive_eq_true_iff.1 (by simpa [he] using hprim)

/-- The slot and the tables a construction leaves meet the field-slot invariant. -/
theorem slotInv_constructed {m : BitVec 7} {f : Poly} {e : Engine} {genx : Bool} {g : Poly}
    (hop : e = .euclidean → genx = false) (hc : constructionChecks s k m.toNat f e g = .ok ()) :
    SlotInv (s.constructed k m f e genx g) k := by
  obtain ⟨hk, -⟩ := constructionChecks_eq_ok.1 hc
  obtain ⟨hm, hdeg, hI, htable⟩ := constructionChecks_field hc
  have hslot : (s.constructed k m f e genx g).slot k = constructedSlot m f e genx g := by
    rw [State.slot_constructed, if_pos ⟨rfl, hk⟩]
  have hmod : (BitVec.ofNat 128 f).toNat = f := by
    rw [BitVec.toNat_ofNat, Nat.mod_eq_of_lt]
    have hlt : f < 2 ^ (m.toNat + 1) := deg_lt_iff.1 (by omega)
    exact hlt.trans_le (Nat.pow_le_pow_right (by decide) m.isLt)
  intro _
  simp only [TablesHold, State.modulus, State.degreeOf, State.orderOf, hslot, constructedSlot, hmod]
  refine ⟨hdeg, hm, Nat.le_of_lt_succ m.isLt, hI, fun he => ⟨hop he, if_neg (by simp [he])⟩, fun he => ?_⟩
  subst he
  obtain ⟨hMT, hp⟩ := htable rfl
  have hgen : (BitVec.ofNat 16 g).toNat = g := by
    rw [BitVec.toNat_ofNat, Nat.mod_eq_of_lt]
    exact (deg_lt_iff.1 hp.2.1).trans_le (Nat.pow_le_pow_right (by decide) hMT)
  rw [if_pos rfl, hgen, State.alogOf_constructed, State.logOf_constructed, if_pos ⟨rfl, rfl, hk⟩, if_pos ⟨rfl, rfl, hk⟩]
  exact ⟨hMT, hp, fun i hi => lookup_buildAlog g f hi,
    fun v h1 h2 => lookup_buildLog (by omega) hMT hdeg hI hp h1 h2⟩

/-- A construction into a free slot keeps the data invariant: no element is of that slot. -/
theorem dataInv_constructed {m : BitVec 7} {f : Poly} {e : Engine} {genx : Bool} {g : Poly} (h : DataInv s)
    (hop : e = .euclidean → genx = false) (hc : constructionChecks s k m.toNat f e g = .ok ()) :
    DataInv (s.constructed k m f e genx g) := by
  obtain ⟨-, hfree, -⟩ := constructionChecks_eq_ok.1 hc
  refine ⟨fun j => ?_, fun a => ?_⟩
  · by_cases hj : k = j
    · subst hj; exact slotInv_constructed hop hc
    · exact slotInv_congr (by rw [State.slot_constructed, if_neg (by simp [hj])])
        (by rw [State.alogOf_constructed, if_neg (by simp [hj])])
        (by rw [State.logOf_constructed, if_neg (by simp [hj])]) (h.1 j)
  · refine elemInv_congr (State.readE_constructed ..) (fun hw => ?_) (h.2 a)
    have hne : k ≠ s.ownerOf a := fun e => by simp [e, (h.element_spec hw).1.2] at hfree
    rw [State.slot_constructed, if_neg (by simp [hne])]

/-- FCFG gives no explicit generator to a Euclidean field (R163, R170). -/
theorem fcfgOperands_euclidean {m : BitVec 7} {pm : PReg} {e : Engine} {genx : Bool} {g : Poly}
    (h : fcfgOperands s i = some (k, m, pm, e, genx, g)) (he : e = .euclidean) : genx = false := by
  cases i <;> simp_all [fcfgOperands]

/-- Every effect of a command keeps the data invariant. -/
theorem dataInv_effect (h : DataInv s) (hu : Effect s i u) : DataInv u := by
  cases hu with
  | nothing => exact h
  | writeP => exact dataInv_of_sameData ⟨rfl, rfl, rfl, rfl⟩ h
  | divmod => exact dataInv_of_sameData ⟨rfl, rfl, rfl, rfl⟩ h
  | writeResult => exact dataInv_of_sameData ⟨rfl, rfl, rfl, rfl⟩ h
  | construct i k m pm e genx g ho hc => exact dataInv_constructed h (fcfgOperands_euclidean ho) hc
  | release k hk => exact dataInv_released h
  | elem d a k hk hd => exact dataInv_writeE_mkElem h d hk (deg_lt_iff.1 hd)
  | add i d a b _ ha hb hf => exact dataInv_writeE_addElem h d ha hb hf
  | neg d a ha =>
    obtain ⟨hk, hv⟩ := h.element_spec ha
    exact dataInv_writeE h d hk hv
  | mul d a b ha hb hf =>
    obtain ⟨hk, -⟩ := h.element_spec ha
    exact dataInv_writeE_mkElem h d hk (fieldMul_lt (h.1 _) hk _ _)
  | div d a b v ha hb hf h0 hv =>
    obtain ⟨hk, -⟩ := h.element_spec ha
    exact dataInv_writeE_mkElem h d hk (fieldDiv_lt (h.1 _) hk hv)
  | inv d a v ha h0 hv =>
    obtain ⟨hk, -⟩ := h.element_spec ha
    exact dataInv_writeE_mkElem h d hk (fieldInv_lt (h.1 _) hk hv)

/-! ### Effects keep the table memories canonical -/

/-- Every effect of a command keeps the table memories in canonical form. -/
theorem tablesCanonical_effect (h : TablesCanonical s) (hu : Effect s i u) : TablesCanonical u := by
  rcases hu.slot_cases with ⟨-, halog, hlog⟩ | ⟨k, m, pm, e, genx, g, -, hc, rfl⟩ | ⟨k, -, -, rfl⟩
  · intro j
    rw [State.alogOf_congr halog, State.logOf_congr hlog]
    exact h j
  · obtain ⟨hm, hdeg, hI, htable⟩ := constructionChecks_field hc
    intro j
    rw [State.alogOf_constructed, State.logOf_constructed]
    split
    case isTrue hj =>
      obtain ⟨hMT, hp⟩ := htable hj.1
      exact ⟨wf_buildAlog g _ hMT, wf_buildLog_of_primitive (by omega) hMT hdeg hI hp⟩
    case isFalse => exact h j
  · intro j
    rw [State.alogOf_released, State.logOf_released]
    split
    · exact ⟨wf_nil, wf_nil⟩
    · exact h j

/-! ### What a command does to one slot -/

/-- A command keeps slot k and its tables, or is an FCFG that found k free, or the FREL of k, which leaves it free. -/
theorem exec_slot_cases (h : exec i s = .next t) (k : SlotIx) :
    (t.slot k = s.slot k ∧ t.alogOf k = s.alogOf k ∧ t.logOf k = s.logOf k) ∨
    ((s.slot k).valid = false ∧ ∃ m pm e genx g, fcfgOperands s i = some (k, m, pm, e, genx, g)) ∨
    (i = .frel k ∧ (t.slot k).valid = false) := by
  rcases exec_cases h with ⟨u, hu, rfl⟩ | ⟨c, rfl, -⟩
  · simp only [State.slot_retire, State.alogOf_retire, State.logOf_retire]
    rcases hu.slot_cases with ⟨hfs, halog, hlog⟩ | ⟨j, m, pm, e, genx, g, ho, hc, rfl⟩ | ⟨j, rfl, hj, rfl⟩
    · exact .inl ⟨State.slot_congr hfs k, State.alogOf_congr halog k, State.logOf_congr hlog k⟩
    · by_cases hjk : j = k
      · subst hjk
        exact .inr (.inl ⟨(constructionChecks_eq_ok.1 hc).2.1, m, pm, e, genx, g, ho⟩)
      · left
        simp [State.slot_constructed, State.alogOf_constructed, State.logOf_constructed, hjk]
    · by_cases hjk : j = k
      · subst hjk
        exact .inr (.inr ⟨rfl, by rw [State.slot_released, if_pos ⟨rfl, hj.1⟩]; rfl⟩)
      · left
        simp [State.slot_released, State.alogOf_released, State.logOf_released, hjk]
  · exact .inl ⟨rfl, rfl, rfl⟩

end Sys2Proof.Machine
end

section
/-! SUPPORT. The host port: what a read returns and what a write does, by the register at the offset (R62, R65). -/

namespace Sys2Proof.Machine

variable {s t u : State} {i : Instr} {k : SlotIx}

/-! ### One rule for a read, one for a write -/

/-- An aligned 32-bit read returns what stands at its offset. -/
theorem hostRead_of_mapReg {off : Offset} {r : MapReg} (hl : legalAccess off 4 = true) (hr : mapReg off = r) :
    ∃ t, hostRead off 4 s = .next t ∧ t.readData = some (s.portRead r) :=
  ⟨_, if_pos hl, by rw [hr]⟩

/-- An aligned 32-bit write does what the register at its offset does with the value. -/
theorem hostWrite_of_mapReg {off : Offset} {r : MapReg} (hl : legalAccess off 4 = true) (hr : mapReg off = r) (v : Word) :
    hostWrite off 4 v s = .next (s.portWrite v r) := by
  rw [hostWrite, if_pos hl, hr]

/-- With BUSY = 0 the host sees the register's own value. -/
theorem State.visible_of_idle (h : s.status.busy = false) (v : Word) : s.visible v = v := by
  simp [State.visible, h]

/-- The fields of STATUS at their places (R28). -/
theorem Status.word_fields (st : Status) :
    st.word.getLsbD 0 = st.busy ∧ st.word.getLsbD 1 = st.err ∧ st.word.getLsbD 2 = st.fatal ∧
    st.word.getLsbD 3 = st.ovr ∧ st.word.extractLsb' 4 4 = 0 ∧ st.word.extractLsb' 8 8 = st.errcode ∧
    st.word.extractLsb' 16 6 = st.errop ∧ st.word.extractLsb' 22 10 = 0 := by
  simp only [Status.word, BitVec.getLsbD_append, BitVec.extractLsb'_append_eq_ite]
  simp

/-- An index at or above NF reads as a slot that holds no field (R36). -/
theorem holds_iff_valid : Holds s k ↔ (s.slot k).valid = true := by
  refine ⟨fun h => h.2, fun h => ⟨?_, h⟩⟩
  by_contra hk
  rw [State.slot_of_le (by omega)] at h
  cases h

/-- The engine tag's bit is 1 for the table engine. -/
theorem Engine.bit_getLsbD_zero (e : Engine) : e.bit.getLsbD 0 = true ↔ e = .table := by cases e <;> decide

/-- The fields of FINFO[k] at their places, for a slot that holds a field (R36). -/
theorem State.finfo_fields (h : (s.slot k).valid = true) :
    (s.finfo k).extractLsb' 0 7 = (s.slot k).m ∧ (s.finfo k).getLsbD 7 = false ∧
    ((s.finfo k).getLsbD 8 = true ↔ (s.slot k).eng = .table) ∧ (s.finfo k).getLsbD 9 = (s.slot k).genx ∧
    (s.finfo k).extractLsb' 10 5 = 0 ∧ (s.finfo k).getLsbD 15 = true ∧
    (s.finfo k).extractLsb' 16 16 = (s.slot k).gen := by
  rw [State.finfo, if_pos h, ← Engine.bit_getLsbD_zero]
  simp only [BitVec.getLsbD_append, BitVec.extractLsb'_append_eq_ite]
  simp

/-- A reset of the block leaves the values of R38. -/
theorem resetValues_resetBlock (s : State) : ResetValues s.resetBlock := by
  refine ⟨fun j => ?_, fun a => ?_, fun k => ?_, rfl, rfl, rfl⟩
  · simp [State.readP, State.reset]
  · rw [State.readE_congr (State.resetBlock_e s), State.readE_reset]; rfl
  · rw [State.slot_congr (State.resetBlock_fs s), State.slot_reset]; rfl

section CtrlWrite
variable {v : Word}

/-- SRST resets the block, whatever ERRCLR and BUSY are (R31). -/
theorem State.writeCtrl_of_srst (h1 : v.getLsbD 1 = true) : s.writeCtrl v = s.resetBlock := if_pos h1
/-- ERRCLR without SRST (R31). -/
theorem State.writeCtrl_of_errclr (h1 : v.getLsbD 1 = false) (h0 : v.getLsbD 0 = true) : s.writeCtrl v = s.errclr := by
  rw [State.writeCtrl, h1, h0]; rfl
/-- With neither bit nothing happens (R31). -/
theorem State.writeCtrl_of_neither (h1 : v.getLsbD 1 = false) (h0 : v.getLsbD 0 = false) : s.writeCtrl v = s := by
  rw [State.writeCtrl, h1, h0]; rfl
end CtrlWrite

end Sys2Proof.Machine
end

section
/-! SUPPORT. The statements about the state and the register map, each settled from the lemmas above. -/

namespace Sys2Proof.Machine

/-- Settles O53: every step keeps elements, slots and tables, resets the block, or is the effect of one command, and each
effect keeps the invariant. -/
theorem everyStepKeepsTheDataInvariant : Obligations.EveryStepKeepsTheDataInvariant :=
  fun _ _ => step_keeps dataInv_of_sameData dataInv_effect dataInv_reset

/-- Settles O10: each offset is looked up in the register map, and the read or write is that of the register there. -/
theorem constantAndReservedOffsets : Obligations.ConstantAndReservedOffsets := by
  refine fun s v => ⟨hostRead_of_mapReg (r := .id) rfl rfl, hostRead_of_mapReg (r := .param) rfl rfl,
    hostRead_of_mapReg (r := .ctrl) rfl rfl, fun off ha hr => ?_, fun off ho => ?_, fun k => ?_⟩
  · have hl : legalAccess off 4 = true := decide_eq_true ⟨rfl, ha⟩
    have hm := mapReg_reserved hr
    exact ⟨hostRead_of_mapReg hl hm, hostWrite_of_mapReg hl hm v⟩
  · simp only [List.mem_cons, List.not_mem_nil, or_false] at ho
    rcases ho with rfl | rfl | rfl | rfl | rfl <;> rfl
  · obtain ⟨hm, hl⟩ := mapReg_finfo k
    exact hostWrite_of_mapReg hl hm v

/-- Settles O11: STATUS is read by its fields at any time; with BUSY = 0 the other two are read as they stand. -/
theorem statusResultAndErrcmdRead : Obligations.StatusResultAndErrcmdRead := by
  intro s
  obtain ⟨t, ht, hx⟩ := hostRead_of_mapReg (s := s) (off := 0x008) (r := .status) rfl rfl
  refine ⟨⟨t, _, ht, hx, s.status.word_fields⟩, fun hb => ⟨?_, ?_⟩⟩
  · rw [← State.visible_of_idle hb s.result]
    exact hostRead_of_mapReg (r := .result) rfl rfl
  · rw [← State.visible_of_idle hb s.errcmd]
    exact hostRead_of_mapReg (r := .errcmd) rfl rfl

/-- Settles O12: FINFO ignores writes; with BUSY = 0 its read is the slot's fields, or 0 where no field stands. -/
theorem finfoDescribesTheSlot : Obligations.FinfoDescribesTheSlot := by
  intro s k
  obtain ⟨hm, hl⟩ := mapReg_finfo k
  refine ⟨hostWrite_of_mapReg hl hm, fun hb => ?_⟩
  obtain ⟨t, ht, hx⟩ := hostRead_of_mapReg (s := s) hl hm
  rw [State.portRead, State.visible_of_idle hb] at hx
  refine ⟨t, _, ht, hx, fun h => State.finfo_fields h.2, fun h => ?_⟩
  rw [holds_iff_valid] at h
  exact if_neg h

/-- Settles O36: after the first table read only RESULT has changed, so the second reads the same tables. -/
theorem logAndAntilogAreInverse : Obligations.LogAndAntilogAreInverse := by
  intro s k h hk he
  refine ⟨fun v h1 h2 => ?_, fun i hi => ?_⟩
  · obtain ⟨hlog, -⟩ := h.readLog_spec hk he h1 h2
    refine ⟨_, _, exec_tlog_of_table hk he h1 h2, ?_,
      succeeded_writeResult _ ((s.readAlog k (s.readLog k v.toNat).toNat).setWidth 32), ?_⟩
    · rw [State.retire_result, State.writeResult_result, BitVec.setWidth_setWidth_of_le _ (by decide)]
      exact exec_talog_of_table (s := (s.writeResult ((s.readLog k v.toNat).setWidth 32)).retire) hk he hlog
    · exact (BitVec.toNat_setWidth_of_le (by decide)).trans (h.readAlog_readLog hk he h1 h2)
  · obtain ⟨h1, h2, hinv⟩ := h.readLog_readAlog hk he hi
    refine ⟨_, _, exec_talog_of_table hk he hi, ?_,
      succeeded_writeResult _ ((s.readLog k (s.readAlog k i.toNat).toNat).setWidth 32), ?_⟩
    · rw [State.retire_result, State.writeResult_result, BitVec.setWidth_setWidth_of_le _ (by decide)]
      exact exec_tlog_of_table (s := (s.writeResult ((s.readAlog k i.toNat).setWidth 32)).retire) hk he h1 h2
    · exact (BitVec.toNat_setWidth_of_le (by decide)).trans hinv

/-- Settles O51: a command that changes slot k is an FCFG that found it free, or its FREL. -/
theorem fieldsAreImmutableUntilFreed : Obligations.FieldsAreImmutableUntilFreed := by
  intro i s t k h
  rcases exec_slot_cases h k with ⟨hslot, htables⟩ | ⟨hfree, hop⟩ | ⟨hi, hfree⟩
  · exact ⟨fun _ _ => ⟨hslot, htables⟩, fun h1 h2 => by simp [hslot, h1] at h2⟩
  · exact ⟨fun h1 _ => by simp [hfree] at h1, fun _ _ => hop⟩
  · exact ⟨fun _ h1 => absurd hi h1, fun _ h2 => by simp [hfree] at h2⟩

/-- Settles O55, by the same analysis of a step. -/
theorem everyStepKeepsTheTablesCanonical : Obligations.EveryStepKeepsTheTablesCanonical :=
  fun _ _ => step_keeps tablesCanonical_of_sameData tablesCanonical_effect tablesCanonical_reset

/-- Settles O13: the cases of a CTRL write by SRST, ERRCLR and BUSY. -/
theorem ctrlWriteClearsOrResets : Obligations.CtrlWriteClearsOrResets := by
  intro s v
  have hw : hostWrite 0x010 4 v s = .next (s.writeCtrl v) := hostWrite_of_mapReg (r := .ctrl) rfl rfl v
  refine ⟨fun h1 => ?_, fun h1 h0 hb => ?_, fun h1 h0 hb => ?_, fun h1 h0 => ?_,
    hostRead_of_mapReg (r := .ctrl) rfl rfl⟩
  · rw [hw, State.writeCtrl_of_srst h1]
    exact ⟨_, rfl, resetValues_resetBlock s, rfl⟩
  · rw [hw, State.writeCtrl_of_errclr h1 h0, State.errclr, if_neg (by simp [hb]), Status.errclr, hb]
  · rw [hw, State.writeCtrl_of_errclr h1 h0, State.errclr, if_pos hb]
  · rw [hw, State.writeCtrl_of_neither h1 h0]

/-- Settles O52: after reset every slot is free, every element unwritten, every table empty, and STATUS is 0. -/
theorem resetMeetsTheInvariants : Obligations.ResetMeetsTheInvariants :=
  ⟨dataInv_reset, ⟨fun _ => ⟨rfl, rfl, rfl⟩, fun h => absurd h (by decide)⟩, fun h => absurd h (by decide),
    tablesCanonical_reset, rfl⟩

end Sys2Proof.Machine
end

section
/-! SUPPORT. The accesses of the host port that the statements of the memory map speak of: which accesses fault, the
words of the P window bit by bit, and a write to CMD or the P window by BUSY and the error state (R63, R65, R66). -/

namespace Sys2Proof.Machine

variable {s : State}

/-! ### Which accesses fault (R65) -/

/-- A legal access is exactly an aligned one of 32 bits. -/
theorem legalAccess_iff {off : Offset} {n : Nat} : legalAccess off n = true ↔ n = 4 ∧ off.toNat % 4 = 0 :=
  decide_eq_true_iff

section IllegalAccess
variable {off : Offset} {n : Nat} (h : ¬ (n = 4 ∧ off.toNat % 4 = 0))
include h

/-- A read that is not an aligned 32-bit one faults. -/
theorem hostRead_of_illegal : hostRead off n s = .fault .busError := if_neg (mt legalAccess_iff.1 h)
/-- A write that is not an aligned 32-bit one faults. -/
theorem hostWrite_of_illegal (v : Word) : hostWrite off n v s = .fault .busError := if_neg (mt legalAccess_iff.1 h)

end IllegalAccess

/-! ### The words of a polynomial register (R63) -/

section PWord
variable (v : PolyWord) (j : Fin 8)

/-- Word j of a polynomial register is its bits from 32j on. -/
theorem getLsbD_pWord {b : Nat} (hb : b < 32) : (pWord v j).getLsbD b = v.getLsbD (32 * j.val + b) := by
  simp [pWord, hb]

/-- The mask of a word has the lowest 32 bits. -/
theorem getLsbD_wordMask (b : Nat) : (0xFFFFFFFF#256).getLsbD b = decide (b < 32) := by
  have hmask : (0xFFFFFFFF#256).toNat = 2 ^ 32 - 1 := rfl
  rw [BitVec.getLsbD, hmask, Nat.testBit_two_pow_sub_one]

/-- Replacing word j replaces the bits 32j to 32j+31 and no others. -/
theorem getLsbD_setPWord (x : Word) {b : Nat} (hb : b < 256) : (setPWord v j x).getLsbD b =
    if 32 * j.val ≤ b ∧ b < 32 * j.val + 32 then x.getLsbD (b - 32 * j.val) else v.getLsbD b := by
  simp only [setPWord, BitVec.getLsbD_or, BitVec.getLsbD_and, BitVec.getLsbD_not, BitVec.getLsbD_shiftLeft,
    BitVec.getLsbD_setWidth, getLsbD_wordMask]
  rcases Nat.lt_or_ge b (32 * j.val) with hlo | hlo
  · rw [if_neg (by omega)]
    simp [hb, hlo]
  · rcases Nat.lt_or_ge b (32 * j.val + 32) with hhi | hhi
    · have hin : b - 32 * j.val < 32 := by omega
      have hin' : b - 32 * j.val < 256 := by omega
      rw [if_pos ⟨hlo, hhi⟩]
      simp [hb, hin, hin', hlo.not_gt]
    · have hout : 32 ≤ b - 32 * j.val := by omega
      rw [if_neg (by omega), BitVec.getLsbD_of_ge x _ hout]
      simp [hb, hout]

end PWord

/-- Outside P[d], a write to P[d] leaves the block as it was. -/
theorem frame_writeP (s : State) (d : PReg) (v : PolyWord) : Frame s (s.writeP d v) { p := [d] } := by
  obtain ⟨-, -, h⟩ := succeeded_writeP s d v
  exact h

/-! ### A write to CMD or to the P window, by BUSY and the error state (R63, R66) -/

section WriteByBusy
variable {v : Word}

/-- A CMD write while BUSY is an overrun. -/
theorem State.writeCmd_of_busy (hb : s.status.busy = true) : s.writeCmd v = s.overrun := if_pos hb
/-- A CMD write in the error state is dropped. -/
theorem State.writeCmd_of_inErrorState (hb : s.status.busy = false) (he : s.status.inErrorState = true) :
    s.writeCmd v = s := by
  rw [State.writeCmd, hb, he]; rfl
/-- Else a CMD write issues its word. -/
theorem State.writeCmd_of_ready (hb : s.status.busy = false) (he : s.status.inErrorState = false) :
    s.writeCmd v = s.issue v := by
  rw [State.writeCmd, hb, he]; rfl

/-- ERR and FATAL make the error state. -/
theorem Status.inErrorState_iff {st : Status} : st.inErrorState = true ↔ st.err = true ∨ st.fatal = true :=
  Bool.or_eq_true_iff

/-- A write to the P window while BUSY is an overrun. -/
theorem State.writeWindow_of_busy (hb : s.status.busy = true) (n : PReg) (j : Fin 8) :
    s.writeWindow n j v = s.overrun := if_pos hb
/-- A write to the P window with BUSY = 0 replaces one word of P[n]. -/
theorem State.writeWindow_of_idle (hb : s.status.busy = false) (n : PReg) (j : Fin 8) :
    s.writeWindow n j v = s.writeP n (setPWord (s.readP n) j v) := by
  rw [State.writeWindow, hb]; rfl

end WriteByBusy

/-- The core's turn on an illegal word in flight is error entry with ILLEGAL_CMD (R107, R345). -/
theorem coreTurn_of_illegal {e : DecodeError} (hb : s.status.busy = true) (hd : decode s.cmdLatch = .error e) :
    coreTurn s = .next (s.errorEntry .illegalCmd) := by
  rw [coreTurn, if_pos hb, completeCommand, State.fetchWord, hd]

end Sys2Proof.Machine
end

section
/-! SUPPORT. The statements about the memory map and the BUSY protocol, each settled from the lemmas above. -/

namespace Sys2Proof.Machine

/-- Settles O8: the offset names word j of P[n]; with BUSY = 0 it is read and replaced bit by bit, with BUSY = 1 the
write is an overrun. -/
theorem windowReadsAndWritesTheWordsOfP : Obligations.WindowReadsAndWritesTheWordsOfP := by
  intro s n j v
  obtain ⟨hm, hl⟩ := mapReg_window n j
  obtain ⟨t, ht, hx⟩ := hostRead_of_mapReg (s := s) hl hm
  have hw : hostWrite _ 4 v s = .next (s.writeWindow n j v) := hostWrite_of_mapReg hl hm v
  refine ⟨fun hb => ⟨t, _, ht, hx, fun b hlt => ?_⟩, fun hb => ?_, fun hb => ⟨⟨t, _, ht, hx⟩, ?_⟩⟩
  · rw [State.portRead, State.visible_of_idle hb]
    exact getLsbD_pWord _ j hlt
  · rw [hw, State.writeWindow_of_idle hb]
    refine ⟨_, rfl, rfl, rfl, frame_writeP s n _, fun b hlt => ?_⟩
    rw [State.readP_writeP_self]
    exact getLsbD_setPWord _ j v hlt
  · rw [hw, State.writeWindow_of_busy hb]
    rfl

/-- Settles O59: a read changes the model's own fields only, and while BUSY = 1 a write without SRST changes at most
OVR. -/
theorem hostAccessesDoNotDisturbTheCommandInFlight : Obligations.HostAccessesDoNotDisturbTheCommandInFlight := by
  refine fun s t off n v hb => ⟨fun h => ?_, fun h hv => ?_⟩
  · obtain ⟨-, rfl⟩ := hostRead_eq_next h
    rfl
  · obtain ⟨-, rfl⟩ := hostWrite_eq_next h
    obtain ⟨o, ho⟩ := State.portWrite_of_busy hb v (mapReg off) (fun hc => hv (mapReg_eq_ctrl hc))
    rw [ho]
    exact ⟨rfl, rfl⟩

/-- Settles O7: the cases of a CMD write by BUSY and the error state; the decoder is first run at completion. -/
theorem cmdWriteIssuesDropsOrOverruns : Obligations.CmdWriteIssuesDropsOrOverruns := by
  intro s v
  have hw : hostWrite 0x004 4 v s = .next (s.writeCmd v) := hostWrite_of_mapReg (r := .cmd) rfl rfl v
  refine ⟨fun hb => ?_, fun hb he => ?_, fun hb he hf => ?_, fun e hd => ?_, hostRead_of_mapReg (r := .cmd) rfl rfl⟩
  · rw [hw, State.writeCmd_of_busy hb]
    rfl
  · rw [hw, State.writeCmd_of_inErrorState hb (Status.inErrorState_iff.2 he)]
  · have hready : s.status.inErrorState = false := by rw [Status.inErrorState, he, hf]; rfl
    rw [hw, State.writeCmd_of_ready hb hready]
    rfl
  · exact ⟨_, coreTurn_of_illegal (s := s.issue v) rfl hd, endedWith_errorEntry _ _⟩

/-- Settles O9: an answered read records its data and takes one draw. -/
theorem readsHaveNoSideEffect : Obligations.ReadsHaveNoSideEffect := by
  intro s t off n h
  obtain ⟨-, rfl⟩ := hostRead_eq_next h
  rfl

/-- Settles O14: the legal accesses are the aligned ones of 32 bits, and each of them is answered. -/
theorem busErrorExactlyOnIllegalAccesses : Obligations.BusErrorExactlyOnIllegalAccesses := by
  refine fun s off n v => ⟨fun h => ⟨hostRead_of_illegal h, hostWrite_of_illegal h v⟩, fun hn ha => ?_⟩
  subst hn
  have hl : legalAccess off 4 = true := legalAccess_iff.2 ⟨rfl, ha⟩
  obtain ⟨t, ht, -⟩ := hostRead_of_mapReg (s := s) hl rfl
  exact ⟨⟨t, ht⟩, ⟨_, hostWrite_of_mapReg hl rfl v⟩⟩

end Sys2Proof.Machine
end

section
/-! SUPPORT. The formats of R92 to R103 read as rows of the opcode map (R106): a word is the encoding of a command
exactly when it fits the command's row and its operand fields hold the command's operands. -/

namespace Sys2Proof

/-! ### Concatenations, field by field -/

/-- A range of bits is a concatenation when its upper and lower parts are the two parts. -/
theorem extractLsb'_eq_append_iff {n m l lo : Nat} {w : BitVec l} {x : BitVec n} {y : BitVec m} :
    w.extractLsb' lo (n + m) = x ++ y ↔ w.extractLsb' (lo + m) n = x ∧ w.extractLsb' lo m = y := by
  rw [← BitVec.extractLsb'_append_extractLsb'_eq_extractLsb' rfl]
  refine ⟨fun h => ?_, fun ⟨hx, hy⟩ => hx ▸ hy ▸ rfl⟩
  have hx := congrArg (BitVec.extractLsb' m n) h
  have hy := congrArg (BitVec.extractLsb' 0 m) h
  simpa only [BitVec.extractLsb'_append_eq_left, BitVec.extractLsb'_append_eq_right] using And.intro hx hy

/-- A concatenation is the word whose upper and lower parts are its two parts. -/
theorem append_eq_iff {n m : Nat} {w : BitVec (n + m)} {x : BitVec n} {y : BitVec m} :
    x ++ y = w ↔ w.extractLsb' m n = x ∧ w.extractLsb' 0 m = y := by
  rw [eq_comm, ← BitVec.extractLsb'_eq_self (x := w), extractLsb'_eq_append_iff, Nat.zero_add,
    BitVec.extractLsb'_eq_self]

/-- A word is x ++ y when it agrees with x₀ ++ y₀ under the mask and meets F, if that is so of the parts. -/
theorem append_eq_iff_masked {n m : Nat} {w mask : BitVec (n + m)} {x x₀ : BitVec n} {y y₀ : BitVec m} {F : Prop}
    (h : w.extractLsb' m n = x ∧ w.extractLsb' 0 m = y ↔
      ((w &&& mask).extractLsb' m n = x₀ ∧ (w &&& mask).extractLsb' 0 m = y₀) ∧ F) :
    x ++ y = w ↔ x₀ ++ y₀ = w &&& mask ∧ F := by
  rw [append_eq_iff, append_eq_iff, h]

/-- A mask of ones keeps every bit. -/
theorem and_eq_of_allOnes {n : Nat} {x m : BitVec n} (h : m = BitVec.allOnes n) : x &&& m = x := by
  rw [h, BitVec.and_allOnes]

section IndexFields
variable {lo : Nat} {w m : Word}

/-- Four bits are the bits of an index when the index field there holds it. -/
theorem extractLsb'_eq_indexBits_iff {i : Fin 16} : w.extractLsb' lo 4 = indexBits i ↔ indexAt lo w = i :=
  ⟨congrArg BitVec.toFin, congrArg BitVec.ofFin⟩

/-- Every index field of the zero word is 0. -/
theorem indexAt_zero : indexAt lo 0#32 = 0 := congrArg BitVec.toFin BitVec.extractLsb'_zero

/-- An index field under zeros of the mask is cleared. -/
theorem indexAt_and_of_zero (h : m.extractLsb' lo 4 = 0) : indexAt lo (w &&& m) = 0 := by
  rw [indexAt, BitVec.extractLsb'_and, h]
  exact congrArg BitVec.toFin BitVec.and_zero

/-- An index field under ones of the mask is kept. -/
theorem indexAt_and_of_allOnes (h : m.extractLsb' lo 4 = BitVec.allOnes 4) :
    indexAt lo (w &&& m) = indexAt lo w := by
  rw [indexAt, BitVec.extractLsb'_and, and_eq_of_allOnes h, indexAt]

end IndexFields

/-! ### The row of a command, and the operands a word holds for it -/

/-- The mask of a command's row (R106): ones outside the operand fields of its format. -/
def Instr.mask : Instr → Word
  | .nop => 0xFFFFFFFF
  | .pxor _ _ _ | .clmul _ _ _ | .pmod _ _ _ | .elem _ _ _ => 0xFC003FFF
  | .eadd _ _ _ | .esub _ _ _ | .emul _ _ _ | .ediv _ _ _ => 0xFC003FFF
  | .eval _ _ | .eneg _ _ | .einv _ _ => 0xFC03FFFF
  | .pdeg _ => 0xFFC3FFFF
  | .eeq _ _ => 0xFFC03FFF
  | .pdivmod _ _ _ _ => 0xFC0003FF
  | .pshl _ _ _ | .pshr _ _ _ => 0xFC03FF00
  | .pbtst _ _ => 0xFFC3FF00
  | .pext _ _ _ _ => 0xFC030000
  | .pldi _ _ | .tlog _ _ | .talog _ _ => 0xFC3F0000
  | .fcfgEuclid _ _ _ | .fcfgTable _ _ _ => 0xFC0070FF
  | .fcfgTableGen _ _ _ _ => 0xFC00700F
  | .frel _ => 0xFC3FFFFF

/-- The command of i's row whose operands are the fields of w. -/
def Instr.readFrom (w : Word) : Instr → Instr
  | .nop => .nop
  | .pxor _ _ _ => .pxor (fieldD w) (fieldA w) (fieldB w)
  | .clmul _ _ _ => .clmul (fieldD w) (fieldA w) (fieldB w)
  | .pdeg _ => .pdeg (fieldA w)
  | .pdivmod _ _ _ _ => .pdivmod (fieldD w) (fieldR w) (fieldA w) (fieldB w)
  | .pmod _ _ _ => .pmod (fieldD w) (fieldA w) (fieldB w)
  | .pshl _ _ _ => .pshl (fieldD w) (fieldA w) (fieldN w)
  | .pshr _ _ _ => .pshr (fieldD w) (fieldA w) (fieldN w)
  | .pbtst _ _ => .pbtst (fieldA w) (fieldN w)
  | .pext _ _ _ _ => .pext (fieldD w) (fieldA w) (fieldN w) (fieldL w)
  | .pldi _ _ => .pldi (fieldD w) (fieldImm w)
  | .fcfgEuclid _ _ _ => .fcfgEuclid (fieldD w) (fieldMF w) (fieldPM w)
  | .fcfgTable _ _ _ => .fcfgTable (fieldD w) (fieldMF w) (fieldPM w)
  | .fcfgTableGen _ _ _ _ => .fcfgTableGen (fieldD w) (fieldMF w) (fieldPM w) (fieldPG w)
  | .frel _ => .frel (fieldD w)
  | .tlog _ _ => .tlog (fieldD w) (fieldImm w)
  | .talog _ _ => .talog (fieldD w) (fieldImm w)
  | .elem _ _ _ => .elem (fieldD w) (fieldA w) (fieldB w)
  | .eval _ _ => .eval (fieldD w) (fieldA w)
  | .eadd _ _ _ => .eadd (fieldD w) (fieldA w) (fieldB w)
  | .esub _ _ _ => .esub (fieldD w) (fieldA w) (fieldB w)
  | .eneg _ _ => .eneg (fieldD w) (fieldA w)
  | .emul _ _ _ => .emul (fieldD w) (fieldA w) (fieldB w)
  | .ediv _ _ _ => .ediv (fieldD w) (fieldA w) (fieldB w)
  | .einv _ _ => .einv (fieldD w) (fieldA w)
  | .eeq _ _ => .eeq (fieldA w) (fieldB w)

/-- The row of a command as the opcode map lists it, match and mask: the match is the word with every operand field 0. -/
def Instr.row (i : Instr) : Word × Word := (encode (i.readFrom 0), i.mask)

/-- w fits the row of i: w & mask = match (R106). -/
def FitsRow (i : Instr) (w : Word) : Prop := w &&& i.row.2 = i.row.1

section Rows
variable {i : Instr} {w : Word}

/-- Reading the operands anew forgets the former ones. -/
theorem Instr.readFrom_readFrom (i : Instr) (v w : Word) : (i.readFrom v).readFrom w = i.readFrom w := by
  cases i <;> rfl

/-- The row does not depend on the operands. -/
theorem Instr.row_readFrom (i : Instr) (w : Word) : (i.readFrom w).row = i.row := by
  cases i <;> rfl

/-- The word of i is the one that fits i's row and holds i's operands. Both sides are cut into the fields of the format:
under the mask's ones a field must hold the bits of the match, under its zeros it holds an operand. -/
theorem encode_eq_iff : encode i = w ↔ FitsRow i w ∧ i.readFrom w = i := by
  rw [FitsRow, Instr.row, eq_comm (a := w &&& _)]
  cases i <;> refine append_eq_iff_masked ?_
  all_goals
    simp only [extractLsb'_eq_append_iff, extractLsb'_eq_indexBits_iff, Instr.readFrom, Instr.mask]
    simp [BitVec.extractLsb'_and, indexAt_and_of_zero, indexAt_and_of_allOnes, indexAt_zero, and_eq_of_allOnes,
      fieldD, fieldA, fieldB, fieldR, fieldN, fieldL, fieldImm, fieldMF, fieldPM, fieldPG,
      and_assoc, and_comm, and_left_comm]

/-- The word of i fits i's row and holds i's operands. -/
theorem encode_spec (i : Instr) : FitsRow i (encode i) ∧ i.readFrom (encode i) = i := encode_eq_iff.1 rfl

/-- A word that fits a row is the word of the command read from it. -/
theorem encode_readFrom (h : FitsRow i w) : encode (i.readFrom w) = w :=
  encode_eq_iff.2 ⟨by rwa [FitsRow, i.row_readFrom], i.readFrom_readFrom w w⟩

/-- A word that fits a row has the row's opcode: every mask covers the opcode field. -/
theorem opOf_of_fitsRow (h : FitsRow i w) : opOf w = i.opcode := by
  have hmask : opOf i.row.2 = BitVec.allOnes 6 := by
    cases i <;> simp only [Instr.row, Instr.mask] <;> decide
  have hmatch : opOf i.row.1 = i.opcode := by
    cases i <;> simp only [Instr.row, Instr.readFrom, Instr.opcode] <;> decide
  rw [← hmatch, ← h, opOf, opOf, BitVec.extractLsb'_and]
  exact (and_eq_of_allOnes hmask).symm

end Rows

end Sys2Proof
end

section
/-! SUPPORT. The decoder by rows (R106, R108): it accepts the words that fit a row, reads the row's command from them, and
last checks the slot index. -/

namespace Sys2Proof

variable {i : Instr} {w : Word}

/-! ### What an accepted word tells -/

/-- A row is accepted only with its bits in place and its slot in range. -/
theorem fitRow_eq_ok {mask pat : Word} {j : Instr} (h : fitRow w mask pat j = .ok i) :
    w &&& mask = pat ∧ j = i ∧ i.wf = true := by
  unfold fitRow checkSlot at h
  split at h
  case isTrue hm =>
    split at h
    case isTrue hwf =>
      cases h
      exact ⟨hm, rfl, hwf⟩
    case isFalse => cases h
  case isFalse => cases h

/-- An accepted FCFG word fits the row of its command and holds its operands. -/
theorem decodeFcfg_eq_ok (h : decodeFcfg w = .ok i) : FitsRow i w ∧ i.readFrom w = i ∧ i.wf = true := by
  unfold decodeFcfg at h
  split at h
  · cases h
  · split at h
    · obtain ⟨hm, rfl, hwf⟩ := fitRow_eq_ok h
      exact ⟨hm, rfl, hwf⟩
    · cases h
  · split at h
    · obtain ⟨hm, rfl, hwf⟩ := fitRow_eq_ok h
      exact ⟨hm, rfl, hwf⟩
    · cases h
  · obtain ⟨hm, rfl, hwf⟩ := fitRow_eq_ok h
    exact ⟨hm, rfl, hwf⟩

/-- An accepted word fits the row of its command and holds its operands. -/
theorem decode_eq_ok (h : decode w = .ok i) : FitsRow i w ∧ i.readFrom w = i ∧ i.wf = true := by
  unfold decode at h
  split at h
  case h_12 => exact decodeFcfg_eq_ok h
  case h_25 => cases h
  all_goals
    obtain ⟨hm, rfl, hwf⟩ := fitRow_eq_ok h
    exact ⟨hm, rfl, hwf⟩

/-- An accepted word is the encoding of its command. -/
theorem encode_of_decode (h : decode w = .ok i) : encode i = w := by
  obtain ⟨hfits, hread, -⟩ := decode_eq_ok h
  exact encode_eq_iff.2 ⟨hfits, hread⟩

/-! ### What the decoder does with a word that fits a row -/

/-- The fields by which the decoder tells the forms of FCFG apart (R100): E, GX and PG. -/
theorem formatFC_fields {op : BitVec 6} {k : SlotIx} {m : BitVec 7} {e gx : BitVec 1} {pm pg : PReg}
    (h : formatFC op k m e gx pm pg = w) :
    w.getLsbD 14 = e.getLsbD 0 ∧ w.getLsbD 13 = gx.getLsbD 0 ∧ fieldPG w = pg := by
  subst h
  refine ⟨?_, ?_, extractLsb'_eq_indexBits_iff.1 ?_⟩
  · simp only [formatFC, BitVec.getLsbD_append]
    rfl
  · simp only [formatFC, BitVec.getLsbD_append]
    rfl
  · rw [formatFC, BitVec.extractLsb'_append_eq_of_le (Nat.le_refl 4)]
    exact BitVec.extractLsb'_append_eq_right

/-- A word that fits a row of FCFG is decoded as that form. -/
theorem decodeFcfg_of_fitsRow (h : FitsRow i w) (hop : i.opcode = 0x10) :
    decodeFcfg w = checkSlot (i.readFrom w) := by
  have hw := encode_readFrom h
  cases i
  case fcfgEuclid | fcfgTable =>
    obtain ⟨hE, hGX, hPG⟩ := formatFC_fields hw
    simp only [decodeFcfg, hE, hGX, hPG]
    exact if_pos h
  case fcfgTableGen =>
    obtain ⟨hE, hGX, -⟩ := formatFC_fields hw
    simp only [decodeFcfg, hE, hGX]
    exact if_pos h
  all_goals cases hop

/-- A word that fits a row is decoded as that row's command, if its slot is in range. -/
theorem decode_of_fitsRow (h : FitsRow i w) : decode w = checkSlot (i.readFrom w) := by
  rw [decode, opOf_of_fitsRow h]
  cases i
  case fcfgEuclid | fcfgTable | fcfgTableGen => exact decodeFcfg_of_fitsRow h rfl
  all_goals exact if_pos h

/-- Of an encoded command the decoder checks the slot index only. -/
theorem decode_encode (i : Instr) : decode (encode i) = checkSlot i := by
  obtain ⟨hfits, hread⟩ := encode_spec i
  rw [decode_of_fitsRow hfits, hread]

/-! ### The slot index -/

/-- The word's opcode takes a slot index, and the index names no slot (R107 item 5). -/
def SlotOutOfRange (w : Word) : Prop :=
  (opOf w ∈ [0x10#6, 0x11#6, 0x12#6, 0x13#6] ∧ Config.NF ≤ (fieldD w).val) ∨
    (opOf w = 0x18#6 ∧ Config.NF ≤ (fieldB w).val)

/-- A command is well formed when the slot index of its word is in range. -/
theorem Instr.wf_iff : i.wf = true ↔ ¬ SlotOutOfRange (encode i) := by
  obtain ⟨hfits, hread⟩ := encode_spec i
  rw [SlotOutOfRange, opOf_of_fitsRow hfits]
  conv_lhs => rw [← hread]
  cases i <;> simp [Instr.wf, Instr.slotOperand, Instr.opcode, Instr.readFrom]

/-- The word of a command is refused exactly for its slot index. -/
theorem decode_encode_eq_error_iff : (∃ e, decode (encode i) = .error e) ↔ SlotOutOfRange (encode i) := by
  rw [decode_encode, checkSlot]
  split
  case isTrue hwf => simp [Instr.wf_iff.1 hwf]
  case isFalse hwf => simp [not_not.1 (mt Instr.wf_iff.2 hwf)]

/-! ### The opcode map -/

/-- Each row of the opcode map is the row of the command that its match decodes to. -/
theorem opcodeMap_rows : ∀ r ∈ opcodeMap, (decode r.2.1).toOption.map Instr.row = some r.2 := by decide

/-- The row of each command stands in the opcode map. -/
theorem row_mem_opcodeMap (i : Instr) : i.row ∈ opcodeMap.map Prod.snd := by
  rw [← i.row_readFrom 0]
  cases i <;> simp only [Instr.readFrom] <;> decide

/-- A word matches a row of the opcode map exactly when it is the word of a command. -/
theorem exists_matchesRow_iff : (∃ r ∈ opcodeMap, matchesRow w r = true) ↔ ∃ i, encode i = w := by
  constructor
  · rintro ⟨r, hr, hm⟩
    obtain ⟨i, -, hrow⟩ := Option.map_eq_some_iff.1 (opcodeMap_rows r hr)
    have hfits : FitsRow i w := by
      rw [FitsRow, hrow]
      exact of_decide_eq_true hm
    exact ⟨_, encode_readFrom hfits⟩
  · rintro ⟨i, rfl⟩
    obtain ⟨r, hr, hrow⟩ := List.mem_map.1 (row_mem_opcodeMap i)
    refine ⟨r, hr, decide_eq_true ?_⟩
    rw [hrow]
    exact (encode_spec i).1

/-- The matches of any two rows differ in a bit that both masks cover. -/
theorem opcodeMap_pairwise_ne : opcodeMap.Pairwise (fun r q => r.2.1 &&& q.2.2 ≠ q.2.1 &&& r.2.2) := by decide

/-- The matches of two rows that one word matches agree in the bits that both masks cover. -/
theorem match_and_mask_eq {r q : String × Word × Word} (hr : matchesRow w r = true) (hq : matchesRow w q = true) :
    r.2.1 &&& q.2.2 = q.2.1 &&& r.2.2 := by
  rw [← of_decide_eq_true hr, ← of_decide_eq_true hq, BitVec.and_assoc, BitVec.and_assoc, BitVec.and_comm q.2.2]

end Sys2Proof
end

section
/-! SUPPORT. The statements about the encoding, each settled from the lemmas above. -/

namespace Sys2Proof

/-- Settles O1: of an encoded command the decoder checks the slot index only, and that is in range. -/
theorem decodeOfEncodeIsTheCommand : Obligations.DecodeOfEncodeIsTheCommand := by
  intro i hwf
  rw [decode_encode, checkSlot, if_pos hwf]

/-- Settles O2: an accepted word fits its command's row and holds its operands, and no other word does. -/
theorem decodedWordEncodesBack : Obligations.DecodedWordEncodesBack := by
  intro w i h
  obtain ⟨-, -, hwf⟩ := decode_eq_ok h
  exact ⟨hwf, encode_of_decode h⟩

/-- Settles O3: the words that match a row are the words of commands, and those are refused for the slot index only; two
rows differ in a bit that both fix. -/
theorem wordIllegalExactlyWhenNoRowFits : Obligations.WordIllegalExactlyWhenNoRowFits := by
  refine ⟨fun w => ?_, opcodeMap_pairwise_ne.imp fun hne w ⟨hr, hq⟩ => hne (match_and_mask_eq hr hq)⟩
  by_cases hw : ∃ i, encode i = w
  case pos =>
    obtain ⟨r, hr, hm⟩ := exists_matchesRow_iff.2 hw
    obtain ⟨i, rfl⟩ := hw
    refine decode_encode_eq_error_iff.trans ⟨.inr, fun h => h.resolve_left fun hno => ?_⟩
    exact Bool.false_ne_true ((hno r hr).symm.trans hm)
  case neg =>
    refine iff_of_true ?_ (.inl fun r hr => ?_)
    · cases hd : decode w with
      | error e => exact ⟨e, rfl⟩
      | ok i => exact absurd ⟨i, encode_of_decode hd⟩ hw
    · by_contra hm
      exact hw (exists_matchesRow_iff.1 ⟨r, hr, Bool.eq_true_of_not_eq_false hm⟩)

end Sys2Proof
end

section
/-! SUPPORT. The carry-less product and the long division as R120 to R122 state them: bit by bit, by degrees, and by
uniqueness. Each law is that of (ZMod 2)[X], carried over by `toPoly`. -/

namespace Sys2Proof.Machine

open Polynomial

variable {a b c p q r : Poly}

/-- The degree is the degree of the polynomial it stands for. -/
theorem deg_eq_natDegree (h : p ≠ 0) : deg p = (toPoly p).natDegree := by
  rw [natDegree_toPoly h, deg_of_ne_zero h]

/-! ### The product (R120) -/

/-- The XOR of n bits is their sum in ZMod 2. -/
theorem foldl_xor_eq_sum (f : Nat → Bool) (n : Nat) :
    (if (List.range n).foldl (fun acc i => acc ^^ f i) false then 1 else 0 : ZMod 2) =
      ∑ i ∈ Finset.range n, if f i then 1 else 0 := by
  induction n with
  | zero => rfl
  | succ n ih =>
    rw [List.range_succ, List.foldl_append, List.foldl_cons, List.foldl_nil, Finset.sum_range_succ, ← ih]
    cases f n <;> cases List.foldl _ false (List.range n) <;> decide

/-- Bit k of the product is the XOR of the products of the bits i and k − i: coefficient k of the polynomials' product. -/
theorem testBit_clmul (a b k : Nat) : (clmul a b).testBit k =
    (List.range (k + 1)).foldl (fun acc i => acc ^^ (a.testBit i && b.testBit (k - i))) false := by
  have hinj : ∀ x y : Bool, (if x then 1 else 0 : ZMod 2) = (if y then 1 else 0) → x = y := by decide
  apply hinj
  rw [← toPoly_coeff, toPoly_clmul, coeff_mul, foldl_xor_eq_sum,
    Finset.Nat.sum_antidiagonal_eq_sum_range_succ (fun i j => (toPoly a).coeff i * (toPoly b).coeff j)]
  refine Finset.sum_congr rfl fun i _ => ?_
  rw [toPoly_coeff, toPoly_coeff]
  cases a.testBit i <;> cases b.testBit (k - i) <;> decide

/-- A product is 0 only if a factor is. -/
theorem clmul_eq_zero_iff : clmul a b = 0 ↔ a = 0 ∨ b = 0 := by
  rw [← toPoly_eq_zero, toPoly_clmul, mul_eq_zero, toPoly_eq_zero, toPoly_eq_zero]

/-- Degrees of nonzero factors add up. -/
theorem deg_clmul (ha : a ≠ 0) (hb : b ≠ 0) : deg (clmul a b) = deg a + deg b := by
  have hab : clmul a b ≠ 0 := fun h => (clmul_eq_zero_iff.1 h).elim ha hb
  rw [deg_eq_natDegree hab, toPoly_clmul, natDegree_mul (mt toPoly_eq_zero.1 ha) (mt toPoly_eq_zero.1 hb),
    deg_eq_natDegree ha, deg_eq_natDegree hb, Nat.cast_add]

theorem clmul_comm (a b : Poly) : clmul a b = clmul b a := by
  apply toPoly_injective
  rw [toPoly_clmul, toPoly_clmul, mul_comm]

theorem clmul_assoc (a b c : Poly) : clmul (clmul a b) c = clmul a (clmul b c) := by
  apply toPoly_injective
  simp only [toPoly_clmul, mul_assoc]

theorem clmul_xor (a b c : Poly) : clmul a (b ^^^ c) = clmul a b ^^^ clmul a c := by
  apply toPoly_injective
  simp only [toPoly_clmul, toPoly_xor, mul_add]

theorem clmul_one (a : Poly) : clmul a 1 = a := by
  apply toPoly_injective
  rw [toPoly_clmul, toPoly_one, mul_one]

theorem zero_clmul (b : Poly) : clmul 0 b = 0 := clmul_eq_zero_iff.2 (.inl rfl)

/-! ### The division (R121) -/

section Divisor
variable (hb : b ≠ 0)
include hb

/-- The dividend is the product of quotient and divisor, plus the remainder. -/
theorem clmul_pdivmod_xor (a : Poly) : clmul (pdivmod a b).1 b ^^^ (pdivmod a b).2 = a := by
  apply toPoly_injective
  rw [toPoly_xor, toPoly_clmul, (pdivmod_spec a hb).1]

/-- The division is unique: its pair is Mathlib's, and that one is. -/
theorem pdivmod_unique (h : a = clmul q b ^^^ r) (hr : deg r < deg b) : pdivmod a b = (q, r) := by
  have hmonic := leadingCoeff_toPoly hb
  have ha : toPoly r + toPoly b * toPoly q = toPoly a := by
    rw [h, toPoly_xor, toPoly_clmul, add_comm, mul_comm]
  obtain ⟨hq, hm⟩ := div_modByMonic_unique (toPoly q) (toPoly r) hmonic ⟨ha, degree_lt_degree.2 hr⟩
  rw [divByMonic_eq_div _ hmonic, ← (toPoly_divmod a hb).1] at hq
  rw [modByMonic_eq_mod _ hmonic, ← (toPoly_divmod a hb).2] at hm
  exact Prod.ext (toPoly_injective hq) (toPoly_injective hm)

/-- A dividend of degree below the divisor's is its own remainder. -/
theorem pdivmod_of_deg_lt (h : deg a < deg b) : pdivmod a b = (0, a) :=
  pdivmod_unique hb (by rw [zero_clmul, Nat.zero_xor]) h

/-- The quotient's degree is the difference of the degrees; the quotient is not 0, or the dividend would be the remainder. -/
theorem deg_quotient (h : deg b ≤ deg a) : deg (pdivmod a b).1 = deg a - deg b := by
  have ha : a ≠ 0 := by
    rintro rfl
    rw [deg_zero, deg_of_ne_zero hb] at h
    omega
  have hq : (pdivmod a b).1 ≠ 0 := by
    intro h0
    have hr := clmul_pdivmod_xor hb a
    rw [h0, zero_clmul, Nat.zero_xor] at hr
    have hlt := (pdivmod_spec a hb).2
    rw [hr] at hlt
    exact absurd h (not_le.2 hlt)
  have hmonic := leadingCoeff_toPoly hb
  have hdeg : (toPoly (pdivmod a b).1).natDegree = (toPoly a).natDegree - (toPoly b).natDegree := by
    rw [(toPoly_divmod a hb).1, ← divByMonic_eq_div _ hmonic, natDegree_divByMonic _ hmonic]
  rw [deg_eq_natDegree ha, deg_eq_natDegree hb] at h ⊢
  rw [deg_eq_natDegree hq, hdeg]
  omega

/-- Neither quotient nor remainder has a degree above the dividend's. -/
theorem deg_pdivmod_le (a : Poly) : deg (pdivmod a b).1 ≤ deg a ∧ deg (pdivmod a b).2 ≤ deg a := by
  rcases lt_or_ge (deg a) (deg b) with h | h
  · rw [pdivmod_of_deg_lt hb h, deg_zero]
    exact ⟨neg_one_le_deg a, le_rfl⟩
  · have hr := (pdivmod_spec a hb).2
    rw [deg_quotient hb h]
    rw [deg_of_ne_zero hb] at hr h ⊢
    omega

end Divisor

/-- Division by 1 gives the dividend and no remainder. -/
theorem pdivmod_one (a : Poly) : pdivmod a 1 = (a, 0) :=
  pdivmod_unique one_ne_zero (by rw [clmul_one, Nat.xor_zero]) (by decide)

end Sys2Proof.Machine
end

section
/-! SUPPORT. The bit-polynomial commands (R140 to R150) in closed form: the contents a command leaves in a P register, by
bits and by degree, and the outcome of the commands that check their operands. -/

namespace Sys2Proof.Machine

variable (s : State) (d a b : PReg)

/-! ### The contents of a P register -/

/-- Bit n of P[a] as a polynomial is bit n of the register. -/
theorem State.testBit_poly (n : Nat) : (s.poly a).testBit n = (s.readP a).getLsbD n := rfl

/-- The polynomial in a P register has degree at most 255 (R21). -/
theorem State.deg_poly_lt : deg (s.poly a) < 256 := deg_lt_iff.2 (s.readP a).isLt

/-- Bits 255..0 of a polynomial are the bits of its register. -/
theorem getLsbD_toP {j : Nat} (h : j < 256) (v : Poly) : (toP v).getLsbD j = v.testBit j := by
  rw [toP, BitVec.getLsbD_ofNat, decide_eq_true h, Bool.true_and]

/-- A polynomial of degree at most 255 is written exactly. -/
theorem toNat_toP {v : Poly} (h : deg v < 256) : (toP v).toNat = v :=
  Nat.mod_eq_of_lt (deg_lt_iff.1 h)

/-- A command's write to P[d] reads back as the value written. -/
theorem State.poly_writeP_retire (v : PolyWord) : (s.writeP d v).retire.poly d = v.toNat := by
  rw [State.poly, State.readP_retire, State.readP_writeP_self]

/-- A command that writes two P registers, or one of them twice. -/
theorem succeeded_writeP_writeP (q r : PReg) (v w : PolyWord) :
    Succeeded s ((s.writeP q v).writeP r w).retire { p := [q, r] } := by
  refine ⟨rfl, rfl, fun j hj => ?_, fun _ _ => rfl, fun _ _ => rfl, fun _ _ _ => ⟨rfl, rfl⟩, fun _ => rfl, fun _ => rfl,
    rfl, rfl, rfl⟩
  simp only [List.mem_cons, List.not_mem_nil, or_false, not_or] at hj
  obtain ⟨hq, hr⟩ := hj
  rw [State.readP_retire, State.readP_writeP, if_neg (Ne.symm hr), State.readP_writeP, if_neg (Ne.symm hq)]

/-! ### The degree as a word (R126) -/

/-- The highest set bit is the degree. -/
theorem deg_eq_of_highest_bit {p : Poly} {n : Nat} (hn : p.testBit n = true) (hmax : ∀ j, n < j → p.testBit j = false) :
    deg p = (n : Int) := by
  have hp : p ≠ 0 := by
    rintro rfl
    exact absurd hn (by simp)
  have hle : p.log2 ≤ n := by
    by_contra! h
    exact absurd (Nat.testBit_log2 hp) (by simp [hmax _ h])
  have hge : ¬ deg p < (n : Int) := fun h => absurd hn (by simp [testBit_of_deg_lt h])
  rw [deg_of_ne_zero hp] at hge ⊢
  omega

/-! ### The commands that check their operands -/

variable {s a b}

/-- The product of two P registers has degree at most 255 when one is 0 or their degrees add up to at most 255. -/
theorem deg_clmul_lt {p q : Poly} (h : p = 0 ∨ q = 0 ∨ deg p + deg q ≤ 255) : deg (clmul p q) < 256 := by
  by_cases hz : p = 0 ∨ q = 0
  · rw [clmul_eq_zero_iff.2 hz]
    decide
  · obtain ⟨hp, hq⟩ := not_or.1 hz
    have hle := (h.resolve_left hp).resolve_left hq
    rw [deg_clmul hp hq]
    omega

theorem exec_clmul_of_fits (h : s.poly a = 0 ∨ s.poly b = 0 ∨ deg (s.poly a) + deg (s.poly b) ≤ 255) :
    exec (.clmul d a b) s = .next (s.writeP d (toP (clmul (s.poly a) (s.poly b)))).retire := by
  refine congrArg (complete s) (if_neg ?_)
  rintro ⟨ha, hb, hgt⟩
  exact absurd ((h.resolve_left ha).resolve_left hb) (not_le.2 hgt)

theorem exec_clmul_of_overflow (ha : s.poly a ≠ 0) (hb : s.poly b ≠ 0) (h : 255 < deg (s.poly a) + deg (s.poly b)) :
    exec (.clmul d a b) s = .next (s.errorEntry .widthOverflow) :=
  congrArg (complete s) (if_pos ⟨ha, hb, h⟩)

theorem exec_pdivmod_of_ne_zero (q r : PReg) (h : s.poly b ≠ 0) : exec (.pdivmod q r a b) s =
    .next ((s.writeP q (toP (pdivmod (s.poly a) (s.poly b)).1)).writeP r (toP (pdivmod (s.poly a) (s.poly b)).2)).retire :=
  congrArg (complete s) (if_neg h)

theorem exec_pdivmod_of_zero (q r : PReg) (h : s.poly b = 0) :
    exec (.pdivmod q r a b) s = .next (s.errorEntry .divisionByZero) :=
  congrArg (complete s) (if_pos h)

theorem exec_pmod_of_ne_zero (h : s.poly b ≠ 0) :
    exec (.pmod d a b) s = .next (s.writeP d (toP (rmod (s.poly a) (s.poly b)))).retire :=
  congrArg (complete s) (if_neg h)

theorem exec_pmod_of_zero (h : s.poly b = 0) : exec (.pmod d a b) s = .next (s.errorEntry .divisionByZero) :=
  congrArg (complete s) (if_pos h)

/-- The quotient of two P registers fits in a P register. -/
theorem toNat_toP_quotient (h : s.poly b ≠ 0) :
    (toP (pdivmod (s.poly a) (s.poly b)).1).toNat = (pdivmod (s.poly a) (s.poly b)).1 :=
  toNat_toP ((deg_pdivmod_le h (s.poly a)).1.trans_lt (s.deg_poly_lt a))

/-- The remainder of two P registers fits in a P register. -/
theorem toNat_toP_rmod (h : s.poly b ≠ 0) :
    (toP (rmod (s.poly a) (s.poly b))).toNat = rmod (s.poly a) (s.poly b) :=
  toNat_toP ((deg_pdivmod_le h (s.poly a)).2.trans_lt (s.deg_poly_lt a))

end Sys2Proof.Machine
end

section
/-! SUPPORT. The statements about the bit-polynomial commands and their arithmetic, each settled from the lemmas above. -/

namespace Sys2Proof.Machine

/-- Settles O19: the product's degree is the sum of the degrees, so it fits exactly when the check lets it pass. -/
theorem clmulWritesTheExactProduct : Obligations.ClmulWritesTheExactProduct := by
  refine fun s d a b => ⟨fun h => ?_, fun ha hb h => ?_, rfl⟩
  · refine ⟨_, exec_clmul_of_fits d h, succeeded_writeP s d _, ?_⟩
    rw [State.poly_writeP_retire, toNat_toP (deg_clmul_lt h)]
  · exact ⟨_, exec_clmul_of_overflow d ha hb h, endedWith_errorEntry s _⟩

/-- Settles O20: the degree of 0 is the sentinel −1, the degree of any other polynomial its highest set bit. -/
theorem pdegWritesTheDegree : Obligations.PdegWritesTheDegree := by
  refine fun s a => ⟨_, rfl, succeeded_writeResult s _, fun h => ?_, fun n hn hmax => ?_, rfl⟩
  · change degWord (s.poly a) = _
    rw [h]
    decide
  · change degWord (s.poly a) = _
    rw [degWord, deg_eq_of_highest_bit hn hmax, BitVec.ofInt_natCast]

/-- Settles O21: quotient and remainder have degree at most the dividend's, so both fit; the remainder is written last. -/
theorem pdivmodWritesQuotientAndRemainder : Obligations.PdivmodWritesQuotientAndRemainder := by
  refine fun s q r a b => ⟨fun h => ?_, fun h => ?_, rfl⟩
  · refine ⟨_, exec_pdivmod_of_ne_zero q r h, succeeded_writeP_writeP s q r _ _, ?_, fun hqr => ?_⟩
    · rw [State.poly_writeP_retire]
      exact toNat_toP_rmod h
    · rw [State.poly, State.readP_retire, State.readP_writeP, if_neg (Ne.symm hqr), State.readP_writeP_self,
        toNat_toP_quotient h]
  · exact ⟨_, exec_pdivmod_of_zero q r h, endedWith_errorEntry s _⟩

/-- Settles O22: the remainder fits, and its degree is below the divisor's. -/
theorem pmodWritesTheRemainder : Obligations.PmodWritesTheRemainder := by
  refine fun s d a b => ⟨fun h => ?_, fun h => ?_, rfl⟩
  · refine ⟨_, exec_pmod_of_ne_zero d h, succeeded_writeP s d _, ?_⟩
    rw [State.poly_writeP_retire, toNat_toP_rmod h]
    exact ⟨rfl, deg_rmod_lt _ h⟩
  · exact ⟨_, exec_pmod_of_zero d h, endedWith_errorEntry s _⟩

/-- Settles O23: bit j of a shifted polynomial is a bit of the source, n places lower or higher. -/
theorem shiftsMoveTheBits : Obligations.ShiftsMoveTheBits := by
  refine fun s d a n => ⟨⟨_, rfl, succeeded_writeP s d _, fun j hj => ?_⟩,
    ⟨_, rfl, succeeded_writeP s d _, fun j hj => ?_⟩, rfl, rfl⟩
  · rw [State.readP_retire, State.readP_writeP_self, getLsbD_toP hj, Nat.testBit_shiftLeft, State.testBit_poly]
  · rw [State.readP_retire, State.readP_writeP_self, getLsbD_toP hj, Nat.testBit_shiftRight, State.testBit_poly,
      Nat.add_comm]

/-- Settles O25: the shift brings the field down to bit 0, and the mask keeps the bits below len. -/
theorem pextExtractsTheField : Obligations.PextExtractsTheField := by
  refine fun s d a lo len => ⟨_, rfl, succeeded_writeP s d _, fun j hj => ?_, rfl⟩
  rw [State.readP_retire, State.readP_writeP_self, getLsbD_toP hj, Nat.testBit_and, Nat.testBit_shiftRight,
    Nat.one_shiftLeft, Nat.testBit_two_pow_sub_one, State.testBit_poly, Bool.and_comm]

/-- Settles O27, by the laws of (ZMod 2)[X]. -/
theorem clmulIsTheCarrylessProduct : Obligations.ClmulIsTheCarrylessProduct :=
  ⟨testBit_clmul, fun _ _ => deg_clmul, fun _ _ => clmul_eq_zero_iff.2, clmul_comm, clmul_assoc, clmul_xor⟩

/-- Settles O28: the pair is Mathlib's division with remainder; its uniqueness gives the special cases. -/
theorem pdivmodIsTheUniqueDivision : Obligations.PdivmodIsTheUniqueDivision :=
  fun a _ hb => ⟨(clmul_pdivmod_xor hb a).symm, (pdivmod_spec a hb).2, fun _ _ h hr => (pdivmod_unique hb h hr).symm,
    rfl, pdivmod_of_deg_lt hb, deg_quotient hb, deg_pdivmod_le hb a, fun h => h ▸ pdivmod_one a⟩

/-- Settles O17: of opcode 0 only the zero word fits, since the row's mask covers every bit. -/
theorem nopChangesNothing : Obligations.NopChangesNothing := by
  refine ⟨fun s => ⟨_, rfl, succeeded_retire s⟩, rfl, fun w hop hw => ⟨.reservedBits, ?_⟩⟩
  have hand : w &&& 0xFFFFFFFF = w := and_eq_of_allOnes rfl
  rw [decode, hop]
  exact if_neg (by rwa [hand])

/-- Settles O18: the bits of an XOR are the XORs of the bits. -/
theorem pxorWritesTheXor : Obligations.PxorWritesTheXor := by
  refine fun s d a b => ⟨_, rfl, succeeded_writeP s d _, fun n _ => ?_, rfl⟩
  rw [State.readP_retire, State.readP_writeP_self, BitVec.getLsbD_xor]

/-- Settles O24: a bit widened to 32 bits is 0 or 1. -/
theorem pbtstWritesTheBit : Obligations.PbtstWritesTheBit := by
  refine fun s a n => ⟨_, rfl, succeeded_writeResult s _, ?_, rfl⟩
  rw [State.retire_result, State.writeResult_result, State.testBit_poly]
  cases (s.readP a).getLsbD n.toNat <;> rfl

/-- Settles O26: zero extension keeps the value. -/
theorem pldiLoadsTheImmediate : Obligations.PldiLoadsTheImmediate := by
  refine fun s d imm => ⟨_, rfl, succeeded_writeP s d _, ?_, rfl⟩
  rw [State.poly_writeP_retire, BitVec.toNat_setWidth_of_le (by decide)]

end Sys2Proof.Machine
end

section
/-! SUPPORT. Field construction and release (R160 to R171): the checks in the terms of the rules' own predicates, the
states FCFG and FREL leave, and what they leave unchanged. -/

namespace Sys2Proof.Machine

open Polynomial

/-! ### The checks in the terms of IRRED and PRIMITIVE -/

/-- An irreducible polynomial of degree m has no factor in common with x^(2^i) − x for 1 ≤ i < m: it would divide it, and
m would divide i. -/
theorem isRelPrime_X_pow_sub_X {p : (ZMod 2)[X]} (hp : Irreducible p) {i : Nat} (h1 : 1 ≤ i) (h2 : i < p.natDegree) :
    IsRelPrime p (X ^ 2 ^ i - X) := by
  rw [hp.isRelPrime_iff_not_dvd]
  intro hd
  have hdvd : p.natDegree ∣ i := hp.natDegree_dvd_iff_dvd_X_pow_card_pow_sub_X.2 (by simpa using hd)
  exact absurd (Nat.le_of_dvd h1 hdvd) (not_le.2 h2)

/-- The irreducibility test decides IRRED (R160). -/
theorem irreducible_iff_irred {f : Poly} {m : Nat} (hm : 1 ≤ m) (h : deg f = (m : Int)) :
    irreducible f m = true ↔ IRRED f m := by
  obtain ⟨hd, hf⟩ := natDegree_eq_of_deg h
  refine ⟨irred_of_irreducible hf, fun hI => (irreducible_eq_true_iff hf).2 fun i h1 h2 => ?_⟩
  exact isRelPrime_X_pow_sub_X ((irred_iff hm h).1 hI) h1 (by omega)

variable {s : State} {i : Instr} {k : SlotIx}

section Checks
variable {m : Nat} {f : Poly} {e : Engine} {g : Poly}

/-- The construction checks pass under the conditions of R164 stated with IRRED and PRIMITIVE. -/
theorem constructionChecks_of_field (hk : k.val < Config.NF) (hfree : (s.slot k).valid = false) (hm : 2 ≤ m)
    (hdeg : deg f = (m : Int)) (hI : IRRED f m) (htable : e = .table → m ≤ 16 ∧ PRIMITIVE g f m) :
    constructionChecks s k m f e g = .ok () := by
  have hirr : irreducible f m = true := (irreducible_iff_irred (by omega) hdeg).2 hI
  refine constructionChecks_eq_ok.2 ⟨hk, hfree, hm, hdeg, ?_, ?_, hirr, ?_⟩
  · rintro ⟨he, hgt⟩
    exact absurd (htable he).1 (not_le.2 hgt)
  · rintro ⟨he, hge⟩
    obtain ⟨-, -, hlt, -⟩ := htable he
    exact absurd hlt (not_lt.2 hge)
  · rintro ⟨he, hnot⟩
    rw [primitive_eq_true_iff.2 (htable he).2] at hnot
    cases hnot

/-- An index at or above NF is refused before every other check (R107, R164). -/
theorem constructionChecks_illegal (hk : Config.NF ≤ k.val) :
    constructionChecks s k m f e g = .error .illegalCmd := by
  rw [constructionChecks, legalSlot, if_neg (by omega)]
  rfl

/-- For a slot index that names a slot the checks are those of R164, from SLOT_IN_USE on. -/
theorem constructionChecks_of_legal (hk : k.val < Config.NF) :
    constructionChecks s k m f e g =
      if (s.slot k).valid then .error .slotInUse
      else if m < 2 then .error .ceDegreeRange
      else if deg f ≠ m then .error .ceModulusDegree
      else if e = .table ∧ 16 < m then .error .ceTableDegree
      else if e = .table ∧ (m : Int) ≤ deg g then .error .invalidElement
      else if irreducible f m = false then .error .ceNotIrreducible
      else if e = .table ∧ primitive g f m = false then .error .ceNotPrimitive
      else .ok () := by
  rw [constructionChecks, legalSlot, if_pos hk]
  rfl
end Checks

/-! ### What the updates of slots, tables and elements leave unchanged -/

section Frames
variable {t u : State} {w : Touched}

theorem Frame.refl (s : State) : Frame s s w :=
  ⟨fun _ _ => rfl, fun _ _ => rfl, fun _ _ => rfl, fun _ _ _ => ⟨rfl, rfl⟩, fun _ => rfl, fun _ => rfl, rfl, rfl, rfl⟩

theorem Frame.trans (h : Frame s t w) (h' : Frame t u w) : Frame s u w := by
  obtain ⟨hp, he, hslot, htab, hres, hdraws, hlatch, hsched, hread⟩ := h
  obtain ⟨hp', he', hslot', htab', hres', hdraws', hlatch', hsched', hread'⟩ := h'
  exact ⟨fun j hj => (hp' j hj).trans (hp j hj), fun j hj => (he' j hj).trans (he j hj),
    fun j hj => (hslot' j hj).trans (hslot j hj),
    fun j hj n => ⟨(htab' j hj n).1.trans (htab j hj n).1, (htab' j hj n).2.trans (htab j hj n).2⟩,
    fun h => (hres' h).trans (hres h), fun h => (hdraws' h).trans (hdraws h), hlatch'.trans hlatch,
    hsched'.trans hsched, hread'.trans hread⟩

/-- A command that stays in its frame and leaves the error report succeeds when it clears BUSY (R345). -/
theorem Frame.succeeded_retire (h : Frame s u w) (hstatus : u.status = s.status) (herrcmd : u.errcmd = s.errcmd) :
    Succeeded s u.retire w :=
  ⟨by rw [State.retire_status, hstatus], herrcmd, h⟩

theorem frame_writeSlot (s : State) (v : FieldSlot) (hk : k ∈ w.slots) : Frame s (s.writeSlot k v) w := by
  have hslot : ∀ j, j ∉ w.slots → (s.writeSlot k v).slot j = s.slot j := fun j hj => by
    rw [State.slot_writeSlot, if_neg]
    rintro ⟨rfl, -⟩
    exact hj hk
  simpa [Frame] using hslot

theorem frame_writeTables (s : State) (x y : TableMem) (hk : k ∈ w.tables) : Frame s (s.writeTables k x y) w := by
  have htab : ∀ j, j ∉ w.tables →
      (s.writeTables k x y).alogOf j = s.alogOf j ∧ (s.writeTables k x y).logOf j = s.logOf j := fun j hj => by
    have hne : ¬ (k = j ∧ k.val < Config.NF) := by
      rintro ⟨rfl, -⟩
      exact hj hk
    exact ⟨by rw [State.alogOf_writeTables, if_neg hne], by rw [State.logOf_writeTables, if_neg hne]⟩
  refine ⟨?_, ?_, ?_, fun j hj n => by rw [(htab j hj).1, (htab j hj).2]; exact ⟨rfl, rfl⟩, ?_⟩ <;> simp

theorem frame_clearOwned (s : State) (k : SlotIx) (he : ∀ a, a ∈ w.e) : Frame s (s.clearOwned k) w := by
  simp [Frame, he]

theorem frame_draw (s : State) (hd : w.draws = true) : Frame s s.draw w := by
  simp [Frame, hd]
end Frames

/-! ### FCFG -/

section Construct
variable {m : BitVec 7} {f : Poly} {e : Engine} {genx : Bool} {g : Poly} {pm : PReg}

/-- A modulus of degree M ≤ 127 fits in the 128 bits of MOD (R24). -/
theorem toNat_ofNat_modulus (h : deg f = (m.toNat : Int)) : (BitVec.ofNat 128 f).toNat = f := by
  have hlt : f < 2 ^ 128 := deg_lt_iff.1 (by have := m.isLt; push_cast; omega)
  exact Nat.mod_eq_of_lt hlt

/-- A generator of degree below M ≤ 16 fits in the 16 bits of GEN (R24). -/
theorem toNat_ofNat_generator (h : deg g < (m.toNat : Int)) (hm : m.toNat ≤ 16) : (BitVec.ofNat 16 g).toNat = g := by
  have hlt : g < 2 ^ 16 := deg_lt_iff.1 (by push_cast; omega)
  exact Nat.mod_eq_of_lt hlt

/-- A construction writes its slot, for the table engine the slot's tables, and nothing else (R170). -/
theorem succeeded_constructed (s : State) (k : SlotIx) (m : BitVec 7) (f : Poly) (genx : Bool) (g : Poly)
    {tables : List SlotIx} (htab : e = .table → k ∈ tables) :
    Succeeded s (s.constructed k m f e genx g).retire { slots := [k], tables := tables } := by
  have htables : Frame s (if e = .table then s.writeTables k (buildAlog g f m.toNat) (buildLog g f m.toNat) else s)
      { slots := [k], tables := tables } := by
    split
    · exact frame_writeTables s _ _ (htab ‹_›)
    · exact Frame.refl s
  refine (htables.trans (frame_writeSlot _ _ (List.mem_singleton_self k))).succeeded_retire ?_ ?_
  · cases e <;> simp
  · cases e <;> simp

/-- FCFG whose checks pass constructs the field (R170). -/
theorem exec_fcfg_of_checks (ho : fcfgOperands s i = some (k, m, pm, e, genx, g))
    (hc : constructionChecks s k m.toNat (s.poly pm) e g = .ok ()) :
    exec i s = .next (s.constructed k m (s.poly pm) e genx g).retire := by
  rw [exec_fcfg ho, construct_of_checks hc]
  rfl

/-- FCFG one of whose checks fails ends with that check's error (R164, R305). -/
theorem exec_fcfg_of_error (ho : fcfgOperands s i = some (k, m, pm, e, genx, g)) {c : Err}
    (hc : constructionChecks s k m.toNat (s.poly pm) e g = .error c) :
    ∃ t, exec i s = .next t ∧ EndedWith c s t := by
  refine ⟨s.errorEntry c, ?_, endedWith_errorEntry s c⟩
  rw [exec_fcfg ho, construct_of_error hc]
  rfl

/-- Slot k holds what R170 writes after a construction. -/
theorem State.slot_constructed_self (hk : k.val < Config.NF) :
    (s.constructed k m f e genx g).retire.slot k = constructedSlot m f e genx g := by
  rw [State.slot_retire, State.slot_constructed, if_pos ⟨rfl, hk⟩]

/-- The modulus of the constructed field is the one given (R170). -/
theorem State.modulus_constructed (hk : k.val < Config.NF) (hdeg : deg f = (m.toNat : Int)) :
    (s.constructed k m f e genx g).retire.modulus k = f := by
  rw [State.modulus, State.slot_constructed_self hk]
  exact toNat_ofNat_modulus hdeg

/-- The tables of a constructed table field are those of R162. -/
theorem tablesHold_constructed (hc : constructionChecks s k m.toNat f .table g = .ok ()) :
    TablesHold (s.constructed k m f .table genx g).retire k := by
  obtain ⟨hk, -⟩ := constructionChecks_eq_ok.1 hc
  have hslot : (s.constructed k m f .table genx g).retire.slot k = constructedSlot m f .table genx g :=
    State.slot_constructed_self hk
  have hinv := slotInv_congr (State.slot_retire _ k) (State.alogOf_retire _ k) (State.logOf_retire _ k)
    (slotInv_constructed (e := .table) (genx := genx) nofun hc)
  obtain ⟨-, -, -, -, -, htable⟩ := hinv (by rw [hslot]; rfl)
  obtain ⟨-, -, htables⟩ := htable (by rw [hslot]; rfl)
  exact htables
end Construct

/-! ### FREL -/

/-- A release writes its slot, the slot's tables, element registers and the counter of draws, and nothing else (R171). -/
theorem succeeded_released (s : State) (k : SlotIx) :
    Succeeded s (s.released k).retire { e := List.finRange 16, slots := [k], tables := [k], draws := true } := by
  have hslot : Frame s ((s.clearOwned k).writeSlot k (freedSlot s.draws))
      { e := List.finRange 16, slots := [k], tables := [k], draws := true } :=
    (frame_clearOwned s k List.mem_finRange).trans (frame_writeSlot _ _ (List.mem_singleton_self k))
  have htables := hslot.trans (frame_writeTables _ [] [] (List.mem_singleton_self k))
  refine (htables.trans (frame_draw _ rfl)).succeeded_retire ?_ ?_
  · simp
  · simp

/-- FREL of a slot that holds a field releases it (R171). -/
theorem exec_frel_of_holds (h : Holds s k) : exec (.frel k) s = .next (s.released k).retire := by
  rw [exec, execFrel, State.validSlot_of_holds h]
  rfl

/-- FREL of any other slot index ends with the error of the slot check. -/
theorem exec_frel_of_error {c : Err} (h : s.validSlot k = .error c) :
    ∃ t, exec (.frel k) s = .next t ∧ EndedWith c s t := by
  refine ⟨s.errorEntry c, ?_, endedWith_errorEntry s c⟩
  rw [exec, execFrel, h]
  rfl

end Sys2Proof.Machine
end

section
/-! SUPPORT. The statements about field construction and release, each settled from the lemmas above. -/

namespace Sys2Proof.Machine

/-- Settles O29: the test looks for a common factor with x^(2^i) − x for i = 1..⌊M/2⌋, which is the product of all
irreducible polynomials of a degree that divides i. -/
theorem irreducibilityTestDecidesIrred : Obligations.IrreducibilityTestDecidesIrred :=
  fun _ _ hm hdeg => irreducible_iff_irred (by omega) hdeg

/-- Settles O30: the powers the test compares with 1 are those of the rule. -/
theorem primitivityTestDecidesPrimitive : Obligations.PrimitivityTestDecidesPrimitive :=
  fun _ _ _ => primitive_eq_true_iff

/-- Settles O31: the checks pass, and the Euclidean engine's construction writes the slot only. -/
theorem fcfgConstructsAEuclideanField : Obligations.FcfgConstructsAEuclideanField := by
  intro s k m pm hk hfree hm hdeg hI
  have hc : constructionChecks s k m.toNat (s.poly pm) .euclidean 0 = .ok () :=
    constructionChecks_of_field hk hfree hm hdeg hI nofun
  refine ⟨_, exec_fcfg_of_checks rfl hc, succeeded_constructed s k m _ false 0 nofun, ?_⟩
  rw [State.modulus_constructed hk hdeg, State.slot_constructed_self hk]
  exact ⟨rfl, rfl, rfl, rfl, rfl, rfl⟩

/-- Settles O32: the checks pass, and the tables built from a primitive generator are those of R162. -/
theorem fcfgConstructsATableField : Obligations.FcfgConstructsATableField := by
  intro s i k m pm genx g ho hk hfree hm hdeg hMT hg hI hprim
  have hc : constructionChecks s k m.toNat (s.poly pm) .table g = .ok () :=
    constructionChecks_of_field hk hfree hm hdeg hI (fun _ => ⟨hMT, hprim⟩)
  refine ⟨_, exec_fcfg_of_checks ho hc, succeeded_constructed s k m _ genx g (fun _ => List.mem_singleton_self k), ?_⟩
  rw [State.modulus_constructed hk hdeg, State.slot_constructed_self hk]
  exact ⟨rfl, rfl, rfl, rfl, rfl, toNat_ofNat_generator hg hMT, tablesHold_constructed hc⟩

/-- Settles O33: the checks are passed one after the other, and the first that fails gives the error. -/
theorem fcfgReportsTheFirstFailingCheck : Obligations.FcfgReportsTheFirstFailingCheck := by
  intro s i k m pm e genx g ho
  have report : ∀ c, constructionChecks s k m.toNat (s.poly pm) e g = .error c →
      ∃ t, exec i s = .next t ∧ EndedWith c s t := fun _ hc => exec_fcfg_of_error ho hc
  refine ⟨fun hk => report _ (constructionChecks_illegal hk), fun hk => ?_⟩
  rw [constructionChecks_of_legal hk] at report
  refine ⟨fun h => report _ (if_pos h), fun hfree => ?_⟩
  rw [if_neg (by simp [hfree])] at report
  refine ⟨fun h => report _ (if_pos h), fun hm => ?_⟩
  rw [if_neg (not_lt.2 hm)] at report
  refine ⟨fun h => report _ (if_pos h), fun hdeg => ?_⟩
  rw [if_neg (not_not.2 hdeg)] at report
  refine ⟨fun h => report _ (if_pos h), fun hMT => ?_⟩
  rw [if_neg hMT] at report
  refine ⟨fun h => report _ (if_pos h), fun hg => ?_⟩
  rw [if_neg hg] at report
  have hirr : irreducible (s.poly pm) m.toNat = false ↔ ¬ IRRED (s.poly pm) m.toNat := by
    rw [← Bool.not_eq_true, irreducible_iff_irred (by omega) hdeg]
  refine ⟨fun h => report _ (if_pos (hirr.2 h)), fun hI he hprim => ?_⟩
  rw [if_neg fun h => hirr.1 h hI] at report
  exact report _ (if_pos ⟨he, by rwa [← Bool.not_eq_true, primitive_eq_true_iff]⟩)

/-- Settles O34: the slot is freed and an element register changes only when the slot owns it; otherwise the slot check
gives the error. -/
theorem frelFreesTheSlotAndItsElements : Obligations.FrelFreesTheSlotAndItsElements := by
  intro s k
  refine ⟨fun h => ⟨_, exec_frel_of_holds h, succeeded_released s k, ?_, fun a hw ho => ?_, fun a ha => ?_⟩,
    fun hk hfree => exec_frel_of_error (State.validSlot_invalid hk hfree),
    fun hk => exec_frel_of_error (State.validSlot_illegal hk)⟩
  · rw [State.slot_retire, State.slot_released, if_pos ⟨rfl, h.1⟩]
    rfl
  · rw [Written, State.readE_retire, State.readE_released, if_pos ⟨hw, ho⟩]
    exact Bool.false_ne_true
  · rw [State.readE_retire, State.readE_released]
    exact if_neg ha

end Sys2Proof.Machine
end

section
/-! SUPPORT. The field product of R230 obeys the ring laws, the loop of R231 ends with the inverse, and the powers of a
primitive generator repeat with period N. -/

namespace Sys2Proof.Machine

variable {f g a b c v w : Poly} {m : Nat}

/-! ### The product modulo f (R230) -/

theorem eeaMul_comm (f a b : Poly) : eeaMul f a b = eeaMul f b a := by
  rw [eeaMul, clmul_comm, eeaMul]

theorem eeaMul_one (h : deg a < deg f) : eeaMul f a 1 = a := by
  rw [eeaMul, clmul_one, rmod_of_deg_lt h]

section Modulus
variable (hf : f ≠ 0)
include hf

/-- A factor may be reduced before the product is. -/
theorem rmod_clmul_rmod (a b : Poly) : rmod (clmul (rmod a f) b) f = rmod (clmul a b) f := by
  rw [rmod_eq_rmod_iff hf, toPoly_clmul, toPoly_clmul, ← sub_mul]
  exact (dvd_rmod_sub a hf).mul_right _

theorem eeaMul_assoc (a b c : Poly) : eeaMul f (eeaMul f a b) c = eeaMul f a (eeaMul f b c) := by
  rw [eeaMul_comm f a (eeaMul f b c)]
  simp only [eeaMul, rmod_clmul_rmod hf]
  rw [clmul_assoc, clmul_comm a]

/-- Division by b is product with an inverse v of b: where w · b is a, a · v is w. -/
theorem eeaMul_inverse_of_eeaMul_eq (hv : eeaMul f v b = 1) (hw : deg w < deg f) (h : eeaMul f w b = a) :
    eeaMul f a v = w := by
  rw [← h, eeaMul_assoc hf, eeaMul_comm f b, hv, eeaMul_one hw]

end Modulus

/-- A nonzero factor cancels: an irreducible modulus that divides a · (b − c) divides b − c. -/
theorem eeaMul_left_cancel (hI : Irreducible (toPoly f)) (ha : a ≠ 0) (had : deg a < deg f) (hb : deg b < deg f)
    (hc : deg c < deg f) (h : eeaMul f a b = eeaMul f a c) : b = c := by
  have hf : f ≠ 0 := mt toPoly_eq_zero.2 hI.ne_zero
  rw [eeaMul, eeaMul, rmod_eq_rmod_iff hf, toPoly_clmul, toPoly_clmul, ← mul_sub] at h
  have hdvd := (hI.prime.dvd_or_dvd h).resolve_left (not_dvd_of_deg_lt ha had)
  rwa [← rmod_eq_rmod_iff hf, rmod_of_deg_lt hb, rmod_of_deg_lt hc] at hdvd

/-! ### The extended Euclidean loop (R231) -/

/-- What the loop keeps: each of the two remainders is the product of its cofactor with a modulo f, they have no common
factor, and the current one is not 0. -/
structure BezoutInv (f a rPrev sPrev rCur sCur : Poly) : Prop where
  ne_zero : rCur ≠ 0
  coprime : IsCoprime (toPoly rPrev) (toPoly rCur)
  prev : toPoly f ∣ toPoly rPrev - toPoly sPrev * toPoly a
  cur : toPoly f ∣ toPoly rCur - toPoly sCur * toPoly a

/-- The loop starts from f ≡ 0 · a and a ≡ 1 · a; an irreducible f has no factor in common with a. -/
theorem bezoutInv_start (hI : Irreducible (toPoly f)) (ha : a ≠ 0) (had : deg a < deg f) : BezoutInv f a f 0 a 1 where
  ne_zero := ha
  coprime := hI.coprime_iff_not_dvd.2 (not_dvd_of_deg_lt ha had)
  prev := by rw [toPoly_zero, zero_mul, sub_zero]
  cur := by rw [toPoly_one, one_mul, sub_self]; exact dvd_zero _

section Loop
variable {rPrev sPrev rCur sCur : Poly} (h : BezoutInv f a rPrev sPrev rCur sCur)
include h

/-- A division with remainder 0 would make the current remainder a common factor, so it occurs only when that is 1. -/
theorem BezoutInv.remainder_ne_zero (hdeg : 0 < deg rCur) : (pdivmod rPrev rCur).2 ≠ 0 := by
  intro h0
  have hunit := h.coprime.isUnit_of_dvd' ((rmod_eq_zero_iff h.ne_zero).1 h0) dvd_rfl
  have hnat := Polynomial.natDegree_eq_zero_of_isUnit hunit
  rw [deg_eq_natDegree h.ne_zero, hnat] at hdeg
  exact hdeg.false

/-- A round subtracts a multiple of the current remainder from the previous one, and the same multiple of its cofactor. -/
theorem BezoutInv.next (hr : (pdivmod rPrev rCur).2 ≠ 0) : BezoutInv f a rCur sCur (pdivmod rPrev rCur).2
    (sPrev ^^^ clmul (pdivmod rPrev rCur).1 sCur) := by
  have hdiv := (pdivmod_spec rPrev h.ne_zero).1
  refine ⟨hr, ?_, h.cur, ?_⟩
  · have hco := h.coprime.symm
    rwa [← hdiv, IsCoprime.mul_add_right_right_iff] at hco
  · have hdvd := dvd_sub h.prev (h.cur.mul_left (toPoly (pdivmod rPrev rCur).1))
    rw [← hdiv] at hdvd
    rw [toPoly_xor, toPoly_clmul, ← CharTwo.sub_eq_add]
    convert hdvd using 1
    ring

/-- When the current remainder is constant it is 1, and its cofactor is the inverse. -/
theorem BezoutInv.eeaMul_eq_one (hf : 0 < deg f) (hdeg : deg rCur ≤ 0) : eeaMul f (rmod sCur f) a = 1 := by
  have hf0 : f ≠ 0 := by rintro rfl; exact absurd hf (by decide)
  have hlt : rCur < 2 := deg_lt_iff (n := 1) |>.1 (Int.lt_add_one_of_le hdeg)
  have hone : rCur = 1 := Nat.le_antisymm (Nat.le_of_lt_succ hlt) (Nat.pos_of_ne_zero h.ne_zero)
  have hcur := h.cur
  rw [hone, ← toPoly_clmul, ← rmod_eq_rmod_iff hf0, rmod_of_deg_lt (a := 1) hf] at hcur
  rw [eeaMul, rmod_clmul_rmod hf0, ← hcur]

end Loop

/-- The loop ends without INTERNAL_INVARIANT, because the current remainder's degree falls at every round. -/
theorem eeaLoop_spec (hf : 0 < deg f) : ∀ {n : Nat} {rPrev sPrev rCur sCur : Poly},
    BezoutInv f a rPrev sPrev rCur sCur → deg rCur < (n : Int) →
      ∃ v, eeaLoop f n rPrev sPrev rCur sCur = .ok v ∧ eeaMul f v a = 1 := by
  intro n
  induction n with
  | zero => exact fun h hn => ⟨_, rfl, h.eeaMul_eq_one hf hn.le⟩
  | succ n ih =>
    intro rPrev sPrev rCur sCur h hn
    rw [eeaLoop]
    split
    · next hdeg =>
      have hr := h.remainder_ne_zero hdeg
      have hlt : deg (pdivmod rPrev rCur).2 < deg rCur := deg_rmod_lt rPrev h.ne_zero
      simp only [if_neg hr]
      exact ih (h.next hr) (by omega)
    · next hdeg => exact ⟨_, rfl, h.eeaMul_eq_one hf (not_lt.1 hdeg)⟩

section Field
variable (hm : 1 ≤ m) (hdeg : deg f = (m : Int)) (hI : Irreducible (toPoly f))
include hm hdeg hI

/-- EEA_INV of a nonzero element is its inverse (R231). -/
theorem eeaInv_spec (ha : a ≠ 0) (had : deg a < (m : Int)) :
    ∃ v, eeaInv f a = .ok v ∧ deg v < (m : Int) ∧ eeaMul f v a = 1 := by
  have hw := width_eq a
  obtain ⟨v, hv, hinv⟩ := eeaLoop_spec (by omega) (bezoutInv_start hI ha (hdeg ▸ had)) (n := width a) (by omega)
  obtain ⟨x, rfl⟩ := eeaLoop_eq_rmod hv
  exact ⟨_, hv, hdeg ▸ deg_rmod_lt x (natDegree_eq_of_deg hdeg).2, hinv⟩

/-- EEA_DIV of a by a nonzero b is the element whose product with b is a (R232). -/
theorem eeaDiv_eq_ok (hb : b ≠ 0) (hbd : deg b < (m : Int)) (hw : deg w < (m : Int)) (h : eeaMul f w b = a) :
    eeaDiv f a b = .ok w := by
  obtain ⟨v, hv, -, hinv⟩ := eeaInv_spec hm hdeg hI hb hbd
  rw [eeaDiv, hv, ← eeaMul_inverse_of_eeaMul_eq (natDegree_eq_of_deg hdeg).2 hinv (hdeg ▸ hw) h]
  rfl

/-- EEA_INV of a nonzero a is the element whose product with a is 1 (R231). -/
theorem eeaInv_eq_ok (ha : a ≠ 0) (had : deg a < (m : Int)) (hw : deg w < (m : Int)) (h : eeaMul f w a = 1) :
    eeaInv f a = .ok w := by
  obtain ⟨v, hv, hvd, hinv⟩ := eeaInv_spec hm hdeg hI ha had
  rw [hv, ← eeaMul_inverse_of_eeaMul_eq (natDegree_eq_of_deg hdeg).2 hinv (hdeg ▸ hw) h, eeaMul_comm,
    eeaMul_one (hdeg ▸ hvd)]

end Field

/-! ### The powers of a generator (R161) -/

section Powers
variable (hm : 1 ≤ m) (hdeg : deg f = (m : Int))
include hm hdeg

/-- Exponents add up. -/
theorem genPow_add (i j : Nat) : genPow g f (i + j) = eeaMul f (genPow g f i) (genPow g f j) := by
  induction j with
  | zero => exact (eeaMul_one (hdeg ▸ deg_genPow_lt g hm hdeg i)).symm
  | succ j ih =>
    calc genPow g f (i + j + 1) = eeaMul f (genPow g f (i + j)) g := rfl
      _ = eeaMul f (genPow g f i) (eeaMul f (genPow g f j) g) := by
        rw [ih, eeaMul_assoc (natDegree_eq_of_deg hdeg).2]

/-- The N-th power of a primitive element is 1: it is the j-th for some j below N, so the (N − j)-th is 1, and no power
between the 0-th and the N-th is. -/
theorem genPow_groupOrder (hI : Irreducible (toPoly f)) (hp : PRIMITIVE g f m) : genPow g f (groupOrder m) = 1 := by
  have ⟨hg0, hgd, hord⟩ := hp
  have hlt : ∀ i, deg (genPow g f i) < deg f := fun i => hdeg ▸ deg_genPow_lt g hm hdeg i
  have hne : ∀ i, genPow g f i ≠ 0 := genPow_ne_zero hdeg hI hg0 hgd
  obtain ⟨j, hj, he⟩ := exists_genPow hm hdeg hI hp (Nat.one_le_iff_ne_zero.2 (hne (groupOrder m)))
    (Nat.le_sub_one_of_lt (deg_lt_iff.1 (deg_genPow_lt g hm hdeg _)))
  have hone : genPow g f (groupOrder m - j) = genPow g f 0 := by
    apply eeaMul_left_cancel hI (hne j) (hlt j) (hlt _) (hlt 0)
    rw [← genPow_add hm hdeg, ← genPow_add hm hdeg, Nat.add_sub_cancel' hj.le, Nat.add_zero, he]
  obtain rfl : j = 0 := by
    by_contra h0
    exact hord _ (by omega) (by omega) hone
  exact hone

/-- The powers of a primitive element repeat with period N. -/
theorem genPow_mod (hI : Irreducible (toPoly f)) (hp : PRIMITIVE g f m) (i : Nat) :
    genPow g f (i % groupOrder m) = genPow g f i := by
  have hperiod : Function.Periodic (genPow g f) (groupOrder m) := fun i => by
    rw [genPow_add hm hdeg, genPow_groupOrder hm hdeg hI hp, eeaMul_one (hdeg ▸ deg_genPow_lt g hm hdeg i)]
  exact hperiod.map_mod_nat i

end Powers

end Sys2Proof.Machine
end

section
/-! SUPPORT. In a table slot that meets the field-slot invariant, ALOG turns the sum of exponents into the field product,
and so the table engine computes the products, quotients and inverses of R230 to R232. -/

namespace Sys2Proof.Machine

variable {s : State} {k : SlotIx}

/-- The operands that are not 0 are the indices 1..N of the log table. -/
theorem le_orderOf {a : Poly} (ha : a ≠ 0) (had : deg a < (s.degreeOf k : Int)) : 1 ≤ a ∧ a ≤ s.orderOf k :=
  ⟨Nat.one_le_iff_ne_zero.2 ha, Nat.le_sub_one_of_lt (deg_lt_iff.1 had)⟩

/-- An exponent that is an integer remainder (R203) adds up modulo n like the integer itself. -/
theorem toNat_emod_add_mod {n : Nat} (hn : 0 < n) {z : Int} {l j : Nat} (h : z + l = j + n) :
    ((z % (n : Int)).toNat + l) % n = j % n := by
  have hz := Int.emod_nonneg z (Int.natCast_ne_zero.2 hn.ne')
  zify
  rw [Int.toNat_of_nonneg hz, Int.emod_add_emod, h, Int.add_emod_right]

section TableSlot
variable (h : SlotInv s k) (hk : Holds s k)
include h hk

/-- The modulus is irreducible (R26, R160). -/
theorem SlotInv.irreducible_modulus : Irreducible (toPoly (s.modulus k)) := by
  obtain ⟨hdeg, hm⟩ := h.deg_modulus hk
  obtain ⟨-, -, -, hirr, -⟩ := h hk.2
  exact (irred_iff hm hdeg).1 hirr

variable (he : (s.slot k).eng = .table)
include he

/-- The generator of a table slot is primitive (R26, R161). -/
theorem SlotInv.primitive_gen : PRIMITIVE (s.slot k).gen.toNat (s.modulus k) (s.degreeOf k) := by
  obtain ⟨-, -, -, -, -, htable⟩ := h hk.2
  obtain ⟨-, hprim, -⟩ := htable he
  exact hprim

/-- ALOG[0] is 1 (R26). -/
theorem SlotInv.readAlog_zero : (s.readAlog k 0).toNat = 1 := h.readAlog_toNat hk he (h.orderOf_pos hk)

/-- The antilogs of a table slot have degree below M. -/
theorem SlotInv.deg_readAlog_lt {i : Nat} (hi : i < s.orderOf k) :
    deg (s.readAlog k i).toNat < (s.degreeOf k : Int) :=
  deg_lt_iff.2 (h.readAlog_lt hk he hi)

/-- ALOG[i] · v = ALOG[(i + LOG[v]) mod N]. -/
theorem SlotInv.eeaMul_readAlog {i : Nat} (hi : i < s.orderOf k) {v : Poly} (h1 : 1 ≤ v) (h2 : v ≤ s.orderOf k) :
    eeaMul (s.modulus k) (s.readAlog k i).toNat v =
      (s.readAlog k ((i + (s.readLog k v).toNat) % s.orderOf k)).toNat := by
  obtain ⟨hdeg, hm⟩ := h.deg_modulus hk
  obtain ⟨-, hpow⟩ := h.readLog_spec hk he h1 h2
  rw [h.readAlog_toNat hk he hi, h.readAlog_toNat hk he (Nat.mod_lt _ (h.orderOf_pos hk))]
  rw [State.orderOf, ← State.degreeOf, genPow_mod hm hdeg (h.irreducible_modulus hk) (h.primitive_gen hk he),
    genPow_add hm hdeg, hpow]

/-- The table engine's product is the field product (R200, R230). -/
theorem SlotInv.tblMul_eq {a b : Poly} (ha : deg a < (s.degreeOf k : Int)) (hb : deg b < (s.degreeOf k : Int)) :
    tblMul s k a b = eeaMul (s.modulus k) a b := by
  have hf := (natDegree_eq_of_deg (h.deg_modulus hk).1).2
  rw [tblMul]
  split
  · next h0 => rw [eeaMul, clmul_eq_zero_iff.2 h0, (rmod_eq_zero_iff hf).2 (toPoly_zero ▸ dvd_zero _)]
  · next h0 =>
    obtain ⟨ha0, hb0⟩ := not_or.1 h0
    obtain ⟨ha1, ha2⟩ := le_orderOf ha0 ha
    obtain ⟨hb1, hb2⟩ := le_orderOf hb0 hb
    obtain ⟨hlog, -⟩ := h.readLog_spec hk he ha1 ha2
    rw [← h.eeaMul_readAlog hk he hlog hb1 hb2, h.readAlog_readLog hk he ha1 ha2]

/-- The table engine's quotient times the divisor is the dividend (R201). -/
theorem SlotInv.eeaMul_tblDiv {a b : Poly} (ha : deg a < (s.degreeOf k : Int)) (hb0 : b ≠ 0)
    (hb : deg b < (s.degreeOf k : Int)) :
    deg (tblDiv s k a b) < (s.degreeOf k : Int) ∧ eeaMul (s.modulus k) (tblDiv s k a b) b = a := by
  have hN := h.orderOf_pos hk
  rw [tblDiv]
  split
  · next h0 =>
    subst h0
    exact ⟨ha, by rw [← h.tblMul_eq hk he ha hb, tblMul, if_pos (.inl rfl)]⟩
  · next ha0 =>
    obtain ⟨ha1, ha2⟩ := le_orderOf ha0 ha
    obtain ⟨hb1, hb2⟩ := le_orderOf hb0 hb
    obtain ⟨hlog, -⟩ := h.readLog_spec hk he ha1 ha2
    have hexp := toNat_emod_lt hN (((s.readLog k a).toNat : Int) - (s.readLog k b).toNat + s.orderOf k)
    refine ⟨h.deg_readAlog_lt hk he hexp, ?_⟩
    rw [h.eeaMul_readAlog hk he hexp hb1 hb2, toNat_emod_add_mod (j := (s.readLog k a).toNat) hN (by omega),
      Nat.mod_eq_of_lt hlog, h.readAlog_readLog hk he ha1 ha2]

/-- The table engine's inverse times the operand is 1 (R202). -/
theorem SlotInv.eeaMul_tblInv {a : Poly} (ha0 : a ≠ 0) (ha : deg a < (s.degreeOf k : Int)) :
    deg (tblInv s k a) < (s.degreeOf k : Int) ∧ eeaMul (s.modulus k) (tblInv s k a) a = 1 := by
  have hN := h.orderOf_pos hk
  obtain ⟨ha1, ha2⟩ := le_orderOf ha0 ha
  have hexp := toNat_emod_lt hN ((s.orderOf k : Int) - (s.readLog k a).toNat)
  rw [tblInv]
  refine ⟨h.deg_readAlog_lt hk he hexp, ?_⟩
  rw [h.eeaMul_readAlog hk he hexp ha1 ha2, toNat_emod_add_mod (j := 0) hN (by omega), Nat.zero_mod,
    h.readAlog_zero hk he]

end TableSlot

end Sys2Proof.Machine
end

section
/-! SUPPORT. The table reads that end with an error (R210, R211). -/

namespace Sys2Proof.Machine

variable {s : State} {i : Instr} {k : SlotIx} {x : BitVec 16}

/-- A slot that fails the checks the table reads share gives its error. -/
theorem exec_tableRead_of_error {c : Err} (h : s.tableSlot k = .error c) (hi : i = .tlog k x ∨ i = .talog k x) :
    ∃ t, exec i s = .next t ∧ EndedWith c s t := by
  refine ⟨s.errorEntry c, ?_, endedWith_errorEntry s c⟩
  obtain rfl | rfl := hi
  · rw [exec, execTlog, h]
    rfl
  · rw [exec, execTalog, h]
    rfl

section TableSlot
variable (hk : Holds s k) (he : (s.slot k).eng = .table)
include hk he

/-- TLOG of 0, or of an index above N, ends with BAD_INDEX (R210). -/
theorem exec_tlog_of_badIndex (hx : x.toNat = 0 ∨ s.orderOf k < x.toNat) :
    ∃ t, exec (.tlog k x) s = .next t ∧ EndedWith .badIndex s t := by
  refine ⟨s.errorEntry .badIndex, ?_, endedWith_errorEntry s .badIndex⟩
  simp only [exec, execTlog, State.tableSlot_of_table hk he]
  change complete s (if x.toNat = 0 ∨ x.toNat > s.orderOf k then _ else _) = _
  rw [if_pos hx]
  rfl

/-- TALOG of an index of N or more ends with BAD_INDEX (R211). -/
theorem exec_talog_of_badIndex (hx : s.orderOf k ≤ x.toNat) :
    ∃ t, exec (.talog k x) s = .next t ∧ EndedWith .badIndex s t := by
  refine ⟨s.errorEntry .badIndex, ?_, endedWith_errorEntry s .badIndex⟩
  simp only [exec, execTalog, State.tableSlot_of_table hk he]
  change complete s (if x.toNat ≥ s.orderOf k then _ else _) = _
  rw [if_pos hx]
  rfl

end TableSlot

/-- RESULT holds a table entry zero-extended (R210, R211). -/
theorem State.result_writeResult_entry (s : State) (y : Entry) :
    (s.writeResult (y.setWidth 32)).retire.result.toNat = y.toNat :=
  BitVec.toNat_setWidth_of_le (by decide)

end Sys2Proof.Machine
end

section
/-! SUPPORT. The statements about the table engine and the table reads, each settled from the lemmas above. -/

namespace Sys2Proof.Machine

/-- Settles O47: on every operand both engines give the one element of the field that the product, the quotient and the
inverse are. -/
theorem enginesAgree : Obligations.EnginesAgree := by
  intro s k h hvalid he a b ha hb
  have hk : Holds s k := holds_iff_valid.2 hvalid
  obtain ⟨hdeg, hm⟩ := h.deg_modulus hk
  have hI := h.irreducible_modulus hk
  refine ⟨h.tblMul_eq hk he ha hb, fun hb0 => ?_, fun ha0 => ?_⟩
  · obtain ⟨hlt, hdiv⟩ := h.eeaMul_tblDiv hk he ha hb0 hb
    exact eeaDiv_eq_ok hm hdeg hI hb0 hb hlt hdiv
  · obtain ⟨hlt, hinv⟩ := h.eeaMul_tblInv hk he ha0 ha
    exact eeaInv_eq_ok hm hdeg hI ha0 ha hlt hinv

/-- Settles O35: a read within the table gives its entry, which the two tables' being inverse makes 0 for the log of 1;
otherwise the first check that fails gives the error. -/
theorem tableReadsAndTheirErrors : Obligations.TableReadsAndTheirErrors := by
  intro s k x
  refine ⟨fun hk he h1 h2 => ⟨_, exec_tlog_of_table hk he h1 h2, succeeded_writeResult _ _, fun y hy => ?_⟩,
    fun hk he hx => ⟨_, exec_talog_of_table hk he hx, succeeded_writeResult _ _, fun y hy => ?_⟩,
    fun i hi => ⟨fun hNF => ?_, fun hNF hfree => ?_, fun hk he => ?_⟩,
    exec_tlog_of_badIndex, exec_talog_of_badIndex, fun h hk he => ?_⟩
  · rw [State.result_writeResult_entry, State.readLog, hy, Option.getD_some]
  · rw [State.result_writeResult_entry, State.readAlog, hy, Option.getD_some]
  · exact exec_tableRead_of_error (State.tableSlot_of_error (State.validSlot_illegal hNF)) hi
  · exact exec_tableRead_of_error (State.tableSlot_of_error (State.validSlot_invalid hNF hfree)) hi
  · exact exec_tableRead_of_error (State.tableSlot_of_euclidean hk he) hi
  · have hN := h.orderOf_pos hk
    have hone := h.readAlog_zero hk he
    obtain ⟨-, -, hlog⟩ := h.readLog_readAlog hk he hN
    rw [hone] at hlog
    exact ⟨⟨_, exec_tlog_of_table hk he le_rfl hN, succeeded_writeResult _ _,
        BitVec.eq_of_toNat_eq ((State.result_writeResult_entry s _).trans hlog)⟩,
      ⟨_, exec_talog_of_table hk he hN, succeeded_writeResult _ _,
        BitVec.eq_of_toNat_eq ((State.result_writeResult_entry s _).trans hone)⟩⟩

end Sys2Proof.Machine
end

section
/-! SUPPORT. INTERNAL_INVARIANT cannot occur (R234): the engines end every quotient and inverse of field elements, so from
a state of the data invariant no command reports it, and FATAL has no other source (R307). -/

namespace Sys2Proof.Machine

variable {s t u : State} {i : Instr} {k : SlotIx}

/-! ### The engines end without an error in a slot that meets the invariant -/

section FieldOps
variable (h : SlotInv s k) (hk : Holds s k) {a b : Poly}
include h hk

/-- INV_k of a nonzero element ends with a value, by either engine (R202, R231). -/
theorem SlotInv.exists_fieldInv_eq_ok (ha : a ≠ 0) (had : deg a < (s.degreeOf k : Int)) :
    ∃ v, fieldInv s k a = .ok v := by
  rw [fieldInv]
  split
  case h_1 => exact ⟨_, rfl⟩
  case h_2 =>
    obtain ⟨hdeg, hm⟩ := h.deg_modulus hk
    obtain ⟨v, hv, -⟩ := eeaInv_spec hm hdeg (h.irreducible_modulus hk) ha had
    exact ⟨v, hv⟩

/-- DIV_k by a nonzero element ends with a value, by either engine (R201, R232). -/
theorem SlotInv.exists_fieldDiv_eq_ok (hb : b ≠ 0) (hbd : deg b < (s.degreeOf k : Int)) :
    ∃ v, fieldDiv s k a b = .ok v := by
  rw [fieldDiv]
  split
  case h_1 => exact ⟨_, rfl⟩
  case h_2 =>
    obtain ⟨hdeg, hm⟩ := h.deg_modulus hk
    obtain ⟨v, hv, -⟩ := eeaInv_spec hm hdeg (h.irreducible_modulus hk) hb hbd
    exact ⟨_, by rw [eeaDiv, hv]; rfl⟩

end FieldOps

/-- No engine reports an error on the elements of a state of the data invariant. -/
theorem DataInv.not_engineError (h : DataInv s) (c : Err) : ¬ EngineError s i c := by
  obtain ⟨hslot, helem⟩ := h
  rintro (⟨_, a, b, -, ha, hb, hf, hb0, herr⟩ | ⟨_, a, -, ha, ha0, herr⟩)
  · obtain ⟨hk, -⟩ := helem a ha
    obtain ⟨-, hbd⟩ := helem b hb
    rw [State.degreeOf, ← hf.1] at hbd
    obtain ⟨v, hv⟩ := (hslot _).exists_fieldDiv_eq_ok hk (a := s.valOf a) hb0 hbd
    rw [hv] at herr
    cases herr
  · obtain ⟨hk, had⟩ := helem a ha
    obtain ⟨v, hv⟩ := (hslot _).exists_fieldInv_eq_ok hk ha0 had
    rw [hv] at herr
    cases herr

/-! ### What each part of a step does to FATAL -/

/-- The effect of a command leaves STATUS; the end of the command clears its BUSY. -/
theorem Effect.status_eq (h : Effect s i u) : u.status = s.status := by
  cases h with
  | construct i k m pm e genx g => cases e <;> simp
  | release k => simp
  | _ => rfl

/-- Error entry with an error other than INTERNAL_INVARIANT leaves FATAL (R305). -/
theorem State.fatal_errorEntry {c : Err} (hc : c ≠ .internalInvariant) :
    (s.errorEntry c).status.fatal = s.status.fatal := by
  rw [State.errorEntry_status, Status.report_fatal, decide_eq_false hc, Bool.or_false]

/-- ERRCLR leaves FATAL (R308). -/
@[simp] theorem State.fatal_errclr : s.errclr.status.fatal = s.status.fatal := by
  rw [State.errclr]
  split <;> rfl

/-- A write of the host port leaves FATAL, unless it resets the block, which clears it. -/
theorem State.fatal_portWrite {v : Word} {r : MapReg} (hf : (s.portWrite v r).status.fatal = true) :
    s.status.fatal = true := by
  rcases s.portWrite_cases v r with e | ⟨_, _, _, e⟩ | ⟨_, _, e⟩ | ⟨_, _, _, _, e⟩ | ⟨_, _, e⟩ | ⟨_, _, e⟩ <;>
    rw [e] at hf
  case inr.inr.inr.inr.inl => rwa [State.fatal_errclr] at hf
  case inr.inr.inr.inr.inr => cases hf
  all_goals exact hf

section FromDataInv
variable (h : DataInv s)
include h

/-- A command leaves FATAL, whether it succeeds or reports an error. -/
theorem DataInv.fatal_exec (he : exec i s = .next t) : t.status.fatal = s.status.fatal := by
  rcases exec_cases he with ⟨u, hu, rfl⟩ | ⟨c, rfl, hc⟩
  · rw [State.retire_status, hu.status_eq]
  · exact State.fatal_errorEntry fun hci => h.not_engineError c (hc hci)

/-- The core's turn leaves FATAL. -/
theorem DataInv.fatal_coreTurn (hc : coreTurn s = .next t) : t.status.fatal = s.status.fatal := by
  rcases coreTurn_eq_next hc with ⟨_, rfl⟩ | ⟨_, ⟨_, _, rfl⟩ | ⟨i, _, he⟩⟩
  · rfl
  · exact State.fatal_errorEntry (by decide)
  · exact h.fatal_exec he

/-- A step leaves FATAL or, when it resets the block, clears it. -/
theorem DataInv.fatal_of_step (hs : step s = .next t) (hf : t.status.fatal = true) : s.status.fatal = true := by
  have hsched : ∀ rest, DataInv { s with schedule := rest } :=
    fun rest => dataInv_of_sameData (sameData_schedule s rest) h
  rcases step_eq_next hs with ⟨_, hs⟩ | ⟨rest, _, hs⟩ | ⟨_, _, rfl⟩ | ⟨_, _, _, _, hs⟩ | ⟨_, _, _, rest, _, hs⟩
  · rwa [h.fatal_coreTurn hs] at hf
  · rwa [(hsched rest).fatal_coreTurn hs] at hf
  · cases hf
  · obtain ⟨_, rfl⟩ := hostRead_eq_next hs
    exact hf
  · obtain ⟨_, rfl⟩ := hostWrite_eq_next hs
    exact State.fatal_portWrite (s := { s with schedule := rest }) hf

end FromDataInv

end Sys2Proof.Machine
end

section
/-! SUPPORT. The statements about the Euclidean engine and INTERNAL_INVARIANT, each settled from the lemmas above. -/

namespace Sys2Proof.Machine

/-- Settles O49: the Bezout invariant of the loop gives the inverse, and an irreducible modulus leaves no zero remainder
before the current one is 1. -/
theorem euclideanInverseIsTheInverse : Obligations.EuclideanInverseIsTheInverse := by
  intro f m a hm hdeg hirr ha had
  have hm1 : 1 ≤ m := by omega
  exact eeaInv_spec hm1 hdeg ((irred_iff hm1 hdeg).1 hirr) ha had

/-- Settles O56: only an engine reports INTERNAL_INVARIANT, and on the elements of irreducible fields none does. -/
theorem noStepSetsFatal : Obligations.NoStepSetsFatal :=
  fun _ _ => DataInv.fatal_of_step

end Sys2Proof.Machine
end

section
/-! SUPPORT. The element commands (R260 to R268) in closed form: what a command leaves in an element register, and how it
ends after its operand checks. -/

namespace Sys2Proof.Machine

variable {s : State} {i : Instr} {k : SlotIx} {d a b : EReg}

/-! ### The contents of an element register -/

section WriteE
variable (s : State) (d : EReg) (x : ElemReg)

/-- A command's write to E[d] reads back as the element written. -/
theorem State.readE_writeE_retire : (s.writeE d x).retire.readE d = x := by
  rw [State.readE_retire, State.readE_writeE_self]

theorem written_writeE_retire : Written (s.writeE d x).retire d ↔ x.wr = true := by
  rw [Written, State.readE_writeE_retire]

theorem State.ownerOf_writeE_retire : (s.writeE d x).retire.ownerOf d = x.fs := by
  rw [State.ownerOf, State.readE_writeE_retire]

theorem State.valOf_writeE_retire : (s.writeE d x).retire.valOf d = x.val.toNat := by
  rw [State.valOf, State.readE_writeE_retire]

end WriteE

/-- An element of a field is held exactly: M ≤ 127 bits fit in VAL (R22, R23). -/
theorem toNat_val_mkElem {v : Poly} (hv : deg v < (s.degreeOf k : Int)) : (mkElem k v).val.toNat = v := by
  have hm : s.degreeOf k < 2 ^ 7 := (s.slot k).m.isLt
  have hlt : v < 2 ^ 127 := deg_lt_iff.1 (by push_cast; omega)
  exact Nat.mod_eq_of_lt hlt

/-- A command that ends with a write of an element of slot k's field (R252). -/
theorem writes_element_of_mkElem {v : Poly} (hi : exec i s = .next (s.writeE d (mkElem k v)).retire)
    (hv : deg v < (s.degreeOf k : Int)) :
    ∃ t, exec i s = .next t ∧ Succeeded s t { e := [d] } ∧ Written t d ∧ t.ownerOf d = k ∧ t.valOf d = v :=
  ⟨_, hi, succeeded_writeE s d _, (written_writeE_retire s d _).2 rfl, State.ownerOf_writeE_retire s d _,
    (State.valOf_writeE_retire s d _).trans (toNat_val_mkElem hv)⟩

/-! ### How a command ends after its operand checks -/

/-- A command whose first check is passed goes on with what the check answers. -/
theorem complete_bind_of_ok {α : Type} {x : Except Err α} {y : α} (h : x = .ok y) (f : α → Except Err State) :
    complete s (x >>= f) = complete s (f y) := by
  rw [h]
  rfl

/-- A command whose first check fails ends with that check's error (R302, R305). -/
theorem endedWith_of_bind_error {α : Type} {x : Except Err α} {f : α → Except Err State} {c : Err}
    (hi : exec i s = complete s (x >>= f)) (h : x = .error c) : ∃ t, exec i s = .next t ∧ EndedWith c s t := by
  refine ⟨s.errorEntry c, ?_, endedWith_errorEntry s c⟩
  rw [hi, h]
  rfl

/-- A command that ends in error entry ended with that error. -/
theorem endedWith_of_errorEntry {c : Err} (h : exec i s = .next (s.errorEntry c)) :
    ∃ t, exec i s = .next t ∧ EndedWith c s t :=
  ⟨_, h, endedWith_errorEntry s c⟩

/-! ### ELEM, EVAL and ENEG -/

section Elem
variable {p : PReg} (hk : Holds s k)
include hk

theorem exec_elem_of_deg_lt (h : deg (s.poly p) < (s.degreeOf k : Int)) :
    exec (.elem d p k) s = .next (s.writeE d (mkElem k (s.poly p))).retire :=
  (complete_bind_of_ok (State.validSlot_of_holds hk) _).trans (congrArg (complete s) (if_neg (not_le.2 h)))

theorem exec_elem_of_le_deg (h : (s.degreeOf k : Int) ≤ deg (s.poly p)) :
    exec (.elem d p k) s = .next (s.errorEntry .invalidElement) :=
  (complete_bind_of_ok (State.validSlot_of_holds hk) _).trans (congrArg (complete s) (if_pos h))

end Elem

theorem exec_eval_of_written (p : PReg) (ha : Written s a) :
    exec (.eval p a) s = .next (s.writeP p ((s.readE a).val.setWidth 256)).retire :=
  complete_bind_of_ok (State.element_of_written ha) _

theorem exec_eneg_of_written (d : EReg) (ha : Written s a) :
    exec (.eneg d a) s = .next (s.writeE d (s.readE a)).retire :=
  complete_bind_of_ok (State.element_of_written ha) _

/-! ### The commands with two operands -/

/-- The check of both operands comes first in every command of the element arithmetic (R253). -/
theorem exec_arithmetic_of_error {c : Err} (hi : i ∈ [Instr.eadd d a b, .esub d a b, .emul d a b, .ediv d a b])
    (h : s.elementPair a b = .error c) : ∃ t, exec i s = .next t ∧ EndedWith c s t := by
  simp only [List.mem_cons, List.not_mem_nil, or_false] at hi
  obtain rfl | rfl | rfl | rfl := hi <;> exact endedWith_of_bind_error rfl h

section Pair
variable (d) (ha : Written s a) (hb : Written s b)
include ha hb

/-- EEQ has no check of the fields: it compares them (R268). -/
theorem exec_eeq_of_written :
    exec (.eeq a b) s = .next (s.writeResult
      (if s.sameField (s.ownerOf a) (s.ownerOf b) ∧ (s.readE a).val = (s.readE b).val then 1 else 0)).retire :=
  (complete_bind_of_ok (State.element_of_written ha) _).trans (complete_bind_of_ok (State.element_of_written hb) _)

variable (hf : SameField s (s.ownerOf a) (s.ownerOf b))
include hf

/-- EADD and ESUB differ in their opcode only (R262, R263). -/
theorem exec_add_of_sameField (hi : i = .eadd d a b ∨ i = .esub d a b) :
    exec i s = .next (s.writeE d (addElem (s.readE a) (s.readE b))).retire := by
  have hpair := State.elementPair_ok ha hb hf
  obtain rfl | rfl := hi <;> exact complete_bind_of_ok hpair _

theorem exec_emul_of_sameField : exec (.emul d a b) s =
    .next (s.writeE d (mkElem (s.ownerOf a) (fieldMul s (s.ownerOf a) (s.valOf a) (s.valOf b)))).retire :=
  complete_bind_of_ok (State.elementPair_ok ha hb hf) _

theorem exec_ediv_of_zero (h0 : s.valOf b = 0) : exec (.ediv d a b) s = .next (s.errorEntry .divisionByZero) :=
  (complete_bind_of_ok (State.elementPair_ok ha hb hf) _).trans
    (congrArg (complete s) (if_pos (valOf_eq_zero.1 h0)))

theorem exec_ediv_of_fieldDiv {v : Poly} (h0 : s.valOf b ≠ 0)
    (hv : fieldDiv s (s.ownerOf a) (s.valOf a) (s.valOf b) = .ok v) :
    exec (.ediv d a b) s = .next (s.writeE d (mkElem (s.ownerOf a) v)).retire :=
  (complete_bind_of_ok (State.elementPair_ok ha hb hf) _).trans
    ((congrArg (complete s) (if_neg (mt valOf_eq_zero.2 h0))).trans (complete_bind_of_ok hv _))

end Pair

/-! ### EINV -/

theorem exec_einv_of_zero (d : EReg) (ha : Written s a) (h0 : s.valOf a = 0) :
    exec (.einv d a) s = .next (s.errorEntry .divisionByZero) :=
  (complete_bind_of_ok (State.element_of_written ha) _).trans (congrArg (complete s) (if_pos (valOf_eq_zero.1 h0)))

theorem exec_einv_of_fieldInv (d : EReg) {v : Poly} (ha : Written s a) (h0 : s.valOf a ≠ 0)
    (hv : fieldInv s (s.ownerOf a) (s.valOf a) = .ok v) :
    exec (.einv d a) s = .next (s.writeE d (mkElem (s.ownerOf a) v)).retire :=
  (complete_bind_of_ok (State.element_of_written ha) _).trans
    ((congrArg (complete s) (if_neg (mt valOf_eq_zero.2 h0))).trans (complete_bind_of_ok hv _))

end Sys2Proof.Machine
end

section
/-! SUPPORT. The laws of the field product that R269 adds to those above, what the table engine reads for a product, and
the operations of a field by either engine: in a slot that meets its invariant they are those of R230 to R232. -/

namespace Sys2Proof.Machine

/-! ### The product modulo f (R230, R269) -/

section Product
variable {f a b : Poly} {m : Nat}

/-- Remainders add up. -/
theorem rmod_xor (hf : f ≠ 0) (a b : Poly) : rmod (a ^^^ b) f = rmod a f ^^^ rmod b f := by
  apply toPoly_injective
  simp only [toPoly_xor, (toPoly_divmod _ hf).2]
  exact Polynomial.add_mod _ _ _

theorem eeaMul_xor (hf : f ≠ 0) (a b c : Poly) : eeaMul f a (b ^^^ c) = eeaMul f a b ^^^ eeaMul f a c := by
  rw [eeaMul, clmul_xor, rmod_xor hf, eeaMul, eeaMul]

/-- EEA_DIV of a by b, the product of a with the inverse of b, is the element whose product with b is a (R232). -/
theorem eeaDiv_spec (hm : 1 ≤ m) (hdeg : deg f = (m : Int)) (hI : Irreducible (toPoly f)) (had : deg a < (m : Int))
    (hb : b ≠ 0) (hbd : deg b < (m : Int)) :
    ∃ v, eeaDiv f a b = .ok v ∧ deg v < (m : Int) ∧ eeaMul f v b = a := by
  have hf := (natDegree_eq_of_deg hdeg).2
  obtain ⟨w, hw, -, hinv⟩ := eeaInv_spec hm hdeg hI hb hbd
  refine ⟨eeaMul f a w, by rw [eeaDiv, hw]; rfl, hdeg ▸ deg_rmod_lt _ hf, ?_⟩
  rw [eeaMul_assoc hf, hinv, eeaMul_one (hdeg ▸ had)]

end Product

variable {s : State} {k : SlotIx} {a b : Poly}

/-! ### The engine of the slot (R250) -/

theorem fieldMul_of_euclidean (he : (s.slot k).eng = .euclidean) (a b : Poly) :
    fieldMul s k a b = rmod (clmul a b) (s.modulus k) := by
  simp only [fieldMul, he, eeaMul]

theorem fieldMul_of_table (he : (s.slot k).eng = .table) (a b : Poly) : fieldMul s k a b = tblMul s k a b := by
  simp only [fieldMul, he]

/-- The table engine's product of nonzero operands is the antilog of the sum of their logs, where the tables hold these
entries (R200). -/
theorem tblMul_of_lookup {x y z : Entry} (ha : a ≠ 0) (hb : b ≠ 0) (hx : (s.logOf k).lookup a = some x)
    (hy : (s.logOf k).lookup b = some y) (hz : (s.alogOf k).lookup ((x.toNat + y.toNat) % s.orderOf k) = some z) :
    tblMul s k a b = z.toNat := by
  have hlog : s.readLog k a = x ∧ s.readLog k b = y := by
    rw [State.readLog, State.readLog, hx, hy]
    exact ⟨rfl, rfl⟩
  rw [tblMul, if_neg (not_or.2 ⟨ha, hb⟩), hlog.1, hlog.2, State.readAlog, hz]
  rfl

section FieldOps
variable (h : SlotInv s k) (hk : Holds s k)
include h hk

/-- Either engine's product is that of R230 (R204). -/
theorem SlotInv.fieldMul_eq (ha : deg a < (s.degreeOf k : Int)) (hb : deg b < (s.degreeOf k : Int)) :
    fieldMul s k a b = eeaMul (s.modulus k) a b := by
  cases he : (s.slot k).eng with
  | euclidean => exact fieldMul_of_euclidean he a b
  | table => exact (fieldMul_of_table he a b).trans (h.tblMul_eq hk he ha hb)

/-- Either engine divides by a nonzero element: the quotient times the divisor is the dividend (R201, R232). -/
theorem SlotInv.fieldDiv_spec (ha : deg a < (s.degreeOf k : Int)) (hb0 : b ≠ 0) (hb : deg b < (s.degreeOf k : Int)) :
    ∃ v, fieldDiv s k a b = .ok v ∧ deg v < (s.degreeOf k : Int) ∧ eeaMul (s.modulus k) v b = a := by
  cases he : (s.slot k).eng with
  | euclidean =>
    obtain ⟨hdeg, hm⟩ := h.deg_modulus hk
    simp only [fieldDiv, he]
    exact eeaDiv_spec hm hdeg (h.irreducible_modulus hk) ha hb0 hb
  | table =>
    simp only [fieldDiv, he]
    exact ⟨_, rfl, h.eeaMul_tblDiv hk he ha hb0 hb⟩

/-- Either engine inverts a nonzero element: the inverse times the element is 1 (R202, R231). -/
theorem SlotInv.fieldInv_spec (ha0 : a ≠ 0) (ha : deg a < (s.degreeOf k : Int)) :
    ∃ v, fieldInv s k a = .ok v ∧ deg v < (s.degreeOf k : Int) ∧ eeaMul (s.modulus k) v a = 1 := by
  cases he : (s.slot k).eng with
  | euclidean =>
    obtain ⟨hdeg, hm⟩ := h.deg_modulus hk
    simp only [fieldInv, he]
    exact eeaInv_spec hm hdeg (h.irreducible_modulus hk) ha0 ha
  | table =>
    simp only [fieldInv, he]
    exact ⟨_, rfl, h.eeaMul_tblInv hk he ha0 ha⟩

end FieldOps

/-! ### Elements of the first operand's field -/

/-- The value of an element has degree below M of every slot that holds the same field (R23, R27). -/
theorem DataInv.deg_valOf_lt (h : DataInv s) {e : EReg} (he : Written s e) (hf : SameField s k (s.ownerOf e)) :
    deg (s.valOf e) < (s.degreeOf k : Int) := by
  obtain ⟨-, hlt⟩ := h.2 e he
  rwa [State.degreeOf, ← hf.1] at hlt

end Sys2Proof.Machine
end

section
/-! SUPPORT. The statements about the element commands and the field arithmetic, each settled from the lemmas above. -/

namespace Sys2Proof.Machine

/-- Settles O37: the slot check, then the degree over all bits of P[a]; a value that passes fits in VAL. -/
theorem elemConstructsAnElement : Obligations.ElemConstructsAnElement :=
  fun _ _ _ _ => ⟨fun hk hd => writes_element_of_mkElem (exec_elem_of_deg_lt hk hd) hd,
    fun hk hd => endedWith_of_errorEntry (exec_elem_of_le_deg hk hd),
    fun hNF hfree => endedWith_of_bind_error rfl (State.validSlot_invalid hNF hfree),
    fun hNF => endedWith_of_bind_error rfl (State.validSlot_illegal hNF), rfl⟩

/-- Settles O39: the two commands have one meaning, and the operand check gives both errors. -/
theorem eaddAndEsubWriteTheXor : Obligations.EaddAndEsubWriteTheXor := by
  refine fun s d a b => ⟨fun i hi => ?_, rfl, rfl⟩
  have hmem : i ∈ [Instr.eadd d a b, .esub d a b, .emul d a b, .ediv d a b] := by
    obtain rfl | rfl := hi <;> simp
  refine ⟨fun ha hb hf => ?_, fun hw => exec_arithmetic_of_error hmem (State.elementPair_uninit hw),
    fun ha hb hf => exec_arithmetic_of_error hmem (State.elementPair_mismatch ha hb hf)⟩
  refine ⟨_, exec_add_of_sameField d ha hb hf hi, succeeded_writeE s d _, (written_writeE_retire s d _).2 rfl,
    State.ownerOf_writeE_retire s d _, ?_⟩
  rw [State.valOf_writeE_retire, addElem, BitVec.toNat_xor, State.valOf, State.valOf]

/-- Settles O41: RESULT is the comparison of fields and values; the operands are checked one after the other. -/
theorem eeqComparesFieldAndValue : Obligations.EeqComparesFieldAndValue := by
  refine fun s a b => ⟨fun ha hb => ?_, fun hw => ?_, rfl⟩
  · have hiff : s.sameField (s.ownerOf a) (s.ownerOf b) = true ∧ (s.readE a).val = (s.readE b).val ↔
        SameField s (s.ownerOf a) (s.ownerOf b) ∧ s.valOf a = s.valOf b :=
      and_congr State.sameField_iff BitVec.toNat_inj.symm
    exact ⟨_, exec_eeq_of_written ha hb, succeeded_writeResult s _, fun h => if_pos (hiff.2 h),
      fun h => if_neg (mt hiff.1 h)⟩
  · by_cases ha : Written s a
    · exact endedWith_of_bind_error (complete_bind_of_ok (State.element_of_written ha) _)
        (State.element_of_unwritten fun hb => hw ⟨ha, hb⟩)
    · exact endedWith_of_bind_error rfl (State.element_of_unwritten ha)

/-- Settles O42: each check is reached only when those before it are passed. -/
theorem elementChecksInOrder : Obligations.ElementChecksInOrder :=
  fun _ d _ _ => ⟨fun _ hi => ⟨fun hw => exec_arithmetic_of_error hi (State.elementPair_uninit hw),
      fun ha hb hf => exec_arithmetic_of_error hi (State.elementPair_mismatch ha hb hf)⟩,
    fun ha hb hf h0 => endedWith_of_errorEntry (exec_ediv_of_zero d ha hb hf h0),
    fun ha => endedWith_of_bind_error rfl (State.element_of_unwritten ha),
    fun ha h0 => endedWith_of_errorEntry (exec_einv_of_zero d ha h0)⟩

/-- Settles O43: the value written is the product by the engine of the slot, cut to the 127 bits of VAL, which a table
entry of 16 bits fits. -/
theorem emulByTheOwnersEngine : Obligations.EmulByTheOwnersEngine := by
  intro s d a b ha hb hf
  refine ⟨_, exec_emul_of_sameField d ha hb hf, succeeded_writeE s d _, (written_writeE_retire s d _).2 rfl,
    State.ownerOf_writeE_retire s d _, fun he => ?_, fun he h0 => ?_, fun x y z he ha0 hb0 hx hy hz => ?_⟩
  · rw [State.readE_writeE_retire, fieldMul_of_euclidean he, mkElem]
  · rw [State.valOf_writeE_retire, fieldMul_of_table he, tblMul, if_pos h0]
    rfl
  · rw [State.valOf_writeE_retire, fieldMul_of_table he, tblMul_of_lookup ha0 hb0 hx hy hz]
    exact Nat.mod_eq_of_lt (z.isLt.trans (by decide))

/-- Settles O44: both operands are elements of the owner's field, whose engine computes the product. -/
theorem emulComputesTheFieldProduct : Obligations.EmulComputesTheFieldProduct := by
  intro s d a b h ha hb hf
  obtain ⟨hk, had⟩ := h.2 a ha
  have hmul := (h.1 _).fieldMul_eq hk had (h.deg_valOf_lt hb hf)
  have hlt := deg_lt_iff.2 (fieldMul_lt (h.1 _) hk (s.valOf a) (s.valOf b))
  rw [← eeaMul, ← hmul]
  exact writes_element_of_mkElem (exec_emul_of_sameField d ha hb hf) hlt

/-- Settles O45: the engine of the owner's slot computes the inverse, which fits in VAL. -/
theorem einvComputesTheInverse : Obligations.EinvComputesTheInverse := by
  intro s d a h ha h0
  obtain ⟨hk, had⟩ := h.2 a ha
  obtain ⟨v, hv, hlt, hinv⟩ := (h.1 _).fieldInv_spec hk h0 had
  obtain ⟨t, ht, hs, hw, ho, rfl⟩ := writes_element_of_mkElem (exec_einv_of_fieldInv d ha h0 hv) hlt
  exact ⟨t, ht, hs, hw, ho, hlt, (eeaMul_comm _ _ _).trans hinv⟩

/-- Settles O46: the engine of the first operand's slot computes the quotient, which fits in VAL. -/
theorem edivComputesTheQuotient : Obligations.EdivComputesTheQuotient := by
  intro s d a b h ha hb hf h0
  obtain ⟨hk, had⟩ := h.2 a ha
  obtain ⟨v, hv, hlt, hdiv⟩ := (h.1 _).fieldDiv_spec hk had h0 (h.deg_valOf_lt hb hf)
  obtain ⟨t, ht, hs, hw, ho, rfl⟩ := writes_element_of_mkElem (exec_ediv_of_fieldDiv d ha hb hf h0 hv) hlt
  exact ⟨t, ht, hs, hw, ho, hlt, hdiv⟩

/-- Settles O48: the laws of the carry-less product pass to the remainders by f. -/
theorem fieldProductLaws : Obligations.FieldProductLaws := by
  intro f m _ hdeg a b c
  have hf := (natDegree_eq_of_deg hdeg).2
  exact ⟨eeaMul_comm f a b, eeaMul_assoc hf a b c, eeaMul_xor hf a b c, fun ha => eeaMul_one (hdeg ▸ ha),
    hdeg ▸ deg_rmod_lt _ hf⟩

/-- Settles O38: 127 bits widened to 256 keep their value. -/
theorem evalReadsTheElement : Obligations.EvalReadsTheElement := by
  refine fun s p a => ⟨fun ha => ?_, fun ha => endedWith_of_bind_error rfl (State.element_of_unwritten ha), rfl⟩
  refine ⟨_, exec_eval_of_written p ha, succeeded_writeP s p _, ?_⟩
  rw [State.poly_writeP_retire]
  exact BitVec.toNat_setWidth_of_le (by decide)

/-- Settles O40: the register is copied whole, its owner included. -/
theorem enegCopiesTheElement : Obligations.EnegCopiesTheElement :=
  fun s d _ => ⟨fun ha => ⟨_, exec_eneg_of_written d ha, succeeded_writeE s d _, State.readE_writeE_retire s d _⟩,
    fun ha => endedWith_of_bind_error rfl (State.element_of_unwritten ha), rfl⟩

end Sys2Proof.Machine
end

section
/-! SUPPORT. What a command that succeeds may write (R302, R345), and what a step of the block can do to the error report
(R305 to R309): keep it, enter an error, clear it, or reset it. -/

namespace Sys2Proof.Machine

variable {s t u : State} {i : Instr}

/-! ### An effect stays within the Writes line of its command -/

/-- FCFG may write its slot and, for the table engine, the slot's tables (R170). -/
theorem touchedBy_of_fcfgOperands {k : SlotIx} {m : BitVec 7} {pm : PReg} {e : Engine} {genx : Bool} {g : Poly}
    (ho : fcfgOperands s i = some (k, m, pm, e, genx, g)) :
    touchedBy i = { slots := [k], tables := if e = .table then [k] else [] } := by
  cases i <;> simp only [fcfgOperands, Option.some.injEq, Prod.mk.injEq, reduceCtorEq] at ho
  all_goals
    obtain ⟨rfl, -, -, rfl, -⟩ := ho
    rfl

/-- Each effect, with BUSY cleared, is a success of its command (R345). -/
theorem Effect.succeeded (h : Effect s i u) : Succeeded s u.retire (touchedBy i) := by
  cases h with
  | nothing => exact succeeded_retire s
  | writeP _ d v hw => rw [hw]; exact succeeded_writeP s d v
  | divmod q r _ _ v w => exact succeeded_writeP_writeP s q r v w
  | writeResult _ v hw => rw [hw]; exact succeeded_writeResult s v
  | construct _ k m pm e genx g ho =>
    rw [touchedBy_of_fcfgOperands ho]
    exact succeeded_constructed s k m (s.poly pm) genx g fun he => by simp [he]
  | release k => exact succeeded_released s k
  | add _ d _ _ hi => rcases hi with rfl | rfl <;> exact succeeded_writeE s d _
  | elem d | neg d | mul d | div d | inv d => exact succeeded_writeE s d _

/-! ### What a step can do to the error report -/

/-- The next event resets the block: the reset input, or a write of CTRL with SRST = 1 (R31, R340). -/
def Resets (s : State) : Prop :=
  (∃ rest, s.schedule = .resetInput :: rest) ∨ ∃ v rest, s.schedule = .write 0x010 4 v :: rest ∧ v.getLsbD 1 = true

/-- What a step from s to t can do to STATUS and ERRCMD. -/
inductive ReportStep (s t : State) : Prop where
  /-- The report stays; BUSY may fall, and rises only by an issue outside the error state (R66). -/
  | kept (busy ovr : Bool) (hbusy : busy = true → s.status.busy = true ∨ s.status.inErrorState = false)
      (hst : t.status = { s.status with busy := busy, ovr := ovr }) (hcmd : t.errcmd = s.errcmd)
  /-- Error entry (R305). -/
  | entered (c : Err) (hst : t.status = s.status.report c s.cmdLatch) (hcmd : t.errcmd = s.cmdLatch)
  /-- ERRCLR with BUSY = 0 (R308). -/
  | cleared (hidle : s.status.busy = false) (hst : t.status = s.status.errclr) (hcmd : t.errcmd = 0)
  /-- A reset of the block (R340). -/
  | reset (hevent : Resets s) (hst : t.status = Status.reset) (hcmd : t.errcmd = 0)

/-- With BUSY = 0 the core's turn holds the state (R325). -/
theorem eq_of_coreTurn_of_idle (hidle : s.status.busy = false) (h : coreTurn s = .next t) : t = s := by
  rcases coreTurn_eq_next h with ⟨-, rfl⟩ | ⟨hbusy, -⟩
  · rfl
  · simp [hidle] at hbusy

/-- The core's turn leaves BUSY = 0, and keeps the rest of the report or enters an error (R345). -/
theorem coreTurn_report_cases (h : coreTurn s = .next t) :
    (t.status = { s.status with busy := false } ∧ t.errcmd = s.errcmd) ∨ ∃ c, t = s.errorEntry c := by
  rcases coreTurn_eq_next h with ⟨hidle, rfl⟩ | ⟨-, ⟨-, -, rfl⟩ | ⟨i, -, hi⟩⟩
  · exact .inl ⟨by rw [← hidle], rfl⟩
  · exact .inr ⟨.illegalCmd, rfl⟩
  · rcases exec_cases hi with ⟨u, hu, rfl⟩ | ⟨c, rfl, -⟩
    · obtain ⟨hst, hcmd, -⟩ := hu.succeeded
      exact .inl ⟨hst, hcmd⟩
    · exact .inr ⟨c, rfl⟩

/-- A write of the host port keeps the report, clears it by ERRCLR, or resets it by SRST. -/
theorem State.portWrite_reportStep {l : List PortEvent} {v : Word} {r : MapReg}
    (hsrst : r = .ctrl → v.getLsbD 1 = true → Resets s) :
    ReportStep s (State.portWrite { s with schedule := l } v r) := by
  rcases State.portWrite_cases { s with schedule := l } v r with
    e | ⟨-, -, he, e⟩ | ⟨-, -, e⟩ | ⟨_, _, -, -, e⟩ | ⟨-, -, e⟩ | ⟨hr, h1, e⟩ <;> rw [e]
  case inl => exact .kept s.status.busy s.status.ovr .inl rfl rfl
  case inr.inl => exact .kept true s.status.ovr (fun _ => .inr he) rfl rfl
  case inr.inr.inl => exact .kept s.status.busy true .inl rfl rfl
  case inr.inr.inr.inl => exact .kept s.status.busy s.status.ovr .inl rfl rfl
  case inr.inr.inr.inr.inl =>
    rw [State.errclr]
    split
    case isTrue => exact .kept s.status.busy s.status.ovr .inl rfl rfl
    case isFalse hidle => exact .cleared (by simpa using hidle) rfl rfl
  case inr.inr.inr.inr.inr => exact .reset (hsrst hr h1) rfl rfl

/-- What a step does to the error report. -/
theorem step_reportStep (h : step s = .next t) : ReportStep s t := by
  have core : ∀ l, coreTurn { s with schedule := l } = .next t → ReportStep s t := fun l h => by
    rcases coreTurn_report_cases h with ⟨hst, hcmd⟩ | ⟨c, rfl⟩
    · exact .kept false s.status.ovr nofun hst hcmd
    · exact .entered c rfl rfl
  rcases step_eq_next h with
    ⟨-, h⟩ | ⟨rest, -, h⟩ | ⟨rest, hs, rfl⟩ | ⟨_, _, rest, -, h⟩ | ⟨off, n, v, rest, hs, h⟩
  · exact core s.schedule h
  · exact core rest h
  · exact .reset (.inl ⟨rest, hs⟩) rfl rfl
  · obtain ⟨-, rfl⟩ := hostRead_eq_next h
    exact .kept s.status.busy s.status.ovr .inl rfl rfl
  · obtain ⟨hlegal, rfl⟩ := hostWrite_eq_next h
    obtain ⟨rfl, -⟩ := legalAccess_iff.1 hlegal
    exact State.portWrite_reportStep fun hr h1 => .inr ⟨v, rest, by rw [hs, mapReg_eq_ctrl hr], h1⟩

/-- Every step keeps the agreement of the report with ERR. -/
theorem ReportStep.reportInv (h : ReportStep s t) (hs : ReportInv s) : ReportInv t := by
  cases h with
  | kept _ _ _ hst hcmd => rw [ReportInv, hst, hcmd]; exact hs
  | entered c hst hcmd => rw [ReportInv, hst, hcmd]; exact ⟨nofun, fun _ => ⟨⟨c, rfl⟩, rfl⟩⟩
  | cleared _ hst hcmd => rw [ReportInv, hst, hcmd]; exact ⟨fun _ => ⟨rfl, rfl, rfl⟩, nofun⟩
  | reset _ hst hcmd => rw [ReportInv, hst, hcmd]; exact ⟨fun _ => ⟨rfl, rfl, rfl⟩, nofun⟩

/-- A step that leaves a command in flight keeps ERR and FATAL; the command was in flight before, or the step issued it
outside the error state. -/
theorem ReportStep.of_busy (h : ReportStep s t) (ht : t.status.busy = true) :
    t.status.err = s.status.err ∧ t.status.fatal = s.status.fatal ∧
      (s.status.busy = true ∨ s.status.inErrorState = false) := by
  cases h with
  | kept busy ovr hbusy hst => rw [hst] at ht ⊢; exact ⟨rfl, rfl, hbusy ht⟩
  | entered c hst => simp [hst] at ht
  | cleared hidle hst => simp [hst, hidle] at ht
  | reset _ hst => rw [hst] at ht; cases ht

/-- Every step keeps that no command is in flight in the error state. -/
theorem ReportStep.protocolInv (h : ReportStep s t) (hs : ProtocolInv s) : ProtocolInv t := by
  intro ht
  obtain ⟨herr, hfatal, hb | he⟩ := h.of_busy ht
  · rw [herr, hfatal]
    exact hs hb
  · rw [herr, hfatal]
    exact Bool.or_eq_false_iff.1 he

/-- A step that clears FATAL resets the block (R307). -/
theorem ReportStep.resets_of_fatal (h : ReportStep s t) (hs : s.status.fatal = true) (ht : t.status.fatal = false) :
    Resets s := by
  cases h with
  | reset hevent => exact hevent
  | kept _ _ _ hst | entered _ hst | cleared _ hst => simp [hst, hs] at ht

/-! ### In the error state (R306) -/

section ErrorState
variable (hidle : s.status.busy = false) (he : s.status.inErrorState = true)
include hidle he

/-- In the error state only CTRL and the P window take a write. -/
theorem State.portWrite_of_inErrorState {v : Word} {r : MapReg} (hctrl : r ≠ .ctrl) (hwin : ∀ n j, r ≠ .pword n j) :
    s.portWrite v r = s := by
  cases r with
  | cmd => exact State.writeCmd_of_inErrorState hidle he
  | ctrl => exact absurd rfl hctrl
  | pword n j => exact absurd rfl (hwin n j)
  | _ => rfl

/-- In the error state no step issues a command. -/
theorem ReportStep.idle_of_inErrorState (h : ReportStep s t) : t.status.busy = false := by
  by_contra ht
  obtain ⟨-, -, hb | he'⟩ := h.of_busy (by simpa using ht)
  · simp [hidle] at hb
  · simp [he] at he'

end ErrorState

end Sys2Proof.Machine
end

section
/-! SUPPORT. The statements about errors and the error state, each settled from the lemmas above. -/

namespace Sys2Proof.Machine

/-- Settles O50: a command's computation ends in one of its effects or in an error, and error entry changes nothing but
the report. -/
theorem everyCommandSucceedsOrReportsOneError : Obligations.EveryCommandSucceedsOrReportsOneError := by
  intro i s
  obtain ⟨r, hr, heffect, -⟩ := exec_eq_complete_outcomes i s
  rcases complete_cases s r with ⟨u, hu, ht⟩ | ⟨c, -, ht⟩
  · exact ⟨u.retire, hr.trans ht, .inl (heffect u hu).succeeded⟩
  · exact ⟨s.errorEntry c, hr.trans ht, .inr ⟨c, endedWith_errorEntry s c⟩⟩

/-- Settles O54: a step keeps the report, replaces it by a whole one, or clears it whole; and it issues only outside the
error state. -/
theorem everyStepKeepsReportAndProtocol : Obligations.EveryStepKeepsReportAndProtocol :=
  fun _ _ hreport hprotocol h => ⟨(step_reportStep h).reportInv hreport, (step_reportStep h).protocolInv hprotocol⟩

/-- Settles O57: of what a step can do to the report only a reset clears FATAL. -/
theorem onlyAResetClearsFatal : Obligations.OnlyAResetClearsFatal :=
  fun _ _ h => (step_reportStep h).resets_of_fatal

/-- Settles O58: the core's turn is idle, a read changes the model's own fields only, and a write elsewhere than to CTRL
and the P window is dropped. -/
theorem errorStateIssuesNothing : Obligations.ErrorStateIssuesNothing := by
  intro s t hidle herr h
  have he : s.status.inErrorState = true := Status.inErrorState_iff.2 herr
  refine ⟨(step_reportStep h).idle_of_inErrorState hidle he, fun hctrl hreset hwin => ?_⟩
  rcases step_eq_next h with
    ⟨-, h⟩ | ⟨rest, -, h⟩ | ⟨rest, hs, -⟩ | ⟨_, _, rest, -, h⟩ | ⟨off, n, v, rest, hs, h⟩
  · obtain rfl := eq_of_coreTurn_of_idle hidle h
    rfl
  · obtain rfl := eq_of_coreTurn_of_idle (s := { s with schedule := rest }) hidle h
    rfl
  · exact absurd hs (hreset rest)
  · obtain ⟨-, rfl⟩ := hostRead_eq_next h
    rfl
  · obtain ⟨hlegal, rfl⟩ := hostWrite_eq_next h
    obtain ⟨rfl, -⟩ := legalAccess_iff.1 hlegal
    have hne : mapReg off ≠ .ctrl := fun hr => hctrl v rest (by rw [hs, mapReg_eq_ctrl hr])
    have hout : ∀ n j, mapReg off ≠ .pword n j := fun n j hr => by
      have hin := mapReg_eq_pword hr
      have := hwin off 4 v rest hs
      omega
    rw [State.portWrite_of_inErrorState (s := { s with schedule := rest }) hidle he hne hout]

end Sys2Proof.Machine
end

section
/-! SUPPORT. The core's turn (R345) as an equation per case, and a command in flight along a run of the block: each host
access leaves it in flight or resets the block, until the core's turn comes (R72, R340, R346). -/

namespace Sys2Proof.Machine

variable {s t u : State} {i : Instr} {n : Nat}

/-! ### The core's turn -/

/-- Completion is enabled with BUSY = 1 (R345). -/
theorem coreTurn_of_busy (hb : s.status.busy = true) : coreTurn s = completeCommand s := if_pos hb

/-- With BUSY = 0 the block holds its state (R325). -/
theorem coreTurn_of_idle (hb : s.status.busy = false) : coreTurn s = .next s := by
  rw [coreTurn, hb]
  rfl

/-- The core's turn runs the command that CMDLATCH decodes to (R345). -/
theorem coreTurn_of_legal (hb : s.status.busy = true) (hd : decode s.cmdLatch = .ok i) : coreTurn s = exec i s := by
  rw [coreTurn_of_busy hb, completeCommand, State.fetchWord, hd]

/-- A completion ends, and with BUSY = 0: in a success, or in error entry (R345). -/
theorem exists_completeCommand_eq_next (s : State) : ∃ t, completeCommand s = .next t ∧ t.status.busy = false := by
  rw [completeCommand]
  split
  · exact ⟨_, rfl, rfl⟩
  · next i _ =>
    obtain ⟨r, hr⟩ := exec_eq_complete i s
    rw [hr]
    rcases complete_cases s r with ⟨u, -, h⟩ | ⟨c, -, h⟩ <;> exact ⟨_, h, rfl⟩

/-! ### The step that is the core's turn -/

/-- With nothing scheduled the step is the core's turn. -/
theorem step_of_nil (h : s.schedule = []) : step s = coreTurn s := by
  rw [step, h]

/-- A scheduled turn of the core is taken. -/
theorem step_of_coreTurn {rest : List PortEvent} (h : s.schedule = .coreTurn :: rest) :
    step s = coreTurn { s with schedule := rest } := by
  rw [step, h]

/-- The core's turn is next: it is scheduled, or nothing is. -/
def CoreTurnNext (s : State) : Prop := s.schedule = [] ∨ s.schedule.head? = some .coreTurn

/-- When the core's turn is next, a command in flight is completed by the step. -/
theorem CoreTurnNext.step_eq (h : CoreTurnNext s) (hb : s.status.busy = true) :
    step s = completeCommand { s with schedule := s.schedule.tail } := by
  rcases h with h | h
  · have htail : s.schedule.tail = s.schedule := by rw [h, List.tail_nil]
    rw [htail]
    exact (step_of_nil h).trans (coreTurn_of_busy hb)
  · have hcons := List.eq_cons_of_mem_head? h
    exact (step_of_coreTurn hcons).trans (coreTurn_of_busy hb)

/-! ### A step that is not the core's turn -/

/-- u has the command in flight of s, and all that the command reads, as s has them. -/
def CommandHeld (s u : State) : Prop :=
  ∃ l x n o, u = { s with schedule := l, readData := x, draws := n, status := { s.status with ovr := o } }

theorem CommandHeld.refl (s : State) : CommandHeld s s := ⟨_, _, _, _, rfl⟩

theorem CommandHeld.trans (h : CommandHeld s t) (h' : CommandHeld t u) : CommandHeld s u := by
  obtain ⟨_, _, _, _, rfl⟩ := h
  obtain ⟨l, x, n, o, rfl⟩ := h'
  exact ⟨l, x, n, o, rfl⟩

theorem CommandHeld.busy_eq (h : CommandHeld s u) : u.status.busy = s.status.busy := by
  obtain ⟨_, _, _, _, rfl⟩ := h
  rfl

/-- A scheduled access of the host is a legal one (R65). -/
def PortEvent.Legal : PortEvent → Prop
  | .read off bytes => legalAccess off bytes = true
  | .write off bytes _ => legalAccess off bytes = true
  | .resetInput => True
  | .coreTurn => True

/-- The event resets the block, wherever it stands in the schedule (Resets says so of the next one): the reset input, or
a write of CTRL with SRST = 1 (R31, R340). -/
def PortEvent.IsReset : PortEvent → Prop
  | .read _ _ => False
  | .write off _ v => off = 0x010 ∧ v.getLsbD 1 = true
  | .resetInput => True
  | .coreTurn => False

/-- While BUSY = 1 a write of the host port resets the block or leaves the command in flight (R31, R72). -/
theorem State.portWrite_of_busy_cases (hb : s.status.busy = true) (off : Offset) (bytes : Nat) (v : Word) :
    ((s.portWrite v (mapReg off)).status.busy = false ∧ (PortEvent.write off bytes v).IsReset) ∨
      ∃ o, s.portWrite v (mapReg off) = { s with status := { s.status with ovr := o } } := by
  by_cases hreset : mapReg off = .ctrl ∧ v.getLsbD 1 = true
  · obtain ⟨hctrl, h1⟩ := hreset
    have hw : s.portWrite v (mapReg off) = s.resetBlock := by
      rw [hctrl]
      exact State.writeCtrl_of_srst h1
    exact .inl ⟨by rw [hw]; rfl, mapReg_eq_ctrl hctrl, h1⟩
  · exact .inr (State.portWrite_of_busy hb v _ fun hctrl => by simpa [hctrl] using hreset)

/-- A step that is not the core's turn is answered; it resets the block or leaves the command in flight (R72, R340). -/
theorem step_of_event {e : PortEvent} {rest : List PortEvent} (hb : s.status.busy = true)
    (hs : s.schedule = e :: rest) (hturn : e ≠ .coreTurn) (hlegal : e.Legal) :
    ∃ t, step s = .next t ∧
      ((t.status.busy = false ∧ e.IsReset) ∨ (CommandHeld s t ∧ t.schedule = rest)) := by
  rw [step, hs]
  cases e with
  | coreTurn => exact absurd rfl hturn
  | resetInput => exact ⟨_, rfl, .inl ⟨rfl, trivial⟩⟩
  | read off bytes => exact ⟨_, if_pos hlegal, .inr ⟨⟨_, _, _, _, rfl⟩, rfl⟩⟩
  | write off bytes v =>
    refine ⟨_, if_pos hlegal, ?_⟩
    rcases State.portWrite_of_busy_cases (s := { s with schedule := rest }) hb off bytes v with hreset | ⟨o, ho⟩
    · exact .inl hreset
    · rw [ho]
      exact .inr ⟨⟨_, _, _, _, rfl⟩, rfl⟩

/-! ### A run until the core's turn -/

section Run
variable {M : Host.Core} {x y z : M.State}

/-- A run of n + 1 steps is a step and a run of n steps. -/
theorem run_succ_eq_next_iff : M.run (n + 1) x = .next z ↔ ∃ y, M.step x = .next y ∧ M.run n y = .next z := by
  rw [Host.Core.run]
  cases M.step x <;> simp

/-- A run may be prolonged by a step. -/
theorem run_succ_of_run (hrun : M.run n x = .next y) (hstep : M.step y = .next z) : M.run (n + 1) x = .next z := by
  induction n generalizing x with
  | zero =>
    cases hrun
    exact run_succ_eq_next_iff.2 ⟨z, hstep, rfl⟩
  | succ n ih =>
    obtain ⟨x', hx, hrun⟩ := run_succ_eq_next_iff.1 hrun
    exact run_succ_eq_next_iff.2 ⟨x', hx, ih hrun⟩

end Run

/-- Within the scheduled steps a scheduled reset abandons the command in flight, or the core's turn comes with the
command as it was (R340, R346). -/
theorem exists_run_to_coreTurn_or_reset (hb : s.status.busy = true) (hlegal : ∀ e ∈ s.schedule, e.Legal) :
    ∃ (n : Nat) (u : State), n ≤ s.schedule.length ∧ Host.Core.run Sys2Proof.core n s = .next u ∧
      ((u.status.busy = false ∧ ∃ e ∈ s.schedule, e.IsReset) ∨ (CommandHeld s u ∧ CoreTurnNext u)) := by
  generalize hs : s.schedule = l at hlegal ⊢
  induction l generalizing s with
  | nil => exact ⟨0, s, le_rfl, rfl, .inr ⟨.refl s, .inl hs⟩⟩
  | cons e rest ih =>
    obtain ⟨he, hrest⟩ := List.forall_mem_cons.1 hlegal
    by_cases hturn : e = .coreTurn
    · exact ⟨0, s, Nat.zero_le _, rfl, .inr ⟨.refl s, .inr (by rw [hs, hturn, List.head?_cons])⟩⟩
    obtain ⟨t, hstep, ⟨hidle, hreset⟩ | ⟨hheld, ht⟩⟩ := step_of_event hb hs hturn he
    · exact ⟨1, t, by simp, run_succ_eq_next_iff.2 ⟨t, hstep, rfl⟩, .inl ⟨hidle, e, List.mem_cons_self, hreset⟩⟩
    · obtain ⟨n, u, hn, hrun, hend⟩ := ih (hheld.busy_eq.trans hb) ht hrest
      refine ⟨n + 1, u, Nat.succ_le_succ hn, run_succ_eq_next_iff.2 ⟨t, hstep, hrun⟩, ?_⟩
      rcases hend with ⟨hidle, e', hmem, hreset⟩ | ⟨hheld', hnext⟩
      · exact .inl ⟨hidle, e', List.mem_cons_of_mem e hmem, hreset⟩
      · exact .inr ⟨hheld.trans hheld', hnext⟩

end Sys2Proof.Machine
end

section
/-! SUPPORT. The statements about completion and reset, each settled from the lemmas above. -/

namespace Sys2Proof.Machine

/-- Settles O16: by induction on the schedule a run reaches the core's turn with the command as it was, unless a scheduled
reset abandons it before; the completion then ends with BUSY = 0. -/
theorem everyCommandCompletes : Obligations.EveryCommandCompletes := by
  intro s hb hread hwrite
  have hlegal : ∀ e ∈ s.schedule, e.Legal := fun e he => by
    cases e with
    | read off bytes => exact hread off bytes he
    | write off bytes v => exact hwrite off bytes v he
    | resetInput | coreTurn => trivial
  obtain ⟨n, u, hn, hrun, hend⟩ := exists_run_to_coreTurn_or_reset hb hlegal
  rcases hend with ⟨hidle, e, he, hreset⟩ | ⟨hheld, hnext⟩
  · refine ⟨⟨n, u, Nat.le_succ_of_le hn, hrun, hidle⟩, fun hinput hctrl => ?_⟩
    cases e with
    | resetInput => exact absurd he hinput
    | write off bytes v =>
      obtain ⟨rfl, h1⟩ := hreset
      exact absurd (h1.symm.trans (hctrl bytes v he)) nofun
    | read | coreTurn => exact hreset.elim
  · have hstep := hnext.step_eq (hheld.busy_eq.trans hb)
    obtain ⟨t, ht, hidle⟩ := exists_completeCommand_eq_next { u with schedule := u.schedule.tail }
    refine ⟨⟨n + 1, t, Nat.succ_le_succ hn, run_succ_of_run hrun (hstep.trans ht), hidle⟩, fun _ _ =>
      ⟨n, u, t, hn, hrun, ?_, ?_, hnext, hstep, hstep.trans ht, hidle⟩⟩ <;>
    · obtain ⟨_, _, _, _, rfl⟩ := hheld
      rfl

/-- Settles O5: the step is the core's turn, which runs the command; a word of 32 bits is prepared as it is. -/
theorem stepRunsTheDecodedCommand : Obligations.StepRunsTheDecodedCommand := by
  refine ⟨fun s i hb hd => ⟨fun hs => ?_, fun rest hs => ?_⟩, fun s w i hd => ?_⟩
  · rw [step_of_nil hs, coreTurn_of_legal hb hd]
  · rw [step_of_coreTurn hs]
    exact coreTurn_of_legal hb hd
  · have hw : BitVec.ofNat 32 (w.toNat % 2 ^ 32) = w := by
      rw [Nat.mod_eq_of_lt w.isLt, BitVec.ofNat_toNat, BitVec.setWidth_eq]
    rw [State.withFetchWord, hw, step_of_coreTurn rfl]
    exact coreTurn_of_legal (s := s.issue w) rfl hd

/-- Settles O6: an illegal word in flight ends in error entry; with BUSY = 0 completion is not enabled. -/
theorem coreTurnWithoutALegalCommand : Obligations.CoreTurnWithoutALegalCommand :=
  ⟨fun s _ hb hd => ⟨_, coreTurn_of_illegal hb hd, endedWith_errorEntry s .illegalCmd⟩, fun _ => coreTurn_of_idle⟩

/-- Settles O15: the reset input resets the block, and the reset values, with BUSY, ERR and FATAL 0, let a CMD write
issue. -/
theorem resetLeavesTheResetState : Obligations.ResetLeavesTheResetState := by
  refine ⟨resetValues_resetBlock State.reset, fun s rest hs => ?_, fun s v hreset => ?_⟩
  · rw [step, hs]
    exact ⟨_, rfl, resetValues_resetBlock _, rfl⟩
  · obtain ⟨-, -, -, -, hstatus, -⟩ := hreset
    have hw : hostWrite 0x004 4 v s = .next (s.writeCmd v) := hostWrite_of_mapReg (r := .cmd) rfl rfl v
    rw [hw, State.writeCmd_of_ready (by rw [hstatus]) (by rw [hstatus]; rfl)]
    rfl

end Sys2Proof.Machine
end

section
/-! SUPPORT. The statement about the example words of the spec, settled from the two directions of the round trip. -/

namespace Sys2Proof

/-- The two directions of the round trip together (R107, R108). -/
theorem decode_eq_ok_iff {w : Word} {i : Instr} : decode w = .ok i ↔ i.wf = true ∧ encode i = w :=
  ⟨decodedWordEncodesBack w i, fun ⟨hwf, hw⟩ => hw ▸ decodeOfEncodeIsTheCommand i hwf⟩

/-- Settles O4: each legal example word is the encoding of its command, which is well formed; the decoder evaluates to the
error of the two illegal ones. -/
theorem someWordsOfTheSpecDecode : Obligations.SomeWordsOfTheSpecDecode := by
  simp only [Obligations.SomeWordsOfTheSpecDecode, decode_eq_ok_iff]
  decide

end Sys2Proof
end
